-- ==== Sys2Proof/Machine/Sizes.lean ====
section
/-! DEFINITION. The parameters of 00_scope.md R6 that shape types: each under its own name, so that a claim can name it and a
measurement can correct it alone. They stand under Machine/ for that reason; the other parameters are in Machine/Params.lean. -/

namespace Sys2Proof.Config

/-- Number of general registers (R6 `NREGS`). -/
abbrev nRegs : Nat := 16

/-- Width of a general register (R6 `REG_W`). -/
abbrev regW : Nat := 8

/-- Width of the index register (R6 `I_W`). -/
abbrev iW : Nat := 16

/-- Width of the program counter (R6 `PC_W`, decision D4; log 2). -/
abbrev pcW : Nat := 16

/-- Width of a call stack entry: that of the program counter (R6 `STACK_ENTRY_W`, decision D22; log 2). -/
abbrev stackEntryW : Nat := pcW

/-- Width of each timer (R6 `TIMER_W`). -/
abbrev timerW : Nat := 8

/-- Width of an instruction (R6 `OPCODE_W`). -/
abbrev opcodeW : Nat := 16

/-- Columns of the pixel buffer (R6 `DISPLAY_W`). -/
abbrev displayW : Nat := 64

/-- Rows of the pixel buffer (R6 `DISPLAY_H`). -/
abbrev displayH : Nat := 32

/-- Number of key codes (R6 `NKEYS`). -/
abbrev nKeys : Nat := 16

end Sys2Proof.Config
end

