-- ==== Sys2Proof/Word.lean ====
section
/-! DEFINITION. The word types of the CHIP-8 core (00_scope.md R6, R7): all unsigned, none sign-extended. -/

namespace Sys2Proof

/-- A memory byte, an immediate `kk`, any `u8` (00_scope.md R7). -/
abbrev Byte := BitVec 8

/-- The contents of a general register (R6 `REG_W`). -/
abbrev RegByte := BitVec Config.regW

/-- The contents of a timer (R6 `TIMER_W`). -/
abbrev TimerByte := BitVec Config.timerW

/-- An opcode word (R6 `OPCODE_W`). -/
abbrev Opcode := BitVec Config.opcodeW

/-- The contents of `PC` (R6 `PC_W`). -/
abbrev PcWord := BitVec Config.pcW

/-- The contents of `I` (R6 `I_W`). -/
abbrev IndexWord := BitVec Config.iW

/-- An entry of the call stack (R6 `STACK_ENTRY_W`). -/
abbrev StackEntry := BitVec Config.stackEntryW

/-- A 12-bit address operand `nnn` (30_encoding.md R72). -/
abbrev Addr12 := BitVec 12

/-- A 4-bit nibble operand `n` (30_encoding.md R72). -/
abbrev Nibble := BitVec 4

/-- A register index (R6 `NREGS`): every value of the 4-bit field names a register (R74). -/
abbrev Reg := Fin Config.nRegs

/-- A key code (R6 `NKEYS`). -/
abbrev Key := Fin Config.nKeys

/-- The flag register `VF` is general register 15 (10_state.md R20, R21). -/
def vf : Reg := 15

end Sys2Proof
end

