-- ==== Sys2Proof/WellFormed.lean ====
section
/-! DEFINITION. Which terms of `Instr` are instructions of the machine. The operand types rule out every other ill-formed
operand (30_encoding.md R74: no register field can be out of range); one relation between an operand and the row remains. -/

namespace Sys2Proof

/-- The low byte of a 12-bit address operand: the second dispatch key of family 0 (30_encoding.md R77). -/
def sysLowByte (nnn : Addr12) : Byte := nnn.extractLsb' 0 8

/-- Well-formed: a SYS operand is one that the words of CLS and RET leave to SYS (30_encoding.md R77, R86: rows 1 and 2 take
precedence over row 3, so the 32 words with low byte 0xE0 or 0xEE are no SYS). -/
def Instr.wf : Instr → Bool
  | .cls => true
  | .ret => true
  | .sys nnn => sysLowByte nnn != 0xE0#8 && sysLowByte nnn != 0xEE#8
  | .jp _ => true
  | .call _ => true
  | .seImm _ _ => true
  | .sneImm _ _ => true
  | .seReg _ _ => true
  | .ldImm _ _ => true
  | .addImm _ _ => true
  | .ldReg _ _ => true
  | .or _ _ => true
  | .and _ _ => true
  | .xor _ _ => true
  | .addReg _ _ => true
  | .sub _ _ => true
  | .shr _ => true
  | .subn _ _ => true
  | .shl _ => true
  | .sneReg _ _ => true
  | .ldI _ => true
  | .jpV0 _ => true
  | .rnd _ _ => true
  | .drw _ _ _ => true
  | .skp _ => true
  | .sknp _ => true
  | .ldVxDt _ => true
  | .ldVxK _ => true
  | .ldDtVx _ => true
  | .ldStVx _ => true
  | .addI _ => true
  | .ldF _ => true
  | .ldB _ => true
  | .ldIVx _ => true
  | .ldVxI _ => true

end Sys2Proof
end

