-- ==== Sys2Proof/Decode.lean ====
section
/-! DEFINITION. The decoder (30_encoding.md R70 to R86), total on any bytes, and the encoder of R76 and R88. -/

namespace Sys2Proof

/-! ## Byte order and fields (R52, R70, R72) -/

/-- The opcode of two consecutive bytes, high byte first: `op = 256 * hi + lo` (20_memory.md R52). -/
def joinBytes (hi lo : Byte) : Opcode := BitVec.ofNat Config.opcodeW (256 * hi.toNat + lo.toNat)

/-- The two bytes of an opcode as memory holds them, high byte first (20_memory.md R52). -/
def splitWord (op : Opcode) : List Byte := [op.extractLsb' 8 8, op.extractLsb' 0 8]

/-- `f = op[15:12]` (R72). -/
def fieldF (op : Opcode) : Nibble := op.extractLsb' 12 4

/-- `x = op[11:8]` (R72). -/
def fieldX (op : Opcode) : Reg := (op.extractLsb' 8 4).toFin

/-- `y = op[7:4]` (R72). -/
def fieldY (op : Opcode) : Reg := (op.extractLsb' 4 4).toFin

/-- `n = op[3:0]` (R72). -/
def fieldN (op : Opcode) : Nibble := op.extractLsb' 0 4

/-- `kk = op[7:0]` (R72). -/
def fieldKK (op : Opcode) : Byte := op.extractLsb' 0 8

/-- `nnn = op[11:0]` (R72). -/
def fieldNNN (op : Opcode) : Addr12 := op.extractLsb' 0 12

/-! ## The decoder -/

/-- Why bytes are no instruction. -/
inductive Reject where
  /-- the word selects no row of R76 (R85): the verdict DecodeError -/
  | illegal (op : Opcode)
  /-- fewer than two bytes (R70) -/
  | truncated
deriving DecidableEq, Repr

/-- Family 0, second key the low byte (R77): what CLS and RET do not take is SYS (90_conflicts.md C7). -/
def decodeFamily0 (op : Opcode) : Instr :=
  if fieldKK op = 0xE0#8 then .cls
  else if fieldKK op = 0xEE#8 then .ret
  else .sys (fieldNNN op)

/-- Family 8, second key the low nibble (R81); `y` is ignored by SHR and SHL. -/
def decodeFamily8 (op : Opcode) : Except Reject Instr :=
  match fieldN op with
  | 0x0#4 => .ok (.ldReg (fieldX op) (fieldY op))
  | 0x1#4 => .ok (.or (fieldX op) (fieldY op))
  | 0x2#4 => .ok (.and (fieldX op) (fieldY op))
  | 0x3#4 => .ok (.xor (fieldX op) (fieldY op))
  | 0x4#4 => .ok (.addReg (fieldX op) (fieldY op))
  | 0x5#4 => .ok (.sub (fieldX op) (fieldY op))
  | 0x6#4 => .ok (.shr (fieldX op))
  | 0x7#4 => .ok (.subn (fieldX op) (fieldY op))
  | 0xE#4 => .ok (.shl (fieldX op))
  | _ => .error (.illegal op)

/-- Family E, second key the low byte (R83). -/
def decodeFamilyE (op : Opcode) : Except Reject Instr :=
  if fieldKK op = 0x9E#8 then .ok (.skp (fieldX op))
  else if fieldKK op = 0xA1#8 then .ok (.sknp (fieldX op))
  else .error (.illegal op)

/-- Family F, second key the low byte (R84). -/
def decodeFamilyF (op : Opcode) : Except Reject Instr :=
  if fieldKK op = 0x07#8 then .ok (.ldVxDt (fieldX op))
  else if fieldKK op = 0x0A#8 then .ok (.ldVxK (fieldX op))
  else if fieldKK op = 0x15#8 then .ok (.ldDtVx (fieldX op))
  else if fieldKK op = 0x18#8 then .ok (.ldStVx (fieldX op))
  else if fieldKK op = 0x1E#8 then .ok (.addI (fieldX op))
  else if fieldKK op = 0x29#8 then .ok (.ldF (fieldX op))
  else if fieldKK op = 0x33#8 then .ok (.ldB (fieldX op))
  else if fieldKK op = 0x55#8 then .ok (.ldIVx (fieldX op))
  else if fieldKK op = 0x65#8 then .ok (.ldVxI (fieldX op))
  else .error (.illegal op)

/-- The decoder of one opcode word: dispatch on the high nibble; families 0, 8, E and F dispatch further (R75). -/
def decodeWord (op : Opcode) : Except Reject Instr :=
  match fieldF op with
  | 0x0#4 => .ok (decodeFamily0 op)
  | 0x1#4 => .ok (.jp (fieldNNN op))
  | 0x2#4 => .ok (.call (fieldNNN op))
  | 0x3#4 => .ok (.seImm (fieldX op) (fieldKK op))
  | 0x4#4 => .ok (.sneImm (fieldX op) (fieldKK op))
  | 0x5#4 => .ok (.seReg (fieldX op) (fieldY op))
  | 0x6#4 => .ok (.ldImm (fieldX op) (fieldKK op))
  | 0x7#4 => .ok (.addImm (fieldX op) (fieldKK op))
  | 0x8#4 => decodeFamily8 op
  | 0x9#4 => .ok (.sneReg (fieldX op) (fieldY op))
  | 0xA#4 => .ok (.ldI (fieldNNN op))
  | 0xB#4 => .ok (.jpV0 (fieldNNN op))
  | 0xC#4 => .ok (.rnd (fieldX op) (fieldKK op))
  | 0xD#4 => .ok (.drw (fieldX op) (fieldY op) (fieldN op))
  | 0xE#4 => decodeFamilyE op
  | _ => decodeFamilyF op -- 0xF, the one value left

/-- The decoder on a byte stream (R70): the instruction at its head and the rest of the stream, or a rejection by name. -/
def decode : List Byte → Except Reject (Instr × List Byte)
  | hi :: lo :: rest =>
    match decodeWord (joinBytes hi lo) with
    | .ok i => .ok (i, rest)
    | .error e => .error e
  | [_] => .error .truncated
  | [] => .error .truncated

/-- The instruction the decoder reads from a table word of `nbits` bits (spec/opcode_table.json numbers bit 0 as the least
significant of the 16-bit word); the two bytes are laid out high byte first (R52). -/
def decodeTableWord (nbits w : Nat) : Option Instr :=
  match decode (splitWord (BitVec.ofNat Config.opcodeW (w % 2 ^ nbits))) with
  | .ok (i, _) => some i
  | .error _ => none

/-! ## The encoder (R73, R76; an ignored digit is emitted as 0, R88) -/

/-- Format NNN. -/
def wordNNN (f : Nat) (nnn : Addr12) : Opcode := BitVec.ofNat Config.opcodeW (f * 4096 + nnn.toNat)

/-- Format XKK; also format X, whose sub-opcode stands in place of `kk`. -/
def wordXKK (f : Nat) (x : Reg) (kk : Byte) : Opcode := BitVec.ofNat Config.opcodeW (f * 4096 + x.val * 256 + kk.toNat)

/-- Formats XYN and XY. -/
def wordXYN (f : Nat) (x y : Reg) (n : Nibble) : Opcode :=
  BitVec.ofNat Config.opcodeW (f * 4096 + x.val * 256 + y.val * 16 + n.toNat)

/-- The opcode word of an instruction (R76). -/
def encode : Instr → Opcode
  | .cls => 0x00E0#16
  | .ret => 0x00EE#16
  | .sys nnn => wordNNN 0x0 nnn
  | .jp nnn => wordNNN 0x1 nnn
  | .call nnn => wordNNN 0x2 nnn
  | .seImm x kk => wordXKK 0x3 x kk
  | .sneImm x kk => wordXKK 0x4 x kk
  | .seReg x y => wordXYN 0x5 x y 0x0#4
  | .ldImm x kk => wordXKK 0x6 x kk
  | .addImm x kk => wordXKK 0x7 x kk
  | .ldReg x y => wordXYN 0x8 x y 0x0#4
  | .or x y => wordXYN 0x8 x y 0x1#4
  | .and x y => wordXYN 0x8 x y 0x2#4
  | .xor x y => wordXYN 0x8 x y 0x3#4
  | .addReg x y => wordXYN 0x8 x y 0x4#4
  | .sub x y => wordXYN 0x8 x y 0x5#4
  | .shr x => wordXYN 0x8 x 0 0x6#4
  | .subn x y => wordXYN 0x8 x y 0x7#4
  | .shl x => wordXYN 0x8 x 0 0xE#4
  | .sneReg x y => wordXYN 0x9 x y 0x0#4
  | .ldI nnn => wordNNN 0xA nnn
  | .jpV0 nnn => wordNNN 0xB nnn
  | .rnd x kk => wordXKK 0xC x kk
  | .drw x y n => wordXYN 0xD x y n
  | .skp x => wordXKK 0xE x 0x9E#8
  | .sknp x => wordXKK 0xE x 0xA1#8
  | .ldVxDt x => wordXKK 0xF x 0x07#8
  | .ldVxK x => wordXKK 0xF x 0x0A#8
  | .ldDtVx x => wordXKK 0xF x 0x15#8
  | .ldStVx x => wordXKK 0xF x 0x18#8
  | .addI x => wordXKK 0xF x 0x1E#8
  | .ldF x => wordXKK 0xF x 0x29#8
  | .ldB x => wordXKK 0xF x 0x33#8
  | .ldIVx x => wordXKK 0xF x 0x55#8
  | .ldVxI x => wordXKK 0xF x 0x65#8

/-- The two bytes of an instruction in memory order (R52, R61). -/
def encodeBytes (i : Instr) : List Byte := splitWord (encode i)

/-! ## The rows of the opcode table (R76) -/

/-- The `match` column of the instruction's row (R76). -/
def Instr.rowMatch : Instr → Opcode
  | .cls => 0x00E0#16
  | .ret => 0x00EE#16
  | .sys _ => 0x0000#16
  | .jp _ => 0x1000#16
  | .call _ => 0x2000#16
  | .seImm _ _ => 0x3000#16
  | .sneImm _ _ => 0x4000#16
  | .seReg _ _ => 0x5000#16
  | .ldImm _ _ => 0x6000#16
  | .addImm _ _ => 0x7000#16
  | .ldReg _ _ => 0x8000#16
  | .or _ _ => 0x8001#16
  | .and _ _ => 0x8002#16
  | .xor _ _ => 0x8003#16
  | .addReg _ _ => 0x8004#16
  | .sub _ _ => 0x8005#16
  | .shr _ => 0x8006#16
  | .subn _ _ => 0x8007#16
  | .shl _ => 0x800E#16
  | .sneReg _ _ => 0x9000#16
  | .ldI _ => 0xA000#16
  | .jpV0 _ => 0xB000#16
  | .rnd _ _ => 0xC000#16
  | .drw _ _ _ => 0xD000#16
  | .skp _ => 0xE09E#16
  | .sknp _ => 0xE0A1#16
  | .ldVxDt _ => 0xF007#16
  | .ldVxK _ => 0xF00A#16
  | .ldDtVx _ => 0xF015#16
  | .ldStVx _ => 0xF018#16
  | .addI _ => 0xF01E#16
  | .ldF _ => 0xF029#16
  | .ldB _ => 0xF033#16
  | .ldIVx _ => 0xF055#16
  | .ldVxI _ => 0xF065#16

/-- The `mask` column of the instruction's row (R76). -/
def Instr.rowMask : Instr → Opcode
  | .cls => 0xF0FF#16
  | .ret => 0xF0FF#16
  | .sys _ => 0xF000#16
  | .jp _ => 0xF000#16
  | .call _ => 0xF000#16
  | .seImm _ _ => 0xF000#16
  | .sneImm _ _ => 0xF000#16
  | .seReg _ _ => 0xF000#16
  | .ldImm _ _ => 0xF000#16
  | .addImm _ _ => 0xF000#16
  | .ldReg _ _ => 0xF00F#16
  | .or _ _ => 0xF00F#16
  | .and _ _ => 0xF00F#16
  | .xor _ _ => 0xF00F#16
  | .addReg _ _ => 0xF00F#16
  | .sub _ _ => 0xF00F#16
  | .shr _ => 0xF00F#16
  | .subn _ _ => 0xF00F#16
  | .shl _ => 0xF00F#16
  | .sneReg _ _ => 0xF000#16
  | .ldI _ => 0xF000#16
  | .jpV0 _ => 0xF000#16
  | .rnd _ _ => 0xF000#16
  | .drw _ _ _ => 0xF000#16
  | .skp _ => 0xF0FF#16
  | .sknp _ => 0xF0FF#16
  | .ldVxDt _ => 0xF0FF#16
  | .ldVxK _ => 0xF0FF#16
  | .ldDtVx _ => 0xF0FF#16
  | .ldStVx _ => 0xF0FF#16
  | .addI _ => 0xF0FF#16
  | .ldF _ => 0xF0FF#16
  | .ldB _ => 0xF0FF#16
  | .ldIVx _ => 0xF0FF#16
  | .ldVxI _ => 0xF0FF#16

/-- The digits of the pattern that the decoder ignores (R76, the `-` digits; R80, R81, R77). -/
def Instr.ignoredBits : Instr → Opcode
  | .cls => 0x0F00#16
  | .ret => 0x0F00#16
  | .sys _ => 0
  | .jp _ => 0
  | .call _ => 0
  | .seImm _ _ => 0
  | .sneImm _ _ => 0
  | .seReg _ _ => 0x000F#16
  | .ldImm _ _ => 0
  | .addImm _ _ => 0
  | .ldReg _ _ => 0
  | .or _ _ => 0
  | .and _ _ => 0
  | .xor _ _ => 0
  | .addReg _ _ => 0
  | .sub _ _ => 0
  | .shr _ => 0x00F0#16
  | .subn _ _ => 0
  | .shl _ => 0x00F0#16
  | .sneReg _ _ => 0x000F#16
  | .ldI _ => 0
  | .jpV0 _ => 0
  | .rnd _ _ => 0
  | .drw _ _ _ => 0
  | .skp _ => 0
  | .sknp _ => 0
  | .ldVxDt _ => 0
  | .ldVxK _ => 0
  | .ldDtVx _ => 0
  | .ldStVx _ => 0
  | .addI _ => 0
  | .ldF _ => 0
  | .ldB _ => 0
  | .ldIVx _ => 0
  | .ldVxI _ => 0

end Sys2Proof
end

