-- ==== Sys2Proof/Machine/Flags.lean ====
section
/-! DEFINITION. The flag computations: what each flag-writing instruction puts into `VF`, always 0 or 1 (10_state.md R21). -/

namespace Sys2Proof.Machine

/-- A truth value as the whole flag register, `0x00` or `0x01` (R21). -/
def flagByte (b : Bool) : Byte := if b then 1 else 0

/-- ADD: 1 if the unbounded sum exceeds 255 (41_arithmetic_logic.md R122, R123). -/
def carryFlag (a b : Byte) : Byte := flagByte (decide (a.toNat + b.toNat > 255))

/-- SUB(a, b): 1 if there is no borrow, `a >= b` before the wrap (41_arithmetic_logic.md R125). -/
def noBorrowFlag (a b : Byte) : Byte := flagByte (decide (a.toNat ≥ b.toNat))

/-- SHR: bit 0 of the operand before the shift, the strict single-bit test (41_arithmetic_logic.md R130). -/
def shrFlag (a : Byte) : Byte := flagByte (a.getLsbD 0)

/-- SHL: bit 7 of the operand before the shift (41_arithmetic_logic.md R131). -/
def shlFlag (a : Byte) : Byte := flagByte (a.getLsbD 7)

/-- DRW: 1 if some pixel went from set to unset (42_display_input.md R142). -/
def collisionFlag (c : Bool) : Byte := flagByte c

end Sys2Proof.Machine
end

