-- ==== Sys2Proof/Config.lean ====
section
/-! DEFINITION. The agents, and what the spec leaves free. The parameters of 00_scope.md R6 stand in Machine/Sizes.lean (those that
shape types) and in Machine/Params.lean (the others). -/

namespace Sys2Proof.Config

/-- A step of the external surface, the constructors of 60_exceptions.md R199 to R202. Its answers are inputs under no law. -/
inductive SurfaceStep where
  /-- a key goes down or up (R201) -/
  | setKey (code : Key) (down : Bool)
  /-- what `poll_pressed_key` answers from now on (R202); a code above 15 would break the surface's contract (90_conflicts.md C3) -/
  | setPoll (answer : Option Byte)
  /-- the running flag is lowered, for good (R200) -/
  | close
  /-- the display side consumes the pending frame (R199) -/
  | consumeFrame
deriving DecidableEq, Repr, Inhabited

/-- One step of one of the four kinds of agent (10_state.md R39). -/
inductive AgentStep where
  | engine
  | tickDelay
  | tickSound
  | surface (e : SurfaceStep)
deriving DecidableEq, Repr, Inhabited

/-- FREE VALUE: which agents' steps come next, any number of any of them, before the one that is due (`State.due`), where
`State.schedule` lists nothing (60_exceptions.md R184, R193; log 11). Applied to `State.turn`. -/
opaque freeSteps : Nat → List AgentStep

/-- FREE VALUE: the byte `Random8()` draws (R6 `RNG`; 41_arithmetic_logic.md R132, decision D16; log 10). Applied to
`State.draws`. -/
opaque freeRandomByte : Nat → Byte

/-- FREE VALUE: instructions per second (R6 `INSTR_RATE`, OPEN, decision D19; log 25). No rule depends on it, and no definition
uses it. -/
opaque instrRate : Nat

end Sys2Proof.Config
end

