-- ==== Sys2Proof/Machine/Params.lean ====
section
/-! DEFINITION. The implementation parameters of 00_scope.md R6 that shape no type (those are in Machine/Sizes.lean), each under a
name a claim can use, with the value this hardware takes. They stand under Machine/ so that a measurement can correct a value (decisions D2, D6, D17 of
92_eei_decisions.md are open to other values). -/

namespace Sys2Proof.Machine

/-- Bytes of memory (R6 `MEM_SIZE`, 20_memory.md R51, decision D2; log 3). -/
def memSize : Nat := 4095

/-- Load address of a cartridge and reset value of `PC` (R6 `PROG_BASE`, decision D4; log 2). -/
def progBase : Nat := 0x200

/-- Capacity of the call stack (R6 `STACK_DEPTH`, 10_state.md R28). -/
def stackDepth : Nat := 16

/-- Address of the glyph table (R6 `GLYPH_BASE`). -/
def glyphBase : Nat := 0

/-- Bytes per glyph (R6 `GLYPH_BYTES`). -/
def glyphBytes : Nat := 5

/-- Number of glyphs (R6 `NGLYPHS`). -/
def nGlyphs : Nat := 16

/-- Ticks per second of each timer (R6 `TIMER_HZ`). It relates ticks to real time, which the model has not, so no definition uses
it (60_exceptions.md R193; log 25). -/
def timerHz : Nat := 60

/-- The 80 glyph bytes, digit 0 first, top row first (R6 `GLYPHS`, 20_memory.md R60, decision D17; log 16). -/
def glyphs : List Byte :=
  [0xF0, 0x90, 0x90, 0x90, 0xF0] ++ [0x20, 0x60, 0x20, 0x20, 0x70] ++
  [0xF0, 0x10, 0xF0, 0x80, 0xF0] ++ [0xF0, 0x10, 0xF0, 0x10, 0xF0] ++
  [0x90, 0x90, 0xF0, 0x10, 0x10] ++ [0xF0, 0x80, 0xF0, 0x10, 0xF0] ++
  [0xF0, 0x80, 0xF0, 0x90, 0xF0] ++ [0xF0, 0x10, 0x20, 0x40, 0x40] ++
  [0xF0, 0x90, 0xF0, 0x90, 0xF0] ++ [0xF0, 0x90, 0xF0, 0x10, 0xF0] ++
  [0xF0, 0x90, 0xF0, 0x90, 0x90] ++ [0xE0, 0x90, 0xE0, 0x90, 0xE0] ++
  [0xF0, 0x80, 0x80, 0x80, 0xF0] ++ [0xE0, 0x90, 0x90, 0x90, 0xE0] ++
  [0xF0, 0x80, 0xF0, 0x80, 0xF0] ++ [0xF0, 0x80, 0xF0, 0x80, 0x80]

/-- The two readings of SUBN's destination (R6 `SUBN_DEST`, 41_arithmetic_logic.md R126). -/
inductive SubnDest where
  | destY
  | destX
deriving DecidableEq, Repr

/-- Which register receives SUBN's result: `V[y]`, the literal reading (R6 `SUBN_DEST`, decision D6; log 7). -/
def subnDest : SubnDest := .destY

/-- What byte `a` of memory holds after construction: the glyph table, then zeros (70_reset_and_hazards.md R211). -/
def resetByte (a : Nat) : Byte := if a < glyphBase then 0 else glyphs.getD (a - glyphBase) 0

end Sys2Proof.Machine
end

