-- ==== Sys2Proof/Machine/State.lean ====
section
/-! DEFINITION. The machine's state (10_state.md), as plain data, and its value after reset (70_reset_and_hazards.md R211). -/

namespace Sys2Proof.Machine

/-- Memory: the bytes that differ from the reset contents, at strictly rising addresses; an unlisted address reads as
`resetByte` says (log 22). Its canonical form is `Memory.wf` (Machine/Ops.lean). -/
abbrev Memory := List Host.Cell

/-- The pixel buffer `FB[row][column]`, `true` = set (00_scope.md R8, 10_state.md R34 (a)). -/
abbrev Frame := Vector (Vector Bool Config.displayW) Config.displayH

/-- Why a load fails (60_exceptions.md R185, R204; 70_reset_and_hazards.md R213). -/
inductive LoadErrorKind where
  | unreadable
  | oversized
deriving DecidableEq, Repr

/-- The fatal conditions, one closed type with the payloads of 60_exceptions.md R185. -/
inductive Condition where
  /-- step 2 of a cycle, on an illegal word -/
  | decodeError (op : Opcode)
  /-- CALL with `SP = 16` -/
  | stackOverflow
  /-- RET with `SP = 0` -/
  | stackUnderflow
  /-- SKP, SKNP on a register value above 15; LD_Vx_K on a polled code above 15 -/
  | invalidKeyCode (k : Byte)
  /-- LD_F on a register value above 15 -/
  | invalidSpriteIndex (d : Byte)
  /-- an access at or above `MEM_SIZE`; the payload is the lowest such address of the access -/
  | memoryBoundsFault (a : Nat)
  /-- the loader, before the first cycle -/
  | loadError (e : LoadErrorKind)
deriving DecidableEq, Repr

/-- Why the engine halted (10_state.md R32). -/
inductive HaltReason where
  | surfaceClosed
  | pcPastEnd
  | fatal (c : Condition)
deriving DecidableEq, Repr

/-- The engine's run state `RUN` (10_state.md R32, 60_exceptions.md R180). -/
inductive RunState where
  | running
  | halted (r : HaltReason)
deriving DecidableEq, Repr

/-- What stops the whole machine with no next state. A fatal condition of the running engine is NOT here: the spec gives it
an effect (60_exceptions.md R186), so it is a next state with `run = .halted (.fatal c)` (log 5). -/
inductive Fault where
  /-- raised by `loadCartridge` only: the load failed, is reported to the caller, and the engine never starts
  (60_exceptions.md R204, 70_reset_and_hazards.md R213). Safe: no state follows it (log 21). -/
  | loadFailed (e : LoadErrorKind)
deriving DecidableEq, Repr

/-- Why the model gives no answer. -/
inductive Refusal where
  /-- raised by an arm of `exec` whose instruction has no meaning yet; no arm is left so. Safe: nothing can be proved of it. -/
  | notModelled (mnemonic : String)
deriving DecidableEq, Repr

/-- The whole machine: engine, timers, surface (10_state.md R39), and three fields of the model's own. -/
structure State where
  /-- `V[0]` to `V[15]` (R20); `VF` is `V[15]` (R21) -/
  v : Vector RegByte Config.nRegs
  /-- `I` (R25) -/
  index : IndexWord
  /-- `PC` (R23) -/
  pc : PcWord
  /-- the live entries of the call stack, newest first (R28, R29); `SP` is its length (`State.sp`) -/
  stack : List StackEntry
  /-- `DT` (R30) -/
  dt : TimerByte
  /-- `ST` (R30) -/
  st : TimerByte
  /-- `RUN` (R32) -/
  run : RunState
  /-- `MEM` (R33) -/
  mem : Memory
  /-- the register of the LD_Vx_K the engine is waiting in (R35 (b), 42_display_input.md R146) -/
  keyWait : Option Reg
  /-- `FB` (R34 (a)) -/
  fb : Frame
  /-- the pending frame (R34 (d), 60_exceptions.md R199) -/
  pending : Option Frame
  /-- the key states: `true` = down (R34 (b), 60_exceptions.md R201) -/
  keys : Vector Bool Config.nKeys
  /-- the running flag (R34 (c), 60_exceptions.md R200) -/
  surfaceRunning : Bool
  /-- what `poll_pressed_key` answers (60_exceptions.md R202) -/
  pollAnswer : Option Byte
  /-- the MODEL's own: whose steps come next, oldest first (60_exceptions.md R184; log 11) -/
  schedule : List Config.AgentStep
  /-- the MODEL's own: how many rounds were drawn from `Config.freeSteps` (log 11) -/
  turn : Nat
  /-- the MODEL's own: how many bytes were drawn from `Config.freeRandomByte` (log 10) -/
  draws : Nat
deriving DecidableEq, Repr

/-- `SP`: the number of return addresses on the call stack (R26). -/
def State.sp (s : State) : Nat := s.stack.length

/-- `STACK[k]`, oldest first, where live (R28, R29). -/
def State.stackEntry (s : State) (k : Nat) : Option StackEntry := s.stack.reverse[k]?

/-- The pixel buffer with every pixel unset (R37, decision D14). -/
def blankFrame : Frame := Vector.replicate Config.displayH (Vector.replicate Config.displayW false)

/-- The machine after construction, before the cartridge is loaded (70_reset_and_hazards.md R211): every value the spec
gives, and for the inputs (keys, running flag, poll answer) and the model's own fields those of log 10, 11 and 12. -/
def State.reset : State where
  v := Vector.replicate Config.nRegs 0
  index := 0
  pc := BitVec.ofNat Config.pcW progBase
  stack := []
  dt := 0
  st := 0
  run := .running
  mem := []
  keyWait := none
  fb := blankFrame
  pending := none
  keys := Vector.replicate Config.nKeys false
  surfaceRunning := true
  pollAnswer := none
  schedule := []
  turn := 0
  draws := 0

end Sys2Proof.Machine
end

