-- ==== Sys2Proof/Machine/Ops.lean ====
section
/-! DEFINITION. The operations every meaning is built from: one named update for each field of State, the registers, the
memory primitives of 00_scope.md R9, the call stack, the advance and the skip, and taking a fatal condition. -/

namespace Sys2Proof.Machine

/-- What a step answers. -/
abbrev Result := Host.Outcome State Fault Refusal

/-! ## One update for each field -/

def State.setV (s : State) (v : Vector RegByte Config.nRegs) : State := { s with v := v }
def State.setIndex (s : State) (a : IndexWord) : State := { s with index := a }
def State.setPc (s : State) (a : PcWord) : State := { s with pc := a }
def State.setStack (s : State) (l : List StackEntry) : State := { s with stack := l }
def State.setDt (s : State) (b : TimerByte) : State := { s with dt := b }
def State.setSt (s : State) (b : TimerByte) : State := { s with st := b }
def State.setRun (s : State) (r : RunState) : State := { s with run := r }
def State.setMem (s : State) (m : Memory) : State := { s with mem := m }
def State.setKeyWait (s : State) (k : Option Reg) : State := { s with keyWait := k }
def State.setFb (s : State) (f : Frame) : State := { s with fb := f }
def State.setPending (s : State) (f : Option Frame) : State := { s with pending := f }
def State.setKeys (s : State) (k : Vector Bool Config.nKeys) : State := { s with keys := k }
def State.setSurfaceRunning (s : State) (b : Bool) : State := { s with surfaceRunning := b }
def State.setPollAnswer (s : State) (p : Option Byte) : State := { s with pollAnswer := p }
def State.setSchedule (s : State) (l : List Config.AgentStep) : State := { s with schedule := l }
def State.setTurn (s : State) (n : Nat) : State := { s with turn := n }
def State.setDraws (s : State) (n : Nat) : State := { s with draws := n }

/-! ## General registers (10_state.md R20) -/

/-- Read `V[x]`. No register is hard-wired (R20). -/
def State.reg (s : State) (x : Reg) : RegByte := s.v[x]

/-- Write `V[x]`. -/
def State.setReg (s : State) (x : Reg) (b : RegByte) : State := s.setV (s.v.set x b)

/-- The two writes of a flag-writing instruction: the result register first, `VF` second, so that `VF` ends as the flag where
it is the result register too (41_arithmetic_logic.md R121, decision D5; log 8). -/
def State.setResultThenFlag (s : State) (x : Reg) (result flag : RegByte) : State := (s.setReg x result).setReg vf flag

/-! ## Program counter (10_state.md R24, 60_exceptions.md R183) -/

/-- The common advance of step 4: `PC <- PC + 2`. -/
def State.advance (s : State) : State := s.setPc (s.pc + 2)

/-- A skip adds 2 when taken, on top of the common advance (40_flow_control.md R106). -/
def State.skipIf (s : State) (taken : Bool) : State := (if taken then s.setPc (s.pc + 2) else s).advance

/-! ## Memory (20_memory.md; 00_scope.md R9) -/

/-- The byte at address `a`: as last written, else as reset left it (20_memory.md R57, R63). -/
def Memory.read : Memory → Nat → Byte
  | [], a => resetByte a
  | c :: m, a => if c.1 = a then c.2 else Memory.read m a

/-- The memory that lists nothing at address `a`. -/
def Memory.erase (m : Memory) (a : Nat) : Memory := m.filter (fun c => c.1 != a)

/-- Put a cell in its place among rising addresses. -/
def Memory.insert (c : Host.Cell) : Memory → Memory
  | [] => [c]
  | d :: m => if d.1 < c.1 then d :: Memory.insert c m else c :: d :: m

/-- Write one byte, keeping the canonical form: a byte equal to the reset contents is not listed (log 22). -/
def Memory.write (m : Memory) (a : Nat) (b : Byte) : Memory :=
  if b = resetByte a then Memory.erase m a else Memory.insert (a, b) (Memory.erase m a)

/-- The canonical form: addresses strictly rising, no entry equal to what an unlisted address reads as. -/
abbrev Memory.wf (m : Memory) : Prop :=
  m.Pairwise (fun c d => c.1 < d.1) ∧ ∀ c ∈ m, c.2 ≠ resetByte c.1

/-- Write consecutive bytes upward from address `a`, one at a time in ascending order (20_memory.md R55). -/
def Memory.storeBytes (m : Memory) (a : Nat) : List Byte → Memory
  | [] => m
  | b :: bs => Memory.storeBytes (Memory.write m a b) (a + 1) bs

/-- Read `n` consecutive bytes upward from address `a` (20_memory.md R55). -/
def Memory.loadBytes (m : Memory) (a n : Nat) : List Byte := (List.range n).map (fun k => Memory.read m (a + k))

/-- The range check of an access of `len` bytes at `a`, made before any byte moves: the lowest address of the access at or
above `MEM_SIZE`, if there is one; an empty access has none (20_memory.md R56, decisions D3, D13; log 4). -/
def boundsFault (a len : Nat) : Option Nat :=
  if 0 < len ∧ memSize < a + len then some (max a memSize) else none

/-- The instruction fetch `MemRead(PC, 2)`, or the address of its bounds fault. The two byte addresses are checked in order
(00_scope.md R9, 20_memory.md R52, R56). No alignment is asked (R54; log 26). -/
def State.fetchBytes (s : State) : Except Nat (List Byte) :=
  match boundsFault s.pc.toNat 2 with
  | some a => .error a
  | none => .ok (Memory.loadBytes s.mem s.pc.toNat 2)

/-! ## The call stack (10_state.md R28) -/

/-- `STACK[SP] <- a; SP <- SP + 1`. -/
def State.push (s : State) (a : StackEntry) : State := s.setStack (a :: s.stack)

/-! ## Halting and fatal conditions (60_exceptions.md R186) -/

/-- The engine enters HALTED with a reason; nothing else changes (10_state.md R32). -/
def State.halt (s : State) (r : HaltReason) : State := s.setRun (.halted r)

/-- TAKING A FATAL CONDITION, the machine's only exceptional event: `raise K(info)` sets `RUN <- HALTED(Fatal(K(info)))`. Nothing
is saved, control goes nowhere, the instruction makes none of its writes and `PC` stays at it (60_exceptions.md R186, 00_scope.md
R10, decision D13; log 5). There is no return from it beside it: "There is no return-from-trap instruction" (R187). -/
def raise (c : Condition) (s : State) : Result := .next (s.halt (.fatal c))

end Sys2Proof.Machine
end

