-- ==== Sys2Proof/Machine/Operands.lean ====
section
/-! DEFINITION. Operand forms: register-or-immediate, zero-extension, effective addresses, and the two fixed computations of
LD_F and LD_B. -/

namespace Sys2Proof.Machine

/-- The register-or-immediate operand (30_encoding.md R90). -/
inductive Operand where
  | ofReg (y : Reg)
  | ofImm (kk : Byte)
deriving DecidableEq, Repr

/-- Its value at execution: `V[y]` or `kk`; after that both kinds do the same (R90). -/
def Operand.value (o : Operand) (s : State) : RegByte :=
  match o with
  | .ofReg y => s.reg y
  | .ofImm kk => kk

/-- `zext_N(v)`: `v` widened with zero high bits (00_scope.md R7, 30_encoding.md R74). -/
def zext (N : Nat) (v : BitVec n) : BitVec N := v.setWidth N

/-- The base of every data access: the value of `I` as an unbounded integer, byte `k` of the access being at `I + k`
(43_load_store.md R170). -/
def State.dataAddress (s : State) : Nat := s.index.toNat

/-- The registers `V[0]` to `V[x]`, inclusive, in ascending order (43_load_store.md R168). -/
def State.regsUpTo (s : State) (x : Reg) : List Byte := s.v.toList.take (x.val + 1)

/-- Registers `V[0]` to `V[x]` loaded from `MEM[a]` upward, the others as they were (43_load_store.md R169). -/
def State.fillRegs (s : State) (x : Reg) (a : Nat) : State :=
  s.setV (Vector.ofFn (fun k => if k ≤ x then Memory.read s.mem (a + k.val) else s.v[k]))

/-- The address of the glyph of digit `d`: `GLYPH_BASE + 5 * d` (43_load_store.md R166, 20_memory.md R59). -/
def glyphAddress (d : RegByte) : IndexWord := BitVec.ofNat Config.iW (glyphBase + glyphBytes * d.toNat)

/-- The three decimal digits of a byte, hundreds first (43_load_store.md R167). -/
def bcdDigits (b : Byte) : List Byte :=
  [BitVec.ofNat 8 (b.toNat / 100), BitVec.ofNat 8 (b.toNat / 10 % 10), BitVec.ofNat 8 (b.toNat % 10)]

end Sys2Proof.Machine
end

