-- ==== Sys2Proof/Machine/Arith.lean ====
section
/-! DEFINITION. Arithmetic and logic: ADD, ADD_I, SUB, SUBN, OR, AND, XOR, SHR, SHL, RND (41_arithmetic_logic.md). Every operand
is read before a register is written (40_flow_control.md R100 (a)). -/

namespace Sys2Proof.Machine

/-- ADD Vx, operand: 8-bit wrapping add, `VF` = carry, for both operand kinds (R122, R123). -/
def addInto (x : Reg) (o : Operand) (s : State) : Result :=
  .next (s.setResultThenFlag x (s.reg x + o.value s) (carryFlag (s.reg x) (o.value s))).advance

/-- SUB(a, b) with the difference written to `dest`: wrapping `V[a] - V[b]`, `VF` = no borrow (R125, R126). -/
def subInto (dest a b : Reg) (s : State) : Result :=
  .next (s.setResultThenFlag dest (s.reg a - s.reg b) (noBorrowFlag (s.reg a) (s.reg b))).advance

/-- OR, AND, XOR: a value into `V[x]`, no flag effect (R127, R128, R129). -/
def writeNoFlag (x : Reg) (b : Byte) (s : State) : Result := .next (s.setReg x b).advance

/-- ADD Vx, kk (R122): the immediate form writes `VF` too. -/
def execAddImm (x : Reg) (kk : Byte) (s : State) : Result := addInto x (.ofImm kk) s

/-- ADD Vx, Vy (R123). -/
def execAddReg (x y : Reg) (s : State) : Result := addInto x (.ofReg y) s

/-- ADD_I Vx: `I <- (I + V[x]) mod 65536`, no flag (R124, decision D10; log 9). -/
def execAddI (x : Reg) (s : State) : Result := .next (s.setIndex (s.index + zext Config.iW (s.reg x))).advance

/-- SUB Vx, Vy (R125). -/
def execSub (x y : Reg) (s : State) : Result := subInto x x y s

/-- SUBN x, y under either reading of its destination: the difference `V[y] - V[x]` into `V[y]` or into `V[x]` (R126). -/
def subnWith (d : SubnDest) (x y : Reg) (s : State) : Result :=
  match d with
  | .destY => subInto y y x s
  | .destX => subInto x y x s

/-- SUBN Vx, Vy: SUB(y, x), with the destination that `SUBN_DEST` names (R126, decision D6; log 7). -/
def execSubn (x y : Reg) (s : State) : Result := subnWith subnDest x y s

/-- OR Vx, Vy (R127). -/
def execOr (x y : Reg) (s : State) : Result := writeNoFlag x (s.reg x ||| s.reg y) s

/-- AND Vx, Vy (R128). -/
def execAnd (x y : Reg) (s : State) : Result := writeNoFlag x (s.reg x &&& s.reg y) s

/-- XOR Vx, Vy (R129). -/
def execXor (x y : Reg) (s : State) : Result := writeNoFlag x (s.reg x ^^^ s.reg y) s

/-- SHR Vx: one position right, zero fill, `VF` = old bit 0 (R130). -/
def execShr (x : Reg) (s : State) : Result :=
  .next (s.setResultThenFlag x (s.reg x >>> 1) (shrFlag (s.reg x))).advance

/-- SHL Vx: one position left, reduced to 8 bits, `VF` = old bit 7 (R131). -/
def execShl (x : Reg) (s : State) : Result :=
  .next (s.setResultThenFlag x (s.reg x <<< 1) (shlFlag (s.reg x))).advance

/-- RND Vx, kk: a free byte AND `kk`; the next RND draws anew (R132, decision D16; log 10). -/
def execRnd (x : Reg) (kk : Byte) (s : State) : Result :=
  .next (((s.setReg x (Config.freeRandomByte s.draws &&& kk)).setDraws (s.draws + 1)).advance)

end Sys2Proof.Machine
end

