-- ==== Sys2Proof/Machine/Control.lean ====
section
/-! DEFINITION. Control transfer: SYS, RET, JP, JP_V0, CALL, SE, SNE (40_flow_control.md). -/

namespace Sys2Proof.Machine

/-- SYS nnn: a no-op (R101). -/
def execSys (_nnn : Addr12) (s : State) : Result := .next s.advance

/-- RET: pop into `PC`, then the common advance, since RET is not in the exception list (R102). -/
def execRet (s : State) : Result :=
  match s.stack with
  | [] => raise .stackUnderflow s
  | a :: rest => .next ((s.setStack rest).setPc a).advance

/-- JP nnn: sets `PC`, no advance (R103). -/
def execJp (nnn : Addr12) (s : State) : Result := .next (s.setPc (zext Config.pcW nnn))

/-- JP_V0 nnn: `PC <- nnn + V[0]`, not reduced to 12 bits (R104, decision D24; log 18). -/
def execJpV0 (nnn : Addr12) (s : State) : Result := .next (s.setPc (zext Config.pcW nnn + zext Config.pcW (s.reg 0)))

/-- CALL nnn: pushes its own address, sets `PC`, no advance (R105). A stack of 16 or more entries is full (log 23). -/
def execCall (nnn : Addr12) (s : State) : Result :=
  if stackDepth ≤ s.sp then raise .stackOverflow s
  else .next ((s.push s.pc).setPc (zext Config.pcW nnn))

/-- SE Vx, operand: skip if equal (R106). -/
def skipIfEqual (x : Reg) (o : Operand) (s : State) : Result := .next (s.skipIf (decide (s.reg x = o.value s)))

/-- SNE Vx, operand: skip if different (R106). -/
def skipIfNotEqual (x : Reg) (o : Operand) (s : State) : Result := .next (s.skipIf (decide (s.reg x ≠ o.value s)))

/-- SE Vx, kk (R107). -/
def execSeImm (x : Reg) (kk : Byte) (s : State) : Result := skipIfEqual x (.ofImm kk) s

/-- SE Vx, Vy (R108). -/
def execSeReg (x y : Reg) (s : State) : Result := skipIfEqual x (.ofReg y) s

/-- SNE Vx, kk (R109). -/
def execSneImm (x : Reg) (kk : Byte) (s : State) : Result := skipIfNotEqual x (.ofImm kk) s

/-- SNE Vx, Vy (R110). -/
def execSneReg (x y : Reg) (s : State) : Result := skipIfNotEqual x (.ofReg y) s

end Sys2Proof.Machine
end

