-- ==== Sys2Proof/Machine/Surface.lean ====
section
/-! DEFINITION. The external display/input surface: its six operations (60_exceptions.md R196 to R202; 42_display_input.md R141,
R143) and its own steps. -/

namespace Sys2Proof.Machine

/-- `FB[row][col]`. -/
def Frame.pixel (f : Frame) (row : Fin Config.displayH) (col : Fin Config.displayW) : Bool := f[row][col]

/-- `FB[row][col] <- FB[row][col] ^ 1`. -/
def Frame.flip (f : Frame) (row : Fin Config.displayH) (col : Fin Config.displayW) : Frame :=
  f.set row (f[row].set col (!f[row][col]))

/-- The display row of an unbounded coordinate: `mod 32` (R143). -/
def wrapRow (n : Nat) : Fin Config.displayH := ⟨n % Config.displayH, Nat.mod_lt n (by decide)⟩

/-- The display column of an unbounded coordinate: `mod 64` (R143). -/
def wrapCol (n : Nat) : Fin Config.displayW := ⟨n % Config.displayW, Nat.mod_lt n (by decide)⟩

/-- Pixel `b` of a sprite row, `b = 0` leftmost: bit `7 - b`, the leftmost being the most significant (R143; log 17). -/
def spriteBit (byte : Byte) (b : Nat) : Bool := byte.getLsbD (7 - b)

/-- One turn of R143's inner loop on the buffer and the collision so far: a set sprite bit toggles its pixel, and collides if
the pixel was set. -/
def drawPixel (px row : Nat) (byte : Byte) (acc : Frame × Bool) (b : Nat) : Frame × Bool :=
  if spriteBit byte b then
    (Frame.flip acc.1 (wrapRow row) (wrapCol (px + b)), acc.2 || Frame.pixel acc.1 (wrapRow row) (wrapCol (px + b)))
  else acc

/-- R143's inner loop: the 8 pixels of one sprite row, drawn at unbounded display row `row`. -/
def drawRow (px row : Nat) (byte : Byte) (acc : Frame × Bool) : Frame × Bool :=
  (List.range 8).foldl (drawPixel px row byte) acc

/-- R143's outer loop: sprite row `r` lands on display row `(py + r) mod 32`. -/
def drawRows (px : Nat) : Nat → List Byte → Frame × Bool → Frame × Bool
  | _, [], acc => acc
  | row, byte :: rest, acc => drawRows px (row + 1) rest (drawRow px row byte acc)

/-- `Surface.draw(px, py, sprite)`: the buffer after the XOR-blit, and whether a set pixel was unset (R143, R198). -/
def draw (px py : Byte) (sprite : List Byte) (f : Frame) : Frame × Bool :=
  drawRows px.toNat py.toNat sprite (f, false)

/-- `Surface.clear_frame()` (R141, R197). -/
def State.clearFrame (s : State) : State := s.setFb blankFrame

/-- `Surface.publish_frame()`: a copy of the buffer becomes the pending frame, superseding an unconsumed one (R199). -/
def State.publishFrame (s : State) : State := s.setPending (some s.fb)

/-- `Surface.is_running()` (R200). -/
def State.isRunning (s : State) : Bool := s.surfaceRunning

/-- `Surface.key_down(code)` (R201). -/
def State.keyDown (s : State) (code : Key) : Bool := s.keys[code]

/-- `Surface.poll_pressed_key()`, which returns at once (R202; log 13). -/
def State.pollPressedKey (s : State) : Option Byte := s.pollAnswer

/-- A step of the surface itself (R39 (4), R199 to R202): it touches the surface's state only. -/
def surfaceStep (e : Config.SurfaceStep) (s : State) : State :=
  match e with
  | .setKey code down => s.setKeys (s.keys.set code down)
  | .setPoll answer => s.setPollAnswer answer
  | .close => s.setSurfaceRunning false
  | .consumeFrame => s.setPending none

/-- The key code of a register value: only 0 to 15 are valid, and nothing is masked (42_display_input.md R144). -/
def keyCode (k : RegByte) : Option Key := if h : k.toNat < Config.nKeys then some ⟨k.toNat, h⟩ else none

end Sys2Proof.Machine
end

