-- ==== Sys2Proof/Machine/Display.lean ====
section
/-! DEFINITION. Display and keypad: CLS, DRW, SKP, SKNP, LD_Vx_K (42_display_input.md). -/

namespace Sys2Proof.Machine

/-- CLS: clear the pixel buffer, publish the empty frame (R140). -/
def execCls (s : State) : Result := .next (s.clearFrame.publishFrame).advance

/-- DRW Vx, Vy, n: draw `n` sprite rows from `MEM[I]` at (`V[x]`, `V[y]`), `VF` = collision, publish (R142); `n = 0` reads nothing
and cannot fault (decision D26; log 19). -/
def execDrw (x y : Reg) (n : Nibble) (s : State) : Result :=
  match boundsFault s.dataAddress n.toNat with
  | some a => raise (.memoryBoundsFault a) s
  | none =>
    let d := draw (s.reg x) (s.reg y) (Memory.loadBytes s.mem s.dataAddress n.toNat) s.fb
    .next ((((s.setFb d.1).setReg vf (collisionFlag d.2)).publishFrame).advance)

/-- SKP and SKNP: skip if the key of code `V[x]` is (`wanted = true`) or is not down; a value above 15 is fatal (R144, R145). -/
def skipOnKey (x : Reg) (wanted : Bool) (s : State) : Result :=
  match keyCode (s.reg x) with
  | none => raise (.invalidKeyCode (s.reg x)) s
  | some code => .next (s.skipIf (s.keyDown code == wanted))

/-- SKP Vx (R144). -/
def execSkp (x : Reg) (s : State) : Result := skipOnKey x true s

/-- SKNP Vx (R145). -/
def execSknp (x : Reg) (s : State) : Result := skipOnKey x false s

/-- One pass of the key wait: first the running flag (decision D15), then one poll. `None` leaves the engine in the wait; a code
ends it; a code above 15, from a surface that breaks its contract, is fatal (R146, R147; 90_conflicts.md C3; log 13, log 14). -/
def keyWaitPass (x : Reg) (s : State) : Result :=
  if s.isRunning then
    match s.pollPressedKey with
    | none => .next (s.setKeyWait (some x))
    | some k =>
      if Config.nKeys ≤ k.toNat then raise (.invalidKeyCode k) s
      else .next (((s.setReg x k).setKeyWait none).advance)
  else .next (s.halt .surfaceClosed)

/-- LD_Vx_K Vx: the first pass of the key wait; later passes are engine steps of their own (R146, 60_exceptions.md R181). -/
def execLdVxK (x : Reg) (s : State) : Result := keyWaitPass x s

end Sys2Proof.Machine
end

