-- ==== Sys2Proof/Machine/Timers.lean ====
section
/-! DEFINITION. The three indivisible operations on a timer (10_state.md R31; 60_exceptions.md R192; decision D11, log 28). -/

namespace Sys2Proof.Machine

/-- `Tick(T)`: `if T != 0 then T <- T - 1` (60_exceptions.md R192). -/
def tickValue (t : TimerByte) : TimerByte := if t = 0 then 0 else t - 1

/-- One step of the delay-timer process (R192). -/
def State.tickDelay (s : State) : State := s.setDt (tickValue s.dt)

/-- One step of the sound-timer process (R192). -/
def State.tickSound (s : State) : State := s.setSt (tickValue s.st)

/-- `AtomicLoad(DT)` (R31). -/
def State.loadDelay (s : State) : TimerByte := s.dt

/-- `AtomicStore(DT, b)` (R31). -/
def State.storeDelay (s : State) (b : TimerByte) : State := s.setDt b

/-- `AtomicStore(ST, b)` (R31). No instruction loads `ST` (10_state.md R27; 60_exceptions.md R195, log 27). -/
def State.storeSound (s : State) (b : TimerByte) : State := s.setSt b

end Sys2Proof.Machine
end

