-- ==== Sys2Proof/Machine/LoadStore.lean ====
section
/-! DEFINITION. Loads and stores: the LD copies, LD_F, LD_B, LD_I_Vx, LD_Vx_I (43_load_store.md). None changes `I` but LD_I and
LD_F; none writes a flag. -/

namespace Sys2Proof.Machine

/-- LD Vx, operand: a copy into `V[x]`, for both operand kinds (R160, R161). -/
def copyInto (x : Reg) (o : Operand) (s : State) : Result := .next (s.setReg x (o.value s)).advance

/-- LD Vx, kk (R160). -/
def execLdImm (x : Reg) (kk : Byte) (s : State) : Result := copyInto x (.ofImm kk) s

/-- LD Vx, Vy (R161). -/
def execLdReg (x y : Reg) (s : State) : Result := copyInto x (.ofReg y) s

/-- LD_I nnn (R162). -/
def execLdI (nnn : Addr12) (s : State) : Result := .next (s.setIndex (zext Config.iW nnn)).advance

/-- LD_Vx_DT Vx (R163). -/
def execLdVxDt (x : Reg) (s : State) : Result := .next (s.setReg x s.loadDelay).advance

/-- LD_DT_Vx Vx (R164). -/
def execLdDtVx (x : Reg) (s : State) : Result := .next (s.storeDelay (s.reg x)).advance

/-- LD_ST_Vx Vx (R165). -/
def execLdStVx (x : Reg) (s : State) : Result := .next (s.storeSound (s.reg x)).advance

/-- LD_F Vx: `I <- 5 * V[x]`; a value above 15 is fatal, nothing is masked (R166). -/
def execLdF (x : Reg) (s : State) : Result :=
  if nGlyphs ≤ (s.reg x).toNat then raise (.invalidSpriteIndex (s.reg x)) s
  else .next (s.setIndex (glyphAddress (s.reg x))).advance

/-- The store shared by LD_B and LD_I_Vx: the bytes go to `MEM[I]` upward if all of them fit, else none (20_memory.md R55, R56). -/
def storeAtIndex (bytes : List Byte) (s : State) : Result :=
  match boundsFault s.dataAddress bytes.length with
  | some a => raise (.memoryBoundsFault a) s
  | none => .next (s.setMem (Memory.storeBytes s.mem s.dataAddress bytes)).advance

/-- LD_B Vx: the decimal digits of `V[x]` to `MEM[I]`, `MEM[I + 1]`, `MEM[I + 2]` (R167). -/
def execLdB (x : Reg) (s : State) : Result := storeAtIndex (bcdDigits (s.reg x)) s

/-- LD_I_Vx Vx: `V[0]` to `V[x]` to `MEM[I]` to `MEM[I + x]` (R168). -/
def execLdIVx (x : Reg) (s : State) : Result := storeAtIndex (s.regsUpTo x) s

/-- LD_Vx_I Vx: `MEM[I]` to `MEM[I + x]` into `V[0]` to `V[x]` (R169). -/
def execLdVxI (x : Reg) (s : State) : Result :=
  match boundsFault s.dataAddress (x.val + 1) with
  | some a => raise (.memoryBoundsFault a) s
  | none => .next (s.fillRegs x s.dataAddress).advance

end Sys2Proof.Machine
end

