-- ==== Sys2Proof/Machine/Engine.lean ====
section
/-! DEFINITION. The agents' steps: the engine's cycle (60_exceptions.md R180 to R182), the ticks, the surface, and whose step comes
next (R184). -/

namespace Sys2Proof.Machine

/-- Steps 1 to 4 of the cycle: fetch, decode, execute with the advance in it (R181); each of the first two may raise (R189). -/
def State.fetchDecodeExecute (s : State) : Result :=
  match s.fetchBytes with
  | .error a => raise (.memoryBoundsFault a) s
  | .ok bytes =>
    match decode bytes with
    | .ok (i, _) => exec i s
    | .error (.illegal op) => raise (.decodeError op) s
    | .error .truncated => raise (.memoryBoundsFault memSize) s

/-- One cycle: step 0, the halt check, surface first and then `PC` (R181, R182, decision D12; log 15), then steps 1 to 4. -/
def State.cycle (s : State) : Result :=
  if s.isRunning then
    if memSize ≤ s.pc.toNat then .next (s.halt .pcPastEnd)
    else s.fetchDecodeExecute
  else .next (s.halt .surfaceClosed)

/-- One engine step: nothing once HALTED (R180, R186; log 5); one more pass inside a key wait (42_display_input.md R146; log 14);
else one cycle. -/
def engineStep (s : State) : Result :=
  match s.run with
  | .halted _ => .next s
  | .running =>
    match s.keyWait with
    | some x => keyWaitPass x s
    | none => s.cycle

/-- One step of an agent (10_state.md R39). -/
def agentStep (a : Config.AgentStep) (s : State) : Result :=
  match a with
  | .engine => engineStep s
  | .tickDelay => .next s.tickDelay
  | .tickSound => .next s.tickSound
  | .surface e => .next (surfaceStep e s)

/-- The agent whose step is due after the free steps of a round: the engine and the two timer processes in turn, so that each of
them moves again and again whatever the free values are (60_exceptions.md R184, R193; log 30). -/
def State.due (s : State) : Config.AgentStep :=
  match s.turn % 3 with
  | 0 => .engine
  | 1 => .tickDelay
  | _ => .tickSound

/-- A round: any steps of any agents, then the one that is due. Every weakly fair interleaving is a row of rounds, and every row
of rounds is weakly fair (log 11, log 30). -/
def State.round (s : State) : List Config.AgentStep := Config.freeSteps s.turn ++ [s.due]

/-- The steps that come next, oldest first: those `schedule` lists, or a new round where it lists none (R184; log 11). -/
def State.upcoming (s : State) : List Config.AgentStep :=
  match s.schedule with
  | [] => s.round
  | a :: rest => a :: rest

/-- Whose step comes next: the head of `upcoming`, which is never empty. -/
def State.mover (s : State) : Config.AgentStep := s.upcoming.headD s.due

/-- The state once that choice is made: the rest of `upcoming` is listed, and a new round is counted (log 11). -/
def State.afterChoice (s : State) : State :=
  match s.schedule with
  | [] => (s.setTurn (s.turn + 1)).setSchedule s.round.tail
  | _ :: rest => s.setSchedule rest

/-- The whole machine takes one step of the agent that moves next. -/
def machineStep (s : State) : Result := agentStep s.mover s.afterChoice

/-- The state in which the engine moves next and is ready to fetch at `PC`: RUNNING, outside a key wait, the surface running
(log 20). -/
def State.readyToFetch (s : State) : State :=
  (((s.setRun .running).setKeyWait none).setSurfaceRunning true).setSchedule (.engine :: s.schedule)

/-- A table word's two bytes stored at `PC`, high byte first, in a state ready to fetch them. -/
def State.placeWord (s : State) (nbits w : Nat) : State :=
  s.readyToFetch.setMem (Memory.storeBytes s.mem s.pc.toNat (splitWord (BitVec.ofNat Config.opcodeW (w % 2 ^ nbits))))

end Sys2Proof.Machine
end

