-- ==== Sys2Proof/Machine/Step.lean ====
section
/-! DEFINITION. The step of the machine (Machine/Engine.lean says what it is). -/

namespace Sys2Proof.Machine

/-- One step: of the agent that moves next (60_exceptions.md R184). -/
def step (s : State) : Host.Outcome State Fault Refusal := machineStep s

/-- `s` with the table word stored where the engine fetches next, and with the engine moving next and able to fetch (log 20). -/
def State.withFetchWord (s : State) (nbits w : Nat) : State := s.placeWord nbits w

end Sys2Proof.Machine
end

