-- ==== Sys2Proof/Machine/Loader.lean ====
section
/-! DEFINITION. The cartridge loader, part 2 of reset (70_reset_and_hazards.md R210, R212, R213): it acts before the first cycle. -/

namespace Sys2Proof.Machine

/-- The largest cartridge that fits: `MEM_SIZE - 0x200` bytes (20_memory.md R61). -/
def maxCartridge : Nat := memSize - progBase

/-- Load a cartridge verbatim at 0x200; `none` is one that cannot be read. A failed load is no state: the engine never starts,
and an oversized cartridge is not truncated (R212, R213; log 21). -/
def loadCartridge (cartridge : Option (List Byte)) (s : State) : Result :=
  match cartridge with
  | none => .fault (.loadFailed .unreadable)
  | some bytes =>
    if maxCartridge < bytes.length then .fault (.loadFailed .oversized)
    else .next (s.setMem (Memory.storeBytes s.mem progBase bytes))

/-- Reset with a cartridge: construction, then the load (R210; log 20). -/
def boot (cartridge : Option (List Byte)) : Result := loadCartridge cartridge State.reset

end Sys2Proof.Machine
end

