-- ==== Sys2Proof/Safety.lean ====
section
/-! DEFINITION. The terms claims are stated in: how a run ends, which states a machine can reach, the invariant, who owns what,
and the register table of 10_state.md R22. -/

namespace Sys2Proof.Machine

/-! ## The end of a run (70_reset_and_hazards.md R226) -/

/-- A run that ended in a fatal condition: what a claim of correct behaviour must exclude (60_exceptions.md R186). -/
def State.endedFatally (s : State) : Prop := ∃ c, s.run = .halted (.fatal c)

/-- A normal end: the surface closed, or `PC` ran past the end of memory (60_exceptions.md R182). -/
def State.endedNormally (s : State) : Prop := s.run = .halted .surfaceClosed ∨ s.run = .halted .pcPastEnd

/-- The states a machine can be in: a cartridge was loaded, then any number of steps were taken (R210). -/
inductive Reachable : State → Prop where
  | boot (cartridge : Option (List Byte)) (s : State) : boot cartridge = .next s → Reachable s
  | step (s t : State) : Reachable s → step s = .next t → Reachable t

/-! ## The invariant -/

/-- The opcode at `PC` as memory holds it now, high byte first (20_memory.md R52). -/
def State.opcodeAtPc (s : State) : Opcode :=
  joinBytes (Memory.read s.mem s.pc.toNat) (Memory.read s.mem (s.pc.toNat + 1))

/-- The largest value a jump can give `PC`: 0xFFF + 0xFF (40_flow_control.md R104). -/
def maxPc : Nat := 0x10FE

/-- What every step keeps: memory is canonical and lists only addresses that exist; the call stack holds at most 16 addresses
that exist (10_state.md R28, R23); no computation overflowed `PC` (10_state.md R23); and while the engine waits for a key, `PC`
still addresses the LD_Vx_K it waits in (10_state.md R35 (b), 42_display_input.md R146). -/
structure State.Inv (s : State) : Prop where
  memWf : Memory.wf s.mem
  memInRange : ∀ c ∈ s.mem, c.1 < memSize
  stackAtMost : s.sp ≤ stackDepth
  stackInRange : ∀ a ∈ s.stack, a.toNat < memSize
  pcAtMost : s.pc.toNat ≤ maxPc
  waiting : ∀ x, s.keyWait = some x → s.pc.toNat + 1 < memSize ∧ decodeWord s.opcodeAtPc = .ok (.ldVxK x)

/-! ## Who owns what (10_state.md R39) -/

/-- The state the engine alone reads and writes after reset is the same in both: `V`, `I`, `PC`, the call stack, `MEM`, `RUN`, and
whether it waits for a key (10_state.md R39, R35). -/
def SameEngineState (s t : State) : Prop :=
  t.v = s.v ∧ t.index = s.index ∧ t.pc = s.pc ∧ t.stack = s.stack ∧ t.mem = s.mem ∧ t.run = s.run ∧ t.keyWait = s.keyWait

/-- The surface's state is the same in both: buffer, pending frame, key states, running flag, poll answer (10_state.md R34). -/
def SameSurfaceState (s t : State) : Prop :=
  t.fb = s.fb ∧ t.pending = s.pending ∧ t.keys = s.keys ∧ t.surfaceRunning = s.surfaceRunning ∧ t.pollAnswer = s.pollAnswer

/-! ## Frames of one instruction (40_flow_control.md R100 (b)) -/

/-- `t` is `s` but for general registers, and `PC` advanced by 2: memory, `I`, the call stack, the timers, the surface and the
model's own fields are as before. -/
def OnlyRegsChanged (s t : State) : Prop := t.pc = s.pc + 2 ∧ (t.setV s.v).setPc s.pc = s

/-- `t` is `s` with `b` in register `x` and `PC` advanced by 2, and nothing else. -/
def WritesReg (s t : State) (x : Reg) (b : Byte) : Prop :=
  t.reg x = b ∧ (∀ z, z ≠ x → t.reg z = s.reg z) ∧ OnlyRegsChanged s t

/-- `t` is `s` with `flag` in `VF`, `result` in register `x` where that is not `VF`, and `PC` advanced by 2, and nothing else. -/
def WritesResultAndFlag (s t : State) (x : Reg) (result flag : Byte) : Prop :=
  t.reg vf = flag ∧ (x ≠ vf → t.reg x = result) ∧ (∀ z, z ≠ x → z ≠ vf → t.reg z = s.reg z) ∧ OnlyRegsChanged s t

/-- `t` is `s` but for the bytes of memory from address `a` on, which hold `bytes`, and `PC` advanced by 2: every other byte
reads as before, and nothing else changed. -/
def WritesBytes (s t : State) (a : Nat) (bytes : List Byte) : Prop :=
  (∀ (k : Nat) (h : k < bytes.length), Memory.read t.mem (a + k) = bytes[k]) ∧
  (∀ d, (d < a ∨ a + bytes.length ≤ d) → Memory.read t.mem d = Memory.read s.mem d) ∧
  t.pc = s.pc + 2 ∧ (t.setMem s.mem).setPc s.pc = s

/-- The engine is about to fetch: it moves next, is RUNNING, is in no key wait, and the surface runs. -/
def State.aboutToFetch (s : State) : Prop :=
  s.mover = .engine ∧ s.run = .running ∧ s.keyWait = none ∧ s.surfaceRunning = true

/-! ## Fairness (60_exceptions.md R184, R193; 20_memory.md R65; 70_reset_and_hazards.md R225) -/

/-- After finitely many steps from `s`, agent `a` is the one that moves next. -/
def State.movesAgain (s : State) (a : Config.AgentStep) : Prop := ∃ n t, Sys2Proof.core.run n s = .next t ∧ t.mover = a

/-- The two laws of R184 on the interleaving from `s` on: at every point of the run each timer process ticks again (weak fairness:
a tick is always enabled, so it happens infinitely often), and the engine, while RUNNING, takes its next step (log 30). -/
def State.weaklyFair (s : State) : Prop :=
  ∀ n t, Sys2Proof.core.run n s = .next t →
    t.movesAgain .tickDelay ∧ t.movesAgain .tickSound ∧ (t.run = .running → t.movesAgain .engine)

/-- The engine is about to fetch, both bytes exist, and they decode to `i`. -/
def State.aboutToRun (s : State) (i : Instr) : Prop :=
  s.aboutToFetch ∧ s.pc.toNat + 1 < memSize ∧ decodeWord s.opcodeAtPc = .ok i

/-! ## Comparing two runs -/

/-- The outcome with its next state, if there is one, seen through `f`. -/
def onNext (f : State → State) (r : Result) : Result :=
  match r with
  | .next s => .next (f s)
  | .fault e => .fault e
  | .refused e => .refused e

/-- A state without what the core never reads: `ST` (60_exceptions.md R195) and the pending frame (60_exceptions.md R199). -/
def State.hideUnread (s : State) : State := (s.setSt 0).setPending none

/-- A state without register `x`. -/
def State.hideReg (x : Reg) (s : State) : State := s.setReg x 0

/-- A state without the mark that the engine is inside a key wait. -/
def State.hideWait (s : State) : State := s.setKeyWait none

/-! ## Runs of meanings -/

/-- Meanings run one after another, each on the state the one before it left, stopping at a fault or refusal. -/
def execAll : List Instr → State → Result
  | [], s => .next s
  | i :: is, s =>
    match exec i s with
    | .next t => execAll is t
    | .fault e => .fault e
    | .refused e => .refused e

/-! ## The pixels a sprite covers (42_display_input.md R143) -/

/-- Some set bit of the sprite, drawn at (`px`, `py`), lands on this pixel. -/
def spriteCovers (px py : Byte) (sprite : List Byte) (row : Fin Config.displayH) (col : Fin Config.displayW) : Prop :=
  ∃ (r : Nat) (h : r < sprite.length) (b : Nat),
    b < 8 ∧ spriteBit sprite[r] b = true ∧ wrapRow (py.toNat + r) = row ∧ wrapCol (px.toNat + b) = col

end Sys2Proof.Machine

namespace Sys2Proof

/-! ## Which instructions read and write the general registers (10_state.md R22) -/

/-- The registers `V[0]` to `V[x]`. -/
def regsThrough (x : Reg) : List Reg := (List.finRange Config.nRegs).filter (fun k => k ≤ x)

/-- The column "Reads" of R22. -/
def Instr.reads : Instr → List Reg
  | .cls => []
  | .ret => []
  | .sys _ => []
  | .jp _ => []
  | .call _ => []
  | .seImm x _ => [x]
  | .sneImm x _ => [x]
  | .seReg x y => [x, y]
  | .ldImm _ _ => []
  | .addImm x _ => [x]
  | .ldReg _ y => [y]
  | .or x y => [x, y]
  | .and x y => [x, y]
  | .xor x y => [x, y]
  | .addReg x y => [x, y]
  | .sub x y => [x, y]
  | .shr x => [x]
  | .subn x y => [x, y]
  | .shl x => [x]
  | .sneReg x y => [x, y]
  | .ldI _ => []
  | .jpV0 _ => [0]
  | .rnd _ _ => []
  | .drw x y _ => [x, y]
  | .skp x => [x]
  | .sknp x => [x]
  | .ldVxDt _ => []
  | .ldVxK _ => []
  | .ldDtVx x => [x]
  | .ldStVx x => [x]
  | .addI x => [x]
  | .ldF x => [x]
  | .ldB x => [x]
  | .ldIVx x => regsThrough x
  | .ldVxI _ => []

/-- The column "Writes" of R22 (for SUBN the column as R126's `SUBN_DEST` names it, `V[y]`). -/
def Instr.writes : Instr → List Reg
  | .cls => []
  | .ret => []
  | .sys _ => []
  | .jp _ => []
  | .call _ => []
  | .seImm _ _ => []
  | .sneImm _ _ => []
  | .seReg _ _ => []
  | .ldImm x _ => [x]
  | .addImm x _ => [x, vf]
  | .ldReg x _ => [x]
  | .or x _ => [x]
  | .and x _ => [x]
  | .xor x _ => [x]
  | .addReg x _ => [x, vf]
  | .sub x _ => [x, vf]
  | .shr x => [x, vf]
  | .subn _ y => [y, vf]
  | .shl x => [x, vf]
  | .sneReg _ _ => []
  | .ldI _ => []
  | .jpV0 _ => []
  | .rnd x _ => [x]
  | .drw _ _ _ => [vf]
  | .skp _ => []
  | .sknp _ => []
  | .ldVxDt x => [x]
  | .ldVxK x => [x]
  | .ldDtVx _ => []
  | .ldStVx _ => []
  | .addI _ => []
  | .ldF _ => []
  | .ldB _ => []
  | .ldIVx _ => []
  | .ldVxI x => regsThrough x

end Sys2Proof
end

