-- ==== Sys2Proof/Certificates/Slice0/Obligations.lean ====
section
/-! DEFINITION. The statements for the provers. A statement of the form "exec ... = .next t, and t holds ..." says that the
instruction completes and what it leaves; `OnlyRegsChanged`, `WritesReg`, `WritesResultAndFlag` and `WritesBytes` (Safety.lean) carry
the frame: every field they do not name, every byte of memory among them, is as before. -/

open Sys2Proof Sys2Proof.Machine

/-! ## Encoding and decoding (30_encoding.md) -/

/-- R76, R88, R70: the decoder gives back every well-formed instruction from its word, and from its two bytes at the head of
any byte stream, with the rest of the stream. -/
def Obligations.DecodeOfEncodeIsTheInstruction : Prop :=
  ∀ i : Instr, i.wf = true →
    decodeWord (encode i) = .ok i ∧ ∀ rest : List Byte, decode (encodeBytes i ++ rest) = .ok (i, rest)

/-- R76, R77, R80, R81 (the table's patterns are decision D7 and the digits ignored decision D8, log 6): whatever decodes is
well-formed, and encoding it gives the word back but for the digits the decoder ignores, which come back as 0 (R88). -/
def Obligations.EncodeOfDecodeIsTheWordButForIgnoredDigits : Prop :=
  ∀ (op : Opcode) (i : Instr), decodeWord op = .ok i → i.wf = true ∧ encode i = op &&& ~~~ i.ignoredBits

/-- R85 (the numbers of families 8, E and F and their second keys are decisions D7 and D8, log 6): the words that decode to no
instruction are exactly those of families 8, E and F that it lists, each rejected by its own word. -/
def Obligations.IllegalWordsAreExactlyTheListed : Prop :=
  ∀ op : Opcode,
    (∀ e, decodeWord op = .error e → e = .illegal op) ∧
    ((∃ e, decodeWord op = .error e) ↔
      ((fieldF op = 0x8#4 ∧ fieldN op ∈ [0x8#4, 0x9#4, 0xA#4, 0xB#4, 0xC#4, 0xD#4, 0xF#4]) ∨
       (fieldF op = 0xE#4 ∧ fieldKK op ∉ [0x9E#8, 0xA1#8]) ∨
       (fieldF op = 0xF#4 ∧
         fieldKK op ∉ [0x07#8, 0x0A#8, 0x15#8, 0x18#8, 0x1E#8, 0x29#8, 0x33#8, 0x55#8, 0x65#8])))

/-- R76 (its masks and match values are decision D7, those of CLS and RET decision D8, log 6): an opcode selects row r when
op & mask_r = match_r. The decoder's dispatch agrees with that table: what it decodes is in a
row the word selects, and a word that selects a row decodes to it, but that rows 1 and 2 (CLS, RET) precede row 3 (SYS). -/
def Obligations.DecoderAgreesWithTheMaskAndMatchTable : Prop :=
  (∀ (op : Opcode) (i : Instr), decodeWord op = .ok i → op &&& i.rowMask = i.rowMatch) ∧
  (∀ (op : Opcode) (j : Instr), op &&& j.rowMask = j.rowMatch →
    ∃ i, decodeWord op = .ok i ∧
      ((i.rowMask = j.rowMask ∧ i.rowMatch = j.rowMatch) ∨ ((i = .cls ∨ i = .ret) ∧ ∃ nnn, j = .sys nnn)))

/-- R71: the two encodings the source gives, and the field positions they fix. -/
def Obligations.SourceEncodingsDecodeAsGiven : Prop :=
  decodeWord 0x1234#16 = .ok (.jp 0x234#12) ∧ decodeWord 0xD123#16 = .ok (.drw 1 2 0x3#4) ∧
  (∀ op : Opcode, op.extractLsb' 12 4 = 0x1#4 → decodeWord op = .ok (.jp (op.extractLsb' 0 12))) ∧
  (∀ op : Opcode, op.extractLsb' 12 4 = 0xD#4 →
    decodeWord op = .ok (.drw (op.extractLsb' 8 4).toFin (op.extractLsb' 4 4).toFin (op.extractLsb' 0 4)))

/-- R77 to R84 (the opcode numbers other than 1nnn and Dxyn, and the ignored digits of 0x0FE0, 0x0FEE and 0x8AB6, are decisions D7 and
D8, log 6): words of each of the sixteen families, written out from the table's patterns, with ignored digits set in some. -/
def Obligations.WordsOfEveryFamilyDecode : Prop :=
  decodeWord 0x0FE0#16 = .ok .cls ∧ decodeWord 0x0FEE#16 = .ok .ret ∧ decodeWord 0x0123#16 = .ok (.sys 0x123#12) ∧
  decodeWord 0x1234#16 = .ok (.jp 0x234#12) ∧ decodeWord 0x4A42#16 = .ok (.sneImm 10 0x42#8) ∧
  decodeWord 0x6A42#16 = .ok (.ldImm 10 0x42#8) ∧ decodeWord 0xB123#16 = .ok (.jpV0 0x123#12) ∧
  decodeWord 0xD123#16 = .ok (.drw 1 2 0x3#4) ∧
  decodeWord 0x2ABC#16 = .ok (.call 0xABC#12) ∧ decodeWord 0x3A42#16 = .ok (.seImm 10 0x42#8) ∧
  decodeWord 0x512F#16 = .ok (.seReg 1 2) ∧ decodeWord 0x7A42#16 = .ok (.addImm 10 0x42#8) ∧
  decodeWord 0x8AB6#16 = .ok (.shr 10) ∧ decodeWord 0x8127#16 = .ok (.subn 1 2) ∧
  decodeWord 0x9ABF#16 = .ok (.sneReg 10 11) ∧ decodeWord 0xA123#16 = .ok (.ldI 0x123#12) ∧
  decodeWord 0xC1F0#16 = .ok (.rnd 1 0xF0#8) ∧ decodeWord 0xE1A1#16 = .ok (.sknp 1) ∧
  decodeWord 0xFF65#16 = .ok (.ldVxI 15)

/-! ## The engine's cycle and the other agents (60_exceptions.md, 10_state.md) -/

/-- R181, R70: when the engine is about to fetch and the two bytes at `PC` exist and decode, the step is `exec` of that
instruction in the state left by the choice of the mover. That choice takes the head of `schedule`, or where it lists nothing
(R184; log 11) the head of a new round, of which the rest is then listed. -/
def Obligations.StepRunsTheDecodedInstruction : Prop :=
  (∀ (s : State) (i : Instr) (rest : List Byte), s.aboutToFetch → s.pc.toNat + 1 < memSize →
    decode [Memory.read s.mem s.pc.toNat, Memory.read s.mem (s.pc.toNat + 1)] = .ok (i, rest) →
    step s = exec i s.afterChoice) ∧
  (∀ (s : State) (a : Config.AgentStep) (l : List Config.AgentStep), s.schedule = a :: l →
    s.mover = a ∧ s.afterChoice = s.setSchedule l) ∧
  (∀ s : State, s.schedule = [] → ∃ l, s.round = s.mover :: l ∧ s.afterChoice = (s.setTurn (s.turn + 1)).setSchedule l)

/-- Log 20 (the model's own device, no rule): a table word placed by `withFetchWord` is what the next step fetches and runs. -/
def Obligations.PlacedWordIsFetchedAndRun : Prop :=
  ∀ (s : State) (w : Nat) (i : Instr), s.pc.toNat + 1 < memSize → decodeTableWord 16 w = some i →
    step (s.withFetchWord 16 w) = exec i ((s.withFetchWord 16 w).setSchedule s.schedule) ∧
    (∀ d, d ≠ s.pc.toNat → d ≠ s.pc.toNat + 1 → Memory.read (s.withFetchWord 16 w).mem d = Memory.read s.mem d)

/-- R182 (the placement and order of the checks are decision D12): a cycle first halts if the surface does not run, then if `PC` is
at or past the end of memory; nothing is fetched and nothing but `RUN` changes. -/
def Obligations.HaltChecksComeFirstSurfaceThenPc : Prop :=
  ∀ s : State, s.mover = .engine → s.run = .running → s.keyWait = none →
    (s.surfaceRunning = false → step s = .next (s.afterChoice.setRun (.halted .surfaceClosed))) ∧
    (s.surfaceRunning = true → memSize ≤ s.pc.toNat → step s = .next (s.afterChoice.setRun (.halted .pcPastEnd)))

/-- R56, R185, R189 (decisions D3, D13, D23): a fetch that needs the byte at `MEM_SIZE` raises MemoryBoundsFault(MEM_SIZE); a fetched
illegal word raises DecodeError of that word; nothing but `RUN` changes. -/
def Obligations.FetchAndDecodeRaiseTheirConditions : Prop :=
  ∀ s : State, s.aboutToFetch →
    (s.pc.toNat + 1 = memSize →
      step s = .next (s.afterChoice.setRun (.halted (.fatal (.memoryBoundsFault memSize))))) ∧
    (∀ e, s.pc.toNat + 1 < memSize → decodeWord s.opcodeAtPc = .error e →
      step s = .next (s.afterChoice.setRun (.halted (.fatal (.decodeError s.opcodeAtPc)))))

/-- Every state has a next state (that a fatal condition is a next state, and that the turn of a halted engine is a step that changes
nothing, is the model's reading, log 5): no step of this machine faults or is refused (70_reset_and_hazards.md R218, "none is undefined
behaviour"; 60_exceptions.md R186). -/
def Obligations.EveryStepHasANextState : Prop := ∀ s : State, ∃ t, step s = .next t

/-- R187, R180, R32: however many steps follow, a halted engine stays halted, with the same reason, and all that it owns stays as it
was. -/
def Obligations.HaltedEngineStaysHalted : Prop :=
  ∀ (n : Nat) (s : State) (r : HaltReason), s.run = .halted r →
    ∃ t, Sys2Proof.core.run n s = .next t ∧ SameEngineState s t ∧ t.run = .halted r

/-- R100 (c), R186, R147 (decision D13): an instruction that ends in a halt, fatal or by a closing surface, changes nothing but `RUN`. -/
def Obligations.HaltingInstructionChangesOnlyRun : Prop :=
  ∀ (i : Instr) (s t : State), exec i s = .next t → t.run ≠ s.run → t = s.setRun t.run

/-- R185, R189 (the payloads are decision D13, log 5; MemoryBoundsFault is decision D3, log 4; the polled code above 15 is
90_conflicts.md C3, log 13): an instruction executed while RUNNING ends in a fatal condition only with the condition, the
instruction and the operands of R185's table. -/
def Obligations.EveryFatalConditionHasItsListedCause : Prop :=
  ∀ (i : Instr) (s t : State) (c : Condition), s.run = .running → exec i s = .next t → t.run = .halted (.fatal c) →
    (c = .stackOverflow ∧ (∃ nnn, i = .call nnn) ∧ 16 ≤ s.sp) ∨
    (c = .stackUnderflow ∧ i = .ret ∧ s.sp = 0) ∨
    (∃ x, (i = .skp x ∨ i = .sknp x) ∧ c = .invalidKeyCode (s.reg x) ∧ 15 < (s.reg x).toNat) ∨
    (∃ x k, i = .ldVxK x ∧ s.pollAnswer = some k ∧ c = .invalidKeyCode k ∧ 15 < k.toNat) ∨
    (∃ x, i = .ldF x ∧ c = .invalidSpriteIndex (s.reg x) ∧ 15 < (s.reg x).toNat) ∨
    (∃ len, c = .memoryBoundsFault (max s.index.toNat memSize) ∧ memSize < s.index.toNat + len ∧
      ((∃ x y n, i = .drw x y n ∧ len = n.toNat ∧ 0 < len) ∨ (∃ x, i = .ldB x ∧ len = 3) ∨
       (∃ x, (i = .ldIVx x ∨ i = .ldVxI x) ∧ len = x.val + 1)))

/-- R39, R199 to R202 (that polling does not consume the answer, which a surface step sets, is log 13): a timer process and the
surface touch nothing the engine owns; a tick touches only its own timer; a surface step touches no timer, and does exactly this:
it sets one key's state, or sets what a poll answers, or lowers the running flag, or takes the pending frame away. -/
def Obligations.OtherAgentsLeaveTheEngineAlone : Prop :=
  ∀ s : State,
    (∃ t, agentStep .tickDelay s = .next t ∧ t.setDt s.dt = s) ∧
    (∃ t, agentStep .tickSound s = .next t ∧ t.setSt s.st = s) ∧
    (∀ e, ∃ t, agentStep (.surface e) s = .next t ∧ SameEngineState s t ∧ t.dt = s.dt ∧ t.st = s.st) ∧
    (∀ (code : Key) (down : Bool), ∃ t, agentStep (.surface (.setKey code down)) s = .next t ∧ t.keyDown code = down ∧
      (∀ other, other ≠ code → t.keyDown other = s.keyDown other) ∧ t.setKeys s.keys = s) ∧
    (∀ answer, ∃ t, agentStep (.surface (.setPoll answer)) s = .next t ∧ t.pollPressedKey = answer ∧
      t.setPollAnswer s.pollAnswer = s) ∧
    (∃ t, agentStep (.surface .close) s = .next t ∧ t.isRunning = false ∧ t.setSurfaceRunning s.surfaceRunning = s) ∧
    (∃ t, agentStep (.surface .consumeFrame) s = .next t ∧ t.pending = none ∧ t.setPending s.pending = s)

/-- R200 (decision D12): over any number of steps the running flag, once lowered, stays lowered, and no engine step lowers it. -/
def Obligations.RunningFlagOnceLoweredStaysLowered : Prop :=
  (∀ (n : Nat) (s t : State), s.surfaceRunning = false → Sys2Proof.core.run n s = .next t →
    t.surfaceRunning = false) ∧
  (∀ s t : State, engineStep s = .next t → t.surfaceRunning = s.surfaceRunning)

/-! ## The invariant -/

/-- R23, R28, R35 (b), R51: every step keeps the invariant: canonical memory inside the address space, a call stack of at most 16
existing addresses, a `PC` no computation overflowed, and a waiting engine whose `PC` addresses the LD_Vx_K it waits in. -/
def Obligations.EveryStepKeepsTheInvariant : Prop :=
  ∀ s t : State, s.Inv → step s = .next t → t.Inv

/-- The state after construction meets the invariant (R211). -/
def Obligations.ResetMeetsTheInvariant : Prop := State.reset.Inv

/-- R212, R213, R61 (decision D18): a cartridge that fits is copied verbatim to 0x200 and changes nothing else, and the machine then
meets the invariant; an oversized or unreadable one fails to load and no state follows. -/
def Obligations.LoadCopiesTheCartridgeOrFails : Prop :=
  (∀ bytes : List Byte, bytes.length ≤ memSize - 0x200 →
    ∃ t, boot (some bytes) = .next t ∧
      (∀ (k : Nat) (h : k < bytes.length), Memory.read t.mem (0x200 + k) = bytes[k]) ∧
      (∀ a, a < 0x200 ∨ 0x200 + bytes.length ≤ a → Memory.read t.mem a = Memory.read State.reset.mem a) ∧
      t.setMem State.reset.mem = State.reset ∧ t.Inv) ∧
  (∀ bytes : List Byte, memSize - 0x200 < bytes.length → boot (some bytes) = .fault (.loadFailed .oversized)) ∧
  boot none = .fault (.loadFailed .unreadable)

/-- R211 (its register values are decision D1, its entry point D4, its buffer D14): the state after construction. -/
def Obligations.ResetStateIsAsListed : Prop :=
  (∀ x : Reg, State.reset.reg x = 0) ∧ State.reset.index = 0 ∧ State.reset.pc.toNat = 0x200 ∧ State.reset.sp = 0 ∧
  State.reset.dt = 0 ∧ State.reset.st = 0 ∧ State.reset.run = .running ∧ State.reset.keyWait = none ∧
  (∀ a, a < 80 → Memory.read State.reset.mem a = glyphs.getD a 0) ∧
  (∀ a, 80 ≤ a → Memory.read State.reset.mem a = 0) ∧
  (∀ row col, Frame.pixel State.reset.fb row col = false) ∧ State.reset.pending = none

/-! ## Control transfer (40_flow_control.md) -/

/-- R101: SYS is a no-op: only `PC` changes, by 2. -/
def Obligations.SysIsANoOp : Prop := ∀ (nnn : Addr12) (s : State), exec (.sys nnn) s = .next (s.setPc (s.pc + 2))

/-- R103: JP puts its 12-bit address, zero-extended, into `PC` and changes nothing else; no advance is added. -/
def Obligations.JumpGoesToItsAddress : Prop :=
  ∀ (nnn : Addr12) (s : State), ∃ t, exec (.jp nnn) s = .next t ∧ t.pc.toNat = nnn.toNat ∧ t.setPc s.pc = s

/-- R104 (its target formula is decision D24, log 18): JP_V0 puts `nnn + V[0]` into `PC`, not reduced to 12 bits, and changes nothing
else. -/
def Obligations.JumpV0AddsRegisterZero : Prop :=
  ∀ (nnn : Addr12) (s : State),
    ∃ t, exec (.jpV0 nnn) s = .next t ∧ t.pc.toNat = nnn.toNat + (s.reg 0).toNat ∧ t.setPc s.pc = s

/-- R105: CALL pushes the address of the CALL itself and sets `PC`, no advance; with 16 entries on the stack it raises
StackError(Overflow) and changes nothing else. -/
def Obligations.CallPushesItsOwnAddress : Prop :=
  ∀ (nnn : Addr12) (s : State),
    (s.sp < 16 → ∃ t, exec (.call nnn) s = .next t ∧ t.sp = s.sp + 1 ∧ t.stackEntry s.sp = some s.pc ∧
      (∀ k, k < s.sp → t.stackEntry k = s.stackEntry k) ∧ t.pc.toNat = nnn.toNat ∧
      (t.setStack s.stack).setPc s.pc = s) ∧
    (s.sp = 16 → exec (.call nnn) s = .next (s.setRun (.halted (.fatal .stackOverflow))))

/-- R102: RET pops the newest entry and adds 2 to it; with an empty stack it raises StackError(Underflow) and changes nothing else. -/
def Obligations.ReturnPopsAndAdvances : Prop :=
  ∀ s : State,
    (0 < s.sp → ∃ t a, exec .ret s = .next t ∧ s.stackEntry (s.sp - 1) = some a ∧ t.pc = a + 2 ∧ t.sp = s.sp - 1 ∧
      (∀ k, k < s.sp - 1 → t.stackEntry k = s.stackEntry k) ∧ (t.setStack s.stack).setPc s.pc = s) ∧
    (s.sp = 0 → exec .ret s = .next (s.setRun (.halted (.fatal .stackUnderflow))))

/-- R28, R105 (the source's property S10): from an empty stack any 16 CALLs in a row succeed, the oldest entry being the address of
the first, and the 17th raises StackError(Overflow). -/
def Obligations.SixteenNestedCallsThenOverflow : Prop :=
  ∀ (targets : List Addr12) (s : State), targets.length = 16 → s.sp = 0 →
    ∃ t, execAll (targets.map Instr.call) s = .next t ∧ t.sp = 16 ∧ t.stackEntry 0 = some s.pc ∧
      ∀ nnn, exec (.call nnn) t = .next (t.setRun (.halted (.fatal .stackOverflow)))

/-- R102, R105, R220: whatever ran in between, a RET that finds the stack as a CALL left it resumes at the instruction after that CALL
and restores the stack. -/
def Obligations.ReturnResumesAfterTheCall : Prop :=
  ∀ (nnn : Addr12) (s t u : State), s.sp < 16 → exec (.call nnn) s = .next t → u.stack = t.stack →
    ∃ w, exec .ret u = .next w ∧ w.pc = s.pc + 2 ∧ w.stack = s.stack

/-- R107 to R110: SE skips if equal, SNE if different, for a register and for an immediate: `PC` gains 4 when the skip is taken, else 2,
and nothing else changes. -/
def Obligations.CompareAndSkipAddsFourOrTwo : Prop :=
  ∀ (s : State) (x y : Reg) (kk : Byte),
    exec (.seImm x kk) s = .next (s.setPc (s.pc + if s.reg x = kk then 4 else 2)) ∧
    exec (.seReg x y) s = .next (s.setPc (s.pc + if s.reg x = s.reg y then 4 else 2)) ∧
    exec (.sneImm x kk) s = .next (s.setPc (s.pc + if s.reg x ≠ kk then 4 else 2)) ∧
    exec (.sneReg x y) s = .next (s.setPc (s.pc + if s.reg x ≠ s.reg y then 4 else 2))

/-! ## Arithmetic and logic (41_arithmetic_logic.md) -/

/-- R122, R123; for `x = VF` R121 (decision D5, log 8): ADD, with a register or an immediate, writes the sum modulo 256 and then the
carry into `VF`. -/
def Obligations.AddWritesSumThenCarry : Prop :=
  ∀ (s : State) (x y : Reg) (kk : Byte),
    (∃ t, exec (.addImm x kk) s = .next t ∧
      WritesResultAndFlag s t x (BitVec.ofNat 8 (((s.reg x).toNat + kk.toNat) % 256))
        (if (s.reg x).toNat + kk.toNat > 255 then 1 else 0)) ∧
    (∃ t, exec (.addReg x y) s = .next t ∧
      WritesResultAndFlag s t x (BitVec.ofNat 8 (((s.reg x).toNat + (s.reg y).toNat) % 256))
        (if (s.reg x).toNat + (s.reg y).toNat > 255 then 1 else 0))

/-- R125; for `x = VF` R121 (decision D5, log 8): SUB writes `V[x] - V[y]` modulo 256 and then 1 into `VF` if `V[x] >= V[y]`, else 0. -/
def Obligations.SubWritesDifferenceThenNoBorrow : Prop :=
  ∀ (s : State) (x y : Reg), ∃ t, exec (.sub x y) s = .next t ∧
    WritesResultAndFlag s t x (BitVec.ofNat 8 ((256 + (s.reg x).toNat - (s.reg y).toNat) % 256))
      (if (s.reg x).toNat ≥ (s.reg y).toNat then 1 else 0)

/-- R126 (the destination `V[y]` is decision D6, log 7); for `y = VF` R121 (decision D5, log 8): SUBN x, y is SUB y, x: it writes `V[y] - V[x]` into `V[y]`, then the flag. -/
def Obligations.SubnIsSubWithOperandsSwapped : Prop :=
  ∀ (s : State) (x y : Reg), exec (.subn x y) s = exec (.sub y x) s ∧
    ∃ t, exec (.subn x y) s = .next t ∧
      WritesResultAndFlag s t y (BitVec.ofNat 8 ((256 + (s.reg y).toNat - (s.reg x).toNat) % 256))
        (if (s.reg y).toNat ≥ (s.reg x).toNat then 1 else 0)

/-- R126 (decision D6, log 7); where the destination is `VF` R121 (decision D5, log 8): the two readings of SUBN agree on the flag and on the value computed and differ only in which register receives it. -/
def Obligations.SubnReadingsDifferOnlyInDestination : Prop :=
  ∀ (s : State) (x y : Reg) (d : SubnDest), ∃ t, subnWith d x y s = .next t ∧
    WritesResultAndFlag s t (match d with | .destY => y | .destX => x)
      (BitVec.ofNat 8 ((256 + (s.reg y).toNat - (s.reg x).toNat) % 256))
      (if (s.reg y).toNat ≥ (s.reg x).toNat then 1 else 0)

/-- R127, R128, R129: OR, AND, XOR write the bitwise result into `V[x]` with no flag effect. -/
def Obligations.LogicWritesBitwiseResultWithoutFlag : Prop :=
  ∀ (s : State) (x y : Reg),
    (∃ t, exec (.or x y) s = .next t ∧ WritesReg s t x (s.reg x ||| s.reg y)) ∧
    (∃ t, exec (.and x y) s = .next t ∧ WritesReg s t x (s.reg x &&& s.reg y)) ∧
    (∃ t, exec (.xor x y) s = .next t ∧ WritesReg s t x (s.reg x ^^^ s.reg y))

/-- R130, R131; for `x = VF` R121 (decision D5, log 8): SHR halves `V[x]` and leaves its old bit 0 in `VF`; SHL doubles it modulo 256 and
leaves its old bit 7. -/
def Obligations.ShiftsMoveOneBitIntoTheFlag : Prop :=
  ∀ (s : State) (x : Reg),
    (∃ t, exec (.shr x) s = .next t ∧
      WritesResultAndFlag s t x (BitVec.ofNat 8 ((s.reg x).toNat / 2)) (BitVec.ofNat 8 ((s.reg x).toNat % 2))) ∧
    (∃ t, exec (.shl x) s = .next t ∧
      WritesResultAndFlag s t x (BitVec.ofNat 8 ((s.reg x).toNat * 2 % 256))
        (BitVec.ofNat 8 ((s.reg x).toNat / 128)))

/-- R124 (the wrap is decision D10, log 9): ADD_I adds `V[x]` to `I` modulo 65536, with no flag effect and no fault. -/
def Obligations.AddIndexWrapsAtSixteenBits : Prop :=
  ∀ (s : State) (x : Reg), ∃ t, exec (.addI x) s = .next t ∧
    t.index.toNat = (s.index.toNat + (s.reg x).toNat) % 65536 ∧ t.pc = s.pc + 2 ∧
    (t.setIndex s.index).setPc s.pc = s

/-- R132 (the draw is decision D16, log 10): RND writes the drawn byte AND `kk`, whatever byte the draw gives; the next RND draws anew. -/
def Obligations.RandomByteIsMaskedByTheImmediate : Prop :=
  ∀ (s : State) (x : Reg) (kk : Byte), ∃ t, exec (.rnd x kk) s = .next t ∧
    t.reg x = Config.freeRandomByte s.draws &&& kk ∧ t.reg x &&& ~~~ kk = 0 ∧ (∀ z, z ≠ x → t.reg z = s.reg z) ∧
    t.draws = s.draws + 1 ∧ t.pc = s.pc + 2 ∧ ((t.setV s.v).setDraws s.draws).setPc s.pc = s

/-! ## Display and keypad (42_display_input.md) -/

/-- R140, R141: CLS unsets every pixel and publishes that frame; nothing else changes, `VF` included. -/
def Obligations.ClearScreenUnsetsEveryPixelAndPublishes : Prop :=
  ∀ s : State, ∃ t, exec .cls s = .next t ∧ (∀ row col, Frame.pixel t.fb row col = false) ∧ t.pending = some t.fb ∧
    t.pc = s.pc + 2 ∧ ((t.setFb s.fb).setPending s.pending).setPc s.pc = s

/-- R142, R143 (decisions D14, D26): DRW, when its sprite bytes exist, toggles exactly the pixels its set bits cover, leaves 1 in `VF` if
some covered pixel was set, else 0, publishes the frame, and changes nothing else. The sprite is the `n` bytes from `MEM[I]`. -/
def Obligations.DrawTogglesCoveredPixelsAndReportsCollision : Prop :=
  ∀ (s : State) (x y : Reg) (n : Nibble), n.toNat = 0 ∨ s.index.toNat + n.toNat ≤ memSize →
    ∃ t sprite, exec (.drw x y n) s = .next t ∧
      sprite = (List.range n.toNat).map (fun k => Memory.read s.mem (s.index.toNat + k)) ∧
      (∀ row col, spriteCovers (s.reg x) (s.reg y) sprite row col →
        Frame.pixel t.fb row col = !Frame.pixel s.fb row col) ∧
      (∀ row col, ¬ spriteCovers (s.reg x) (s.reg y) sprite row col →
        Frame.pixel t.fb row col = Frame.pixel s.fb row col) ∧
      ((∃ row col, spriteCovers (s.reg x) (s.reg y) sprite row col ∧ Frame.pixel s.fb row col = true) →
        t.reg vf = 1) ∧
      ((¬ ∃ row col, spriteCovers (s.reg x) (s.reg y) sprite row col ∧ Frame.pixel s.fb row col = true) →
        t.reg vf = 0) ∧
      (∀ z, z ≠ vf → t.reg z = s.reg z) ∧ t.pending = some t.fb ∧ t.pc = s.pc + 2 ∧
      (((t.setV s.v).setFb s.fb).setPending s.pending).setPc s.pc = s

/-- R142, R143 (the source's property S7; for `n = 0`, which reads no memory, decision D26, log 19): a second DRW of the same sprite bytes at the same coordinates, on the buffer the first one
left, completes, restores the buffer, and leaves 1 in `VF` if the first draw turned some pixel on, else 0. -/
def Obligations.DrawingTwiceRestoresTheBuffer : Prop :=
  ∀ (s t u : State) (x y x' y' : Reg) (n : Nibble),
    n.toNat = 0 ∨ s.index.toNat + n.toNat ≤ memSize → n.toNat = 0 ∨ u.index.toNat + n.toNat ≤ memSize →
    exec (.drw x y n) s = .next t → u.fb = t.fb → u.reg x' = s.reg x → u.reg y' = s.reg y →
    (∀ k, k < n.toNat → Memory.read u.mem (u.index.toNat + k) = Memory.read s.mem (s.index.toNat + k)) →
    ∃ w, exec (.drw x' y' n) u = .next w ∧ w.fb = s.fb ∧
      ((∃ row col, Frame.pixel s.fb row col = false ∧ Frame.pixel t.fb row col = true) → w.reg vf = 1) ∧
      ((¬ ∃ row col, Frame.pixel s.fb row col = false ∧ Frame.pixel t.fb row col = true) → w.reg vf = 0)

/-- R144, R145: SKP skips if the key whose code is `V[x]` is down, SKNP if it is not; a value above 15 raises InvalidKeyCode of the whole
value and changes nothing else. -/
def Obligations.KeySkipsTestTheKeyOfTheRegister : Prop :=
  ∀ (s : State) (x : Reg),
    (∀ h : (s.reg x).toNat < 16,
      exec (.skp x) s = .next (s.setPc (s.pc + if s.keys[(s.reg x).toNat] then 4 else 2)) ∧
      exec (.sknp x) s = .next (s.setPc (s.pc + if s.keys[(s.reg x).toNat] then 2 else 4))) ∧
    (15 < (s.reg x).toNat →
      exec (.skp x) s = .next (s.setRun (.halted (.fatal (.invalidKeyCode (s.reg x))))) ∧
      exec (.sknp x) s = .next (s.setRun (.halted (.fatal (.invalidKeyCode (s.reg x))))))

/-- R146, R147 (order of the two tests: decision D15; the code above 15: 90_conflicts.md C3): LD_Vx_K with a polled code stores it and
advances; with no code it waits, changing only the mark of the wait; with the surface stopped the engine halts; a code above 15 raises
InvalidKeyCode. -/
def Obligations.KeyWaitStoresTheKeyOrWaitsOrHalts : Prop :=
  ∀ (s : State) (x : Reg),
    (∀ k, s.surfaceRunning = true → s.pollAnswer = some k → k.toNat ≤ 15 →
      ∃ t, exec (.ldVxK x) s = .next t ∧ t.reg x = k ∧ (∀ z, z ≠ x → t.reg z = s.reg z) ∧ t.keyWait = none ∧
        t.pc = s.pc + 2 ∧ ((t.setV s.v).setKeyWait s.keyWait).setPc s.pc = s) ∧
    (s.surfaceRunning = true → s.pollAnswer = none → exec (.ldVxK x) s = .next (s.setKeyWait (some x))) ∧
    (s.surfaceRunning = false → exec (.ldVxK x) s = .next (s.setRun (.halted .surfaceClosed))) ∧
    (∀ k, s.surfaceRunning = true → s.pollAnswer = some k → 15 < k.toNat →
      exec (.ldVxK x) s = .next (s.setRun (.halted (.fatal (.invalidKeyCode k)))))

/-- R146, R205, R181: an engine step inside the wait is one more pass, with no halt check and no fetch. -/
def Obligations.WaitingEngineMakesOnePassAStep : Prop :=
  ∀ (s : State) (x : Reg), s.mover = .engine → s.run = .running → s.keyWait = some x →
    step s = exec (.ldVxK x) s.afterChoice

/-- R35 (b), R36, R146: under the invariant, and while the surface runs, waiting is indistinguishable from fetching the LD_Vx_K afresh at
every pass: the steps with and without the mark of the wait agree but for that mark. -/
def Obligations.WaitingIsRefetchingTheSameInstruction : Prop :=
  ∀ (s : State) (x : Reg), s.Inv → s.mover = .engine → s.run = .running → s.keyWait = some x → s.surfaceRunning = true →
    onNext State.hideWait (step s) = onNext State.hideWait (step (s.setKeyWait none))

/-! ## Loads and stores (43_load_store.md) -/

/-- R160, R161, R162: LD copies an immediate or a register into `V[x]`; LD_I copies its zero-extended address into `I`. -/
def Obligations.LoadsCopyImmediateRegisterAndIndex : Prop :=
  ∀ (s : State) (x y : Reg) (kk : Byte) (nnn : Addr12),
    (∃ t, exec (.ldImm x kk) s = .next t ∧ WritesReg s t x kk) ∧
    (∃ t, exec (.ldReg x y) s = .next t ∧ WritesReg s t x (s.reg y)) ∧
    (∃ t, exec (.ldI nnn) s = .next t ∧ t.index.toNat = nnn.toNat ∧ t.pc = s.pc + 2 ∧
      (t.setIndex s.index).setPc s.pc = s)

/-- R163, R164, R165: the three timer copies. -/
def Obligations.TimerCopiesMoveOneByte : Prop :=
  ∀ (s : State) (x : Reg),
    (∃ t, exec (.ldVxDt x) s = .next t ∧ WritesReg s t x s.dt) ∧
    (∃ t, exec (.ldDtVx x) s = .next t ∧ t.dt = s.reg x ∧ t.pc = s.pc + 2 ∧ (t.setDt s.dt).setPc s.pc = s) ∧
    (∃ t, exec (.ldStVx x) s = .next t ∧ t.st = s.reg x ∧ t.pc = s.pc + 2 ∧ (t.setSt s.st).setPc s.pc = s)

/-- R166: LD_F puts `5 * V[x]` into `I`; a value above 15 raises InvalidSpriteIndex of the whole value and changes nothing else. -/
def Obligations.GlyphLoadPointsIndexAtTheDigit : Prop :=
  ∀ (s : State) (x : Reg),
    ((s.reg x).toNat ≤ 15 → ∃ t, exec (.ldF x) s = .next t ∧ t.index.toNat = 5 * (s.reg x).toNat ∧ t.pc = s.pc + 2 ∧
      (t.setIndex s.index).setPc s.pc = s) ∧
    (15 < (s.reg x).toNat →
      exec (.ldF x) s = .next (s.setRun (.halted (.fatal (.invalidSpriteIndex (s.reg x))))))

/-- R167 (`I` unchanged: R170, decision D10): LD_B, when `MEM[I]` to `MEM[I + 2]` exist, stores hundreds, tens and ones there; every other
byte of memory and everything else is as before. -/
def Obligations.DecimalDigitsAreStoredFromIndex : Prop :=
  ∀ (s : State) (x : Reg), s.index.toNat + 2 < memSize →
    ∃ t, exec (.ldB x) s = .next t ∧
      WritesBytes s t s.index.toNat [BitVec.ofNat 8 ((s.reg x).toNat / 100),
        BitVec.ofNat 8 ((s.reg x).toNat / 10 % 10), BitVec.ofNat 8 ((s.reg x).toNat % 10)]

/-- R168 (`I` unchanged: R170, decision D10): LD_I_Vx, when `MEM[I]` to `MEM[I + x]` exist, stores `V[0]` to `V[x]` there in ascending
order; every other byte of memory and everything else is as before. -/
def Obligations.RegisterDumpStoresFromIndex : Prop :=
  ∀ (s : State) (x : Reg), s.index.toNat + x.val < memSize →
    ∃ t bytes, exec (.ldIVx x) s = .next t ∧ bytes.length = x.val + 1 ∧
      (∀ k : Reg, k ≤ x → bytes.getD k.val 0 = s.reg k) ∧ WritesBytes s t s.index.toNat bytes

/-- R169 (`I` unchanged: R170, decision D10): LD_Vx_I, when `MEM[I]` to `MEM[I + x]` exist, loads them into `V[0]` to `V[x]`; the other
registers and everything else are as before. -/
def Obligations.RegisterFillLoadsFromIndex : Prop :=
  ∀ (s : State) (x : Reg), s.index.toNat + x.val < memSize →
    ∃ t, exec (.ldVxI x) s = .next t ∧
      (∀ k : Reg, k ≤ x → t.reg k = Memory.read s.mem (s.index.toNat + k.val)) ∧
      (∀ k : Reg, x < k → t.reg k = s.reg k) ∧ OnlyRegsChanged s t

/-- R169: a fill after a dump with the same `x` and `I` restores the registers dumped, whatever happened to the registers in
between. -/
def Obligations.FillAfterDumpRestoresTheRegisters : Prop :=
  ∀ (s t u : State) (x : Reg), s.index.toNat + x.val < memSize → exec (.ldIVx x) s = .next t →
    u.mem = t.mem → u.index = s.index →
    ∃ w, exec (.ldVxI x) u = .next w ∧ (∀ k : Reg, k ≤ x → w.reg k = s.reg k) ∧
      (∀ k : Reg, x < k → w.reg k = u.reg k)

/-- R56 (decisions D3, D13): DRW, LD_B, LD_I_Vx and LD_Vx_I raise MemoryBoundsFault of the lowest missing address when one of their bytes
lies at or above `MEM_SIZE`, and then move no byte and write nothing but `RUN`. -/
def Obligations.OutOfRangeAccessMovesNothing : Prop :=
  ∀ (s : State) (x y : Reg) (n : Nibble),
    (0 < n.toNat → memSize < s.index.toNat + n.toNat →
      exec (.drw x y n) s = .next (s.setRun (.halted (.fatal (.memoryBoundsFault (max s.index.toNat memSize)))))) ∧
    (memSize ≤ s.index.toNat + 2 →
      exec (.ldB x) s = .next (s.setRun (.halted (.fatal (.memoryBoundsFault (max s.index.toNat memSize)))))) ∧
    (memSize ≤ s.index.toNat + x.val →
      exec (.ldIVx x) s = .next (s.setRun (.halted (.fatal (.memoryBoundsFault (max s.index.toNat memSize))))) ∧
      exec (.ldVxI x) s = .next (s.setRun (.halted (.fatal (.memoryBoundsFault (max s.index.toNat memSize))))))

/-- R66: an opcode stored by LD_I_Vx is what the very next fetch at its address reads and runs. -/
def Obligations.StoredOpcodeIsFetchedAndRun : Prop :=
  ∀ (s t u : State) (x k : Reg) (h : k.val + 1 ≤ x.val) (i : Instr), s.index.toNat + x.val < memSize →
    decodeWord (joinBytes (s.reg k) (s.reg ⟨k.val + 1, by omega⟩)) = .ok i →
    exec (.ldIVx x) s = .next t → u.mem = t.mem → u.pc.toNat = s.index.toNat + k.val → u.aboutToFetch →
    step u = exec i u.afterChoice

/-! ## Timers (60_exceptions.md R191 to R195) -/

/-- R192: a tick takes one off its timer if it is not 0 and leaves 0 as it is; nothing else changes. -/
def Obligations.TickDecrementsDownToZero : Prop :=
  ∀ s : State,
    (∃ t, agentStep .tickDelay s = .next t ∧ t.dt.toNat = s.dt.toNat - 1 ∧ t.setDt s.dt = s) ∧
    (∃ t, agentStep .tickSound s = .next t ∧ t.st.toNat = s.st.toNat - 1 ∧ t.setSt s.st = s)

/-- R194, R191 (the source's property S6): over any schedule of ticks, in whatever order, each timer ends at its value less its own ticks,
but not below 0, and nothing else but the schedule changes. -/
def Obligations.TicksRunEachTimerDownOnItsOwn : Prop :=
  ∀ (ticks rest : List Config.AgentStep) (s : State), (∀ a ∈ ticks, a = .tickDelay ∨ a = .tickSound) →
    s.schedule = ticks ++ rest →
    ∃ t, Sys2Proof.core.run ticks.length s = .next t ∧ t.dt.toNat = s.dt.toNat - ticks.count .tickDelay ∧
      t.st.toNat = s.st.toNat - ticks.count .tickSound ∧ ((t.setDt s.dt).setSt s.st).setSchedule s.schedule = s

/-- R30: a step makes a timer larger only if it is an engine step that runs LD_DT_Vx (for `DT`) or LD_ST_Vx (for `ST`), which then
stores the register's value. -/
def Obligations.OnlyAStoreRaisesATimer : Prop :=
  ∀ s t : State, step s = .next t →
    (t.dt.toNat ≤ s.dt.toNat ∨
      (s.aboutToFetch ∧ ∃ x, decodeWord s.opcodeAtPc = .ok (.ldDtVx x) ∧ t.dt = s.reg x)) ∧
    (t.st.toNat ≤ s.st.toNat ∨
      (s.aboutToFetch ∧ ∃ x, decodeWord s.opcodeAtPc = .ok (.ldStVx x) ∧ t.st = s.reg x))

/-! ## Rules over all instructions -/

/-- R22, column "Writes" (that SUBN writes `V[y]` and not `V[x]` is decision D6, log 7), and R21: no instruction changes a register outside its row; in particular `VF` changes only under the
flag-writing instructions and those that name it. -/
def Obligations.RegistersOutsideTheWritesColumnAreUnchanged : Prop :=
  ∀ (i : Instr) (s t : State), exec i s = .next t → ∀ z, z ∉ i.writes → t.reg z = s.reg z

/-- R22, column "Reads": a register outside an instruction's row has no influence on anything but itself. -/
def Obligations.RegistersOutsideTheReadsColumnDoNotMatter : Prop :=
  ∀ (i : Instr) (s : State) (z : Reg) (b : Byte), z ∉ i.reads →
    onNext (State.hideReg z) (exec i (s.setReg z b)) = onNext (State.hideReg z) (exec i s)

/-- R100 (b), R27, R55, R31 (decision D25): the only instructions that change `I`, memory, the call stack, `DT`, `ST`, the pixel buffer, the
pending frame, the mark of the wait, or the count of draws; none changes the keys, the running flag, the poll answer or the schedule. -/
def Obligations.OnlyTheListedInstructionsChangeEachField : Prop :=
  ∀ (i : Instr) (s t : State), exec i s = .next t →
    (t.index ≠ s.index → (∃ nnn, i = .ldI nnn) ∨ (∃ x, i = .addI x ∨ i = .ldF x)) ∧
    (t.mem ≠ s.mem → ∃ x, i = .ldB x ∨ i = .ldIVx x) ∧
    (t.stack ≠ s.stack → i = .ret ∨ ∃ nnn, i = .call nnn) ∧
    (t.dt ≠ s.dt → ∃ x, i = .ldDtVx x) ∧
    (t.st ≠ s.st → ∃ x, i = .ldStVx x) ∧
    (t.fb ≠ s.fb ∨ t.pending ≠ s.pending → i = .cls ∨ ∃ x y n, i = .drw x y n) ∧
    (t.keyWait ≠ s.keyWait → ∃ x, i = .ldVxK x) ∧
    (t.draws ≠ s.draws → ∃ x kk, i = .rnd x kk) ∧
    t.keys = s.keys ∧ t.surfaceRunning = s.surfaceRunning ∧ t.pollAnswer = s.pollAnswer ∧
    t.schedule = s.schedule ∧ t.turn = s.turn

/-- R195, R199: nothing ever reads `ST` or the pending frame: two states that differ in these alone step alike but for these, whoever
moves. -/
def Obligations.SoundTimerAndPendingFrameAreNeverRead : Prop :=
  ∀ s s' : State, s.hideUnread = s'.hideUnread →
    onNext State.hideUnread (step s) = onNext State.hideUnread (step s')

/-! ## Fairness -/

/-- R184, R193, R225, R65 (that the weak fairness is built into the rounds of the free steps is log 30): from every state on, each timer
process ticks again and again, and the engine, while RUNNING, steps again; so each timer reaches 0 unless the engine comes to
store into it. -/
def Obligations.EveryAgentMovesAgainAndTimersRunOut : Prop :=
  ∀ s : State, s.weaklyFair ∧
    (∃ n t, Sys2Proof.core.run n s = .next t ∧ (t.dt = 0 ∨ ∃ x, t.aboutToRun (.ldDtVx x))) ∧
    (∃ n t, Sys2Proof.core.run n s = .next t ∧ (t.st = 0 ∨ ∃ x, t.aboutToRun (.ldStVx x)))
end

