-- ==== Sys2Proof/Laws/Sizes.lean ====
section
/-! SUPPORT. The bounds that the sizes of 00_scope.md R6 give, as numbers that arithmetic can use. -/

namespace Sys2Proof

@[simp] theorem two_pow_opcodeW : 2 ^ Config.opcodeW = 65536 := rfl
@[simp] theorem two_pow_pcW : 2 ^ Config.pcW = 65536 := rfl
@[simp] theorem two_pow_iW : 2 ^ Config.iW = 65536 := rfl
@[simp] theorem two_pow_regW : 2 ^ Config.regW = 256 := rfl
@[simp] theorem two_pow_timerW : 2 ^ Config.timerW = 256 := rfl

theorem reg_lt (x : Reg) : x.val < 16 := x.isLt
theorem key_lt (k : Key) : k.val < 16 := k.isLt
theorem opcode_lt (op : Opcode) : op.toNat < 65536 := op.isLt
theorem pcWord_lt (a : PcWord) : a.toNat < 65536 := a.isLt
theorem indexWord_lt (a : IndexWord) : a.toNat < 65536 := a.isLt
theorem regByte_lt (b : RegByte) : b.toNat < 256 := b.isLt
theorem timerByte_lt (t : TimerByte) : t.toNat < 256 := t.isLt

end Sys2Proof
end

