-- ==== Sys2Proof/Laws/Decode.lean ====
section
/-! SUPPORT. The fields of an assembled word, the masks of the opcode table, and the byte order of a fetch. -/

namespace Sys2Proof

/-! ## Fields as numbers (30_encoding.md R72) -/

theorem fieldF_toNat (op : Opcode) : (fieldF op).toNat = op.toNat / 4096 := by
  have := opcode_lt op
  simp only [fieldF, BitVec.extractLsb'_toNat, Nat.shiftRight_eq_div_pow]; omega

theorem fieldX_val (op : Opcode) : (fieldX op).val = op.toNat / 256 % 16 := by
  simp [fieldX, BitVec.extractLsb', Nat.shiftRight_eq_div_pow]

theorem fieldY_val (op : Opcode) : (fieldY op).val = op.toNat / 16 % 16 := by
  simp [fieldY, BitVec.extractLsb', Nat.shiftRight_eq_div_pow]

theorem fieldN_toNat (op : Opcode) : (fieldN op).toNat = op.toNat % 16 := by
  simp [fieldN, BitVec.extractLsb'_toNat]

theorem fieldKK_toNat (op : Opcode) : (fieldKK op).toNat = op.toNat % 256 := by
  simp [fieldKK, BitVec.extractLsb'_toNat]

theorem fieldNNN_toNat (op : Opcode) : (fieldNNN op).toNat = op.toNat % 4096 := by
  simp [fieldNNN, BitVec.extractLsb'_toNat]

theorem wordNNN_toNat {f : Nat} (hf : f < 16) (nnn : Addr12) :
    (wordNNN f nnn).toNat = f * 4096 + nnn.toNat := by
  have := nnn.isLt
  simp only [wordNNN, BitVec.toNat_ofNat, two_pow_opcodeW]; omega

theorem wordXKK_toNat {f : Nat} (hf : f < 16) (x : Reg) (kk : Byte) :
    (wordXKK f x kk).toNat = f * 4096 + x.val * 256 + kk.toNat := by
  have := reg_lt x; have := kk.isLt
  simp only [wordXKK, BitVec.toNat_ofNat, two_pow_opcodeW]; omega

theorem wordXYN_toNat {f : Nat} (hf : f < 16) (x y : Reg) (n : Nibble) :
    (wordXYN f x y n).toNat = f * 4096 + x.val * 256 + y.val * 16 + n.toNat := by
  have := reg_lt x; have := reg_lt y; have := n.isLt
  simp only [wordXYN, BitVec.toNat_ofNat, two_pow_opcodeW]; omega

/-! ## Fields of assembled words (30_encoding.md R73) -/

theorem fieldF_wordNNN {f : Nat} (hf : f < 16) (nnn : Addr12) : fieldF (wordNNN f nnn) = BitVec.ofNat 4 f := by
  apply BitVec.eq_of_toNat_eq
  have := nnn.isLt
  rw [fieldF_toNat, wordNNN_toNat hf, BitVec.toNat_ofNat]; omega

theorem fieldNNN_wordNNN {f : Nat} (hf : f < 16) (nnn : Addr12) : fieldNNN (wordNNN f nnn) = nnn := by
  apply BitVec.eq_of_toNat_eq
  have := nnn.isLt
  rw [fieldNNN_toNat, wordNNN_toNat hf]; omega

theorem sysLowByte_toNat (nnn : Addr12) : (sysLowByte nnn).toNat = nnn.toNat % 256 := by
  simp [sysLowByte, BitVec.extractLsb'_toNat]

theorem fieldKK_wordNNN {f : Nat} (hf : f < 16) (nnn : Addr12) : fieldKK (wordNNN f nnn) = sysLowByte nnn := by
  apply BitVec.eq_of_toNat_eq
  rw [fieldKK_toNat, wordNNN_toNat hf, sysLowByte_toNat]; omega

theorem fieldF_wordXKK {f : Nat} (hf : f < 16) (x : Reg) (kk : Byte) :
    fieldF (wordXKK f x kk) = BitVec.ofNat 4 f := by
  apply BitVec.eq_of_toNat_eq
  have := reg_lt x; have := kk.isLt
  rw [fieldF_toNat, wordXKK_toNat hf, BitVec.toNat_ofNat]; omega

theorem fieldX_wordXKK {f : Nat} (hf : f < 16) (x : Reg) (kk : Byte) : fieldX (wordXKK f x kk) = x := by
  apply Fin.ext
  have := reg_lt x; have := kk.isLt
  rw [fieldX_val, wordXKK_toNat hf]; omega

theorem fieldKK_wordXKK {f : Nat} (hf : f < 16) (x : Reg) (kk : Byte) : fieldKK (wordXKK f x kk) = kk := by
  apply BitVec.eq_of_toNat_eq
  have := kk.isLt
  rw [fieldKK_toNat, wordXKK_toNat hf]; omega

theorem fieldF_wordXYN {f : Nat} (hf : f < 16) (x y : Reg) (n : Nibble) :
    fieldF (wordXYN f x y n) = BitVec.ofNat 4 f := by
  apply BitVec.eq_of_toNat_eq
  have := reg_lt x; have := reg_lt y; have := n.isLt
  rw [fieldF_toNat, wordXYN_toNat hf, BitVec.toNat_ofNat]; omega

theorem fieldX_wordXYN {f : Nat} (hf : f < 16) (x y : Reg) (n : Nibble) : fieldX (wordXYN f x y n) = x := by
  apply Fin.ext
  have := reg_lt x; have := reg_lt y; have := n.isLt
  rw [fieldX_val, wordXYN_toNat hf]; omega

theorem fieldY_wordXYN {f : Nat} (hf : f < 16) (x y : Reg) (n : Nibble) : fieldY (wordXYN f x y n) = y := by
  apply Fin.ext
  have := reg_lt y; have := n.isLt
  rw [fieldY_val, wordXYN_toNat hf]; omega

theorem fieldN_wordXYN {f : Nat} (hf : f < 16) (x y : Reg) (n : Nibble) : fieldN (wordXYN f x y n) = n := by
  apply BitVec.eq_of_toNat_eq
  have := n.isLt
  rw [fieldN_toNat, wordXYN_toNat hf]; omega

/-! ## A word is its fields -/

theorem word_of_fields (op : Opcode) : op.toNat =
    (fieldF op).toNat * 4096 + (fieldX op).val * 256 + (fieldY op).val * 16 + (fieldN op).toNat := by
  have := opcode_lt op
  rw [fieldF_toNat, fieldX_val, fieldY_val, fieldN_toNat]; omega

theorem word_of_kk (op : Opcode) :
    op.toNat = (fieldF op).toNat * 4096 + (fieldX op).val * 256 + (fieldKK op).toNat := by
  have := opcode_lt op
  rw [fieldF_toNat, fieldX_val, fieldKK_toNat]; omega

theorem word_of_nnn (op : Opcode) : op.toNat = (fieldF op).toNat * 4096 + (fieldNNN op).toNat := by
  have := opcode_lt op
  rw [fieldF_toNat, fieldNNN_toNat]; omega

/-! ## The masks of the opcode table (30_encoding.md R76) -/

theorem bit_cases {i : Nat} (h : i < 16) : i = 0 ∨ i = 1 ∨ i = 2 ∨ i = 3 ∨ i = 4 ∨ i = 5 ∨ i = 6 ∨ i = 7 ∨ i = 8 ∨
    i = 9 ∨ i = 10 ∨ i = 11 ∨ i = 12 ∨ i = 13 ∨ i = 14 ∨ i = 15 := by omega

/-- Mask 0xF000 keeps the family. -/
theorem mask_family (op : Opcode) : op &&& 0xF000#16 = (fieldF op).setWidth 16 <<< 12 := by
  suffices h : ∀ op : BitVec 16, op &&& 0xF000#16 = (op.extractLsb' 12 4).setWidth 16 <<< 12 from h op
  intro op
  ext i hi
  rcases bit_cases hi with h|h|h|h|h|h|h|h|h|h|h|h|h|h|h|h <;> subst h <;>
    simp [BitVec.getElem_extractLsb']

/-- Mask 0xF00F keeps the family and the low nibble. -/
theorem mask_nibble (op : Opcode) :
    op &&& 0xF00F#16 = ((fieldF op).setWidth 16 <<< 12) ||| (fieldN op).setWidth 16 := by
  suffices h : ∀ op : BitVec 16, op &&& 0xF00F#16 =
      ((op.extractLsb' 12 4).setWidth 16 <<< 12) ||| (op.extractLsb' 0 4).setWidth 16 from h op
  intro op
  ext i hi
  rcases bit_cases hi with h|h|h|h|h|h|h|h|h|h|h|h|h|h|h|h <;> subst h <;>
    simp [BitVec.getElem_extractLsb']

/-- Mask 0xF0FF keeps the family and the low byte. -/
theorem mask_byte (op : Opcode) :
    op &&& 0xF0FF#16 = ((fieldF op).setWidth 16 <<< 12) ||| (fieldKK op).setWidth 16 := by
  suffices h : ∀ op : BitVec 16, op &&& 0xF0FF#16 =
      ((op.extractLsb' 12 4).setWidth 16 <<< 12) ||| (op.extractLsb' 0 8).setWidth 16 from h op
  intro op
  ext i hi
  rcases bit_cases hi with h|h|h|h|h|h|h|h|h|h|h|h|h|h|h|h <;> subst h <;>
    simp [BitVec.getElem_extractLsb']

/-- A word selects a row of mask 0xF000 exactly when it has the row's family. -/
theorem mask_family_eq {op w : Opcode} (f : Nibble) (hw : w = f.setWidth 16 <<< 12) :
    op &&& 0xF000#16 = w ↔ fieldF op = f := by
  subst hw; rw [mask_family]
  generalize fieldF op = g; revert f g; decide

theorem family_or_toNat (f : Nibble) (w : Opcode) (h : w.toNat < 4096) :
    ((f.setWidth 16 <<< 12) ||| w).toNat = f.toNat * 4096 + w.toNat := by
  have hf := f.isLt
  have e : (f.setWidth 16 <<< 12 : Opcode).toNat = f.toNat <<< 12 := by
    simp only [BitVec.toNat_shiftLeft, BitVec.toNat_setWidth, Nat.shiftLeft_eq, two_pow_opcodeW]; omega
  rw [BitVec.toNat_or, e, ← Nat.shiftLeft_add_eq_or_of_lt (by omega), Nat.shiftLeft_eq]

/-- A word selects a row of mask 0xF00F exactly when it has the row's family and low nibble. -/
theorem mask_nibble_eq {op w : Opcode} (f n : Nibble) (hw : w = (f.setWidth 16 <<< 12) ||| n.setWidth 16) :
    op &&& 0xF00F#16 = w ↔ fieldF op = f ∧ fieldN op = n := by
  subst hw
  rw [mask_nibble, ← BitVec.toNat_inj, ← BitVec.toNat_inj (x := fieldF op), ← BitVec.toNat_inj (x := fieldN op)]
  have := f.isLt; have := n.isLt; have := (fieldF op).isLt; have := (fieldN op).isLt
  rw [family_or_toNat _ _ (by simp only [BitVec.toNat_setWidth, two_pow_opcodeW]; omega),
    family_or_toNat _ _ (by simp only [BitVec.toNat_setWidth, two_pow_opcodeW]; omega)]
  simp only [BitVec.toNat_setWidth, two_pow_opcodeW]; omega

/-- A word selects a row of mask 0xF0FF exactly when it has the row's family and low byte. -/
theorem mask_byte_eq {op w : Opcode} (f : Nibble) (k : Byte) (hw : w = (f.setWidth 16 <<< 12) ||| k.setWidth 16) :
    op &&& 0xF0FF#16 = w ↔ fieldF op = f ∧ fieldKK op = k := by
  subst hw
  rw [mask_byte, ← BitVec.toNat_inj, ← BitVec.toNat_inj (x := fieldF op), ← BitVec.toNat_inj (x := fieldKK op)]
  have := f.isLt; have := k.isLt; have := (fieldF op).isLt; have := (fieldKK op).isLt
  rw [family_or_toNat _ _ (by simp only [BitVec.toNat_setWidth, two_pow_opcodeW]; omega),
    family_or_toNat _ _ (by simp only [BitVec.toNat_setWidth, two_pow_opcodeW]; omega)]
  simp only [BitVec.toNat_setWidth, two_pow_opcodeW]; omega

/-! ## Byte order (20_memory.md R52) -/

theorem joinBytes_toNat (hi lo : Byte) : (joinBytes hi lo).toNat = 256 * hi.toNat + lo.toNat := by
  have := hi.isLt; have := lo.isLt
  simp only [joinBytes, BitVec.toNat_ofNat, two_pow_opcodeW]; omega

theorem joinBytes_halves (op : Opcode) : joinBytes (op.extractLsb' 8 8) (op.extractLsb' 0 8) = op := by
  apply BitVec.eq_of_toNat_eq
  have := opcode_lt op
  rw [joinBytes_toNat]
  simp only [BitVec.extractLsb'_toNat, Nat.shiftRight_eq_div_pow]; omega

/-- The decoder on the two bytes of a word, whatever follows. -/
theorem decode_splitWord (op : Opcode) (rest : List Byte) :
    decode (splitWord op ++ rest) = (match decodeWord op with
      | .ok i => .ok (i, rest)
      | .error e => .error e) := by
  cases h : decodeWord op <;> simp [splitWord, decode, joinBytes_halves, h]

/-! ## Taking a word apart and clearing what the decoder ignores (R77, R80, R81) -/

/-- An NNN word is assembled from its fields. -/
theorem op_of_nnn {op : Opcode} {f : Nat} (hf : f < 16) (h : fieldF op = BitVec.ofNat 4 f) :
    wordNNN f (fieldNNN op) = op := by
  apply BitVec.eq_of_toNat_eq
  rw [wordNNN_toNat hf, word_of_nnn op, h]; simp; omega

/-- An XKK word is assembled from its fields. -/
theorem op_of_kk {op : Opcode} {f : Nat} (hf : f < 16) (h : fieldF op = BitVec.ofNat 4 f) :
    wordXKK f (fieldX op) (fieldKK op) = op := by
  apply BitVec.eq_of_toNat_eq
  rw [wordXKK_toNat hf, word_of_kk op, h]; simp; omega

/-- Any word is assembled from its nibbles. -/
theorem op_of_xyn {op : Opcode} {f : Nat} (hf : f < 16) (h : fieldF op = BitVec.ofNat 4 f) :
    wordXYN f (fieldX op) (fieldY op) (fieldN op) = op := by
  apply BitVec.eq_of_toNat_eq
  rw [wordXYN_toNat hf, word_of_fields op, h]; simp; omega
/-- Clearing the low nibble (ignored in families 5 and 9). -/
theorem clear_n (op : Opcode) (n : Nibble) (h : fieldF op = n) :
    wordXYN n.toNat (fieldX op) (fieldY op) 0 = op &&& ~~~ 0x000F#16 := by
  apply BitVec.eq_of_toNat_eq
  have e : op &&& ~~~ 0x000F#16 = (op >>> 4) <<< 4 := by
    ext i hi
    rcases bit_cases hi with h|h|h|h|h|h|h|h|h|h|h|h|h|h|h|h <;> subst h <;> simp <;> rfl
  rw [wordXYN_toNat n.isLt, e, ← h]
  simp only [BitVec.toNat_shiftLeft, BitVec.toNat_ushiftRight, Nat.shiftLeft_eq, Nat.shiftRight_eq_div_pow]
  have := opcode_lt op
  rw [fieldF_toNat, fieldX_val, fieldY_val]; simp; omega
/-- Clearing `y` (ignored by SHR and SHL). -/
theorem clear_y (op : Opcode) (f n : Nibble) (h : fieldF op = f) (hn : fieldN op = n) :
    wordXYN f.toNat (fieldX op) 0 n = op &&& ~~~ 0x00F0#16 := by
  have e : op &&& ~~~ 0x00F0#16 = ((op >>> 8) <<< 8) ||| (fieldN op).setWidth 16 := by
    ext i hi
    rcases bit_cases hi with h|h|h|h|h|h|h|h|h|h|h|h|h|h|h|h <;> subst h <;>
      simp [fieldN, BitVec.getElem_extractLsb'] <;> rfl
  apply BitVec.eq_of_toNat_eq
  have := opcode_lt op; have hlt := (fieldN op).isLt
  have e8 : ((op >>> 8) <<< 8).toNat = (op.toNat / 256) <<< 8 := by
    simp only [BitVec.toNat_shiftLeft, BitVec.toNat_ushiftRight, Nat.shiftLeft_eq, Nat.shiftRight_eq_div_pow,
      two_pow_opcodeW]
    omega
  have en : ((fieldN op).setWidth 16).toNat = (fieldN op).toNat := by simp only [BitVec.toNat_setWidth, two_pow_opcodeW]; omega
  rw [wordXYN_toNat f.isLt, e, BitVec.toNat_or, e8, en, ← Nat.shiftLeft_add_eq_or_of_lt (by omega), Nat.shiftLeft_eq,
    ← h, ← hn, fieldF_toNat, fieldX_val]
  simp only [Fin.val_zero]; omega

theorem keep_all (op : Opcode) : op &&& ~~~ (0 : Opcode) = op := by
  show op &&& BitVec.allOnes 16 = op
  exact BitVec.and_allOnes

/-- Clearing `x` (ignored by CLS and RET). -/
theorem clear_x (op : Opcode) (kk : Byte) (h : fieldF op = 0#4) (hk : fieldKK op = kk) :
    kk.setWidth 16 = op &&& ~~~ 0x0F00#16 := by
  rw [← hk]
  revert h
  suffices key : ∀ op : BitVec 16, op.extractLsb' 12 4 = 0#4 →
      (op.extractLsb' 0 8).setWidth 16 = op &&& ~~~ 0x0F00#16 from key op
  intro op h
  ext i hi
  have hF : ∀ j, j < 4 → op.getLsbD (12 + j) = false := by
    intro j hj
    have := congrArg (fun n => n.getLsbD j) h
    simpa [hj, Nat.add_comm] using this
  have h0 := hF 0; have h1 := hF 1; have h2 := hF 2; have h3 := hF 3
  rcases bit_cases hi with h|h|h|h|h|h|h|h|h|h|h|h|h|h|h|h <;> subst h <;>
      simp [BitVec.getElem_extractLsb'] <;> simp_all

/-! ## The dispatch, one lemma for each key (R75, R81) -/

theorem nibble_cases (n : Nibble) : n = 0x0#4 ∨ n = 0x1#4 ∨ n = 0x2#4 ∨ n = 0x3#4 ∨ n = 0x4#4 ∨ n = 0x5#4 ∨ n = 0x6#4 ∨
    n = 0x7#4 ∨ n = 0x8#4 ∨ n = 0x9#4 ∨ n = 0xA#4 ∨ n = 0xB#4 ∨ n = 0xC#4 ∨ n = 0xD#4 ∨ n = 0xE#4 ∨ n = 0xF#4 := by
  revert n; decide

theorem decodeWord_f0 {op : Opcode} (h : fieldF op = 0x0#4) :
    decodeWord op = .ok (decodeFamily0 op) := by simp [decodeWord, h]
theorem decodeWord_f1 {op : Opcode} (h : fieldF op = 0x1#4) :
    decodeWord op = .ok (.jp (fieldNNN op)) := by simp [decodeWord, h]
theorem decodeWord_f2 {op : Opcode} (h : fieldF op = 0x2#4) :
    decodeWord op = .ok (.call (fieldNNN op)) := by simp [decodeWord, h]
theorem decodeWord_f3 {op : Opcode} (h : fieldF op = 0x3#4) :
    decodeWord op = .ok (.seImm (fieldX op) (fieldKK op)) := by simp [decodeWord, h]
theorem decodeWord_f4 {op : Opcode} (h : fieldF op = 0x4#4) :
    decodeWord op = .ok (.sneImm (fieldX op) (fieldKK op)) := by simp [decodeWord, h]
theorem decodeWord_f5 {op : Opcode} (h : fieldF op = 0x5#4) :
    decodeWord op = .ok (.seReg (fieldX op) (fieldY op)) := by simp [decodeWord, h]
theorem decodeWord_f6 {op : Opcode} (h : fieldF op = 0x6#4) :
    decodeWord op = .ok (.ldImm (fieldX op) (fieldKK op)) := by simp [decodeWord, h]
theorem decodeWord_f7 {op : Opcode} (h : fieldF op = 0x7#4) :
    decodeWord op = .ok (.addImm (fieldX op) (fieldKK op)) := by simp [decodeWord, h]
theorem decodeWord_f8 {op : Opcode} (h : fieldF op = 0x8#4) :
    decodeWord op = decodeFamily8 op := by simp [decodeWord, h]
theorem decodeWord_f9 {op : Opcode} (h : fieldF op = 0x9#4) :
    decodeWord op = .ok (.sneReg (fieldX op) (fieldY op)) := by simp [decodeWord, h]
theorem decodeWord_fA {op : Opcode} (h : fieldF op = 0xA#4) :
    decodeWord op = .ok (.ldI (fieldNNN op)) := by simp [decodeWord, h]
theorem decodeWord_fB {op : Opcode} (h : fieldF op = 0xB#4) :
    decodeWord op = .ok (.jpV0 (fieldNNN op)) := by simp [decodeWord, h]
theorem decodeWord_fC {op : Opcode} (h : fieldF op = 0xC#4) :
    decodeWord op = .ok (.rnd (fieldX op) (fieldKK op)) := by simp [decodeWord, h]
theorem decodeWord_fD {op : Opcode} (h : fieldF op = 0xD#4) :
    decodeWord op = .ok (.drw (fieldX op) (fieldY op) (fieldN op)) := by simp [decodeWord, h]
theorem decodeWord_fE {op : Opcode} (h : fieldF op = 0xE#4) :
    decodeWord op = decodeFamilyE op := by simp [decodeWord, h]
theorem decodeWord_fF {op : Opcode} (h : fieldF op = 0xF#4) :
    decodeWord op = decodeFamilyF op := by simp [decodeWord, h]

theorem decodeFamily8_n0 {op : Opcode} (h : fieldN op = 0x0#4) :
    decodeFamily8 op = .ok (.ldReg (fieldX op) (fieldY op)) := by simp [decodeFamily8, h]
theorem decodeFamily8_n1 {op : Opcode} (h : fieldN op = 0x1#4) :
    decodeFamily8 op = .ok (.or (fieldX op) (fieldY op)) := by simp [decodeFamily8, h]
theorem decodeFamily8_n2 {op : Opcode} (h : fieldN op = 0x2#4) :
    decodeFamily8 op = .ok (.and (fieldX op) (fieldY op)) := by simp [decodeFamily8, h]
theorem decodeFamily8_n3 {op : Opcode} (h : fieldN op = 0x3#4) :
    decodeFamily8 op = .ok (.xor (fieldX op) (fieldY op)) := by simp [decodeFamily8, h]
theorem decodeFamily8_n4 {op : Opcode} (h : fieldN op = 0x4#4) :
    decodeFamily8 op = .ok (.addReg (fieldX op) (fieldY op)) := by simp [decodeFamily8, h]
theorem decodeFamily8_n5 {op : Opcode} (h : fieldN op = 0x5#4) :
    decodeFamily8 op = .ok (.sub (fieldX op) (fieldY op)) := by simp [decodeFamily8, h]
theorem decodeFamily8_n6 {op : Opcode} (h : fieldN op = 0x6#4) :
    decodeFamily8 op = .ok (.shr (fieldX op)) := by simp [decodeFamily8, h]
theorem decodeFamily8_n7 {op : Opcode} (h : fieldN op = 0x7#4) :
    decodeFamily8 op = .ok (.subn (fieldX op) (fieldY op)) := by simp [decodeFamily8, h]
theorem decodeFamily8_n8 {op : Opcode} (h : fieldN op = 0x8#4) :
    decodeFamily8 op = .error (.illegal op) := by simp [decodeFamily8, h]
theorem decodeFamily8_n9 {op : Opcode} (h : fieldN op = 0x9#4) :
    decodeFamily8 op = .error (.illegal op) := by simp [decodeFamily8, h]
theorem decodeFamily8_nA {op : Opcode} (h : fieldN op = 0xA#4) :
    decodeFamily8 op = .error (.illegal op) := by simp [decodeFamily8, h]
theorem decodeFamily8_nB {op : Opcode} (h : fieldN op = 0xB#4) :
    decodeFamily8 op = .error (.illegal op) := by simp [decodeFamily8, h]
theorem decodeFamily8_nC {op : Opcode} (h : fieldN op = 0xC#4) :
    decodeFamily8 op = .error (.illegal op) := by simp [decodeFamily8, h]
theorem decodeFamily8_nD {op : Opcode} (h : fieldN op = 0xD#4) :
    decodeFamily8 op = .error (.illegal op) := by simp [decodeFamily8, h]
theorem decodeFamily8_nE {op : Opcode} (h : fieldN op = 0xE#4) :
    decodeFamily8 op = .ok (.shl (fieldX op)) := by simp [decodeFamily8, h]
theorem decodeFamily8_nF {op : Opcode} (h : fieldN op = 0xF#4) :
    decodeFamily8 op = .error (.illegal op) := by simp [decodeFamily8, h]

end Sys2Proof
end

