-- ==== Sys2Proof/Laws/State.lean ====
section
/-! SUPPORT. One lemma for each field of State under each update and each state operation, so that no proof unfolds a record
update. -/

namespace Sys2Proof.Machine

/-! ## The named updates -/


@[simp] theorem State.setV_v (s : State) (w : Vector RegByte Config.nRegs) : (s.setV w).v = w := rfl
@[simp] theorem State.setV_index (s : State) (w : Vector RegByte Config.nRegs) : (s.setV w).index = s.index := rfl
@[simp] theorem State.setV_pc (s : State) (w : Vector RegByte Config.nRegs) : (s.setV w).pc = s.pc := rfl
@[simp] theorem State.setV_stack (s : State) (w : Vector RegByte Config.nRegs) : (s.setV w).stack = s.stack := rfl
@[simp] theorem State.setV_dt (s : State) (w : Vector RegByte Config.nRegs) : (s.setV w).dt = s.dt := rfl
@[simp] theorem State.setV_st (s : State) (w : Vector RegByte Config.nRegs) : (s.setV w).st = s.st := rfl
@[simp] theorem State.setV_run (s : State) (w : Vector RegByte Config.nRegs) : (s.setV w).run = s.run := rfl
@[simp] theorem State.setV_mem (s : State) (w : Vector RegByte Config.nRegs) : (s.setV w).mem = s.mem := rfl
@[simp] theorem State.setV_keyWait (s : State) (w : Vector RegByte Config.nRegs) : (s.setV w).keyWait = s.keyWait := rfl
@[simp] theorem State.setV_fb (s : State) (w : Vector RegByte Config.nRegs) : (s.setV w).fb = s.fb := rfl
@[simp] theorem State.setV_pending (s : State) (w : Vector RegByte Config.nRegs) : (s.setV w).pending = s.pending := rfl
@[simp] theorem State.setV_keys (s : State) (w : Vector RegByte Config.nRegs) : (s.setV w).keys = s.keys := rfl
@[simp] theorem State.setV_surfaceRunning (s : State) (w : Vector RegByte Config.nRegs) : (s.setV w).surfaceRunning = s.surfaceRunning := rfl
@[simp] theorem State.setV_pollAnswer (s : State) (w : Vector RegByte Config.nRegs) : (s.setV w).pollAnswer = s.pollAnswer := rfl
@[simp] theorem State.setV_schedule (s : State) (w : Vector RegByte Config.nRegs) : (s.setV w).schedule = s.schedule := rfl
@[simp] theorem State.setV_turn (s : State) (w : Vector RegByte Config.nRegs) : (s.setV w).turn = s.turn := rfl
@[simp] theorem State.setV_draws (s : State) (w : Vector RegByte Config.nRegs) : (s.setV w).draws = s.draws := rfl
@[simp] theorem State.setV_sp (s : State) (w : Vector RegByte Config.nRegs) : (s.setV w).sp = s.sp := rfl

@[simp] theorem State.setIndex_v (s : State) (w : IndexWord) : (s.setIndex w).v = s.v := rfl
@[simp] theorem State.setIndex_index (s : State) (w : IndexWord) : (s.setIndex w).index = w := rfl
@[simp] theorem State.setIndex_pc (s : State) (w : IndexWord) : (s.setIndex w).pc = s.pc := rfl
@[simp] theorem State.setIndex_stack (s : State) (w : IndexWord) : (s.setIndex w).stack = s.stack := rfl
@[simp] theorem State.setIndex_dt (s : State) (w : IndexWord) : (s.setIndex w).dt = s.dt := rfl
@[simp] theorem State.setIndex_st (s : State) (w : IndexWord) : (s.setIndex w).st = s.st := rfl
@[simp] theorem State.setIndex_run (s : State) (w : IndexWord) : (s.setIndex w).run = s.run := rfl
@[simp] theorem State.setIndex_mem (s : State) (w : IndexWord) : (s.setIndex w).mem = s.mem := rfl
@[simp] theorem State.setIndex_keyWait (s : State) (w : IndexWord) : (s.setIndex w).keyWait = s.keyWait := rfl
@[simp] theorem State.setIndex_fb (s : State) (w : IndexWord) : (s.setIndex w).fb = s.fb := rfl
@[simp] theorem State.setIndex_pending (s : State) (w : IndexWord) : (s.setIndex w).pending = s.pending := rfl
@[simp] theorem State.setIndex_keys (s : State) (w : IndexWord) : (s.setIndex w).keys = s.keys := rfl
@[simp] theorem State.setIndex_surfaceRunning (s : State) (w : IndexWord) : (s.setIndex w).surfaceRunning = s.surfaceRunning := rfl
@[simp] theorem State.setIndex_pollAnswer (s : State) (w : IndexWord) : (s.setIndex w).pollAnswer = s.pollAnswer := rfl
@[simp] theorem State.setIndex_schedule (s : State) (w : IndexWord) : (s.setIndex w).schedule = s.schedule := rfl
@[simp] theorem State.setIndex_turn (s : State) (w : IndexWord) : (s.setIndex w).turn = s.turn := rfl
@[simp] theorem State.setIndex_draws (s : State) (w : IndexWord) : (s.setIndex w).draws = s.draws := rfl
@[simp] theorem State.setIndex_reg (s : State) (w : IndexWord) (y : Reg) : (s.setIndex w).reg y = s.reg y := rfl
@[simp] theorem State.setIndex_sp (s : State) (w : IndexWord) : (s.setIndex w).sp = s.sp := rfl

@[simp] theorem State.setPc_v (s : State) (w : PcWord) : (s.setPc w).v = s.v := rfl
@[simp] theorem State.setPc_index (s : State) (w : PcWord) : (s.setPc w).index = s.index := rfl
@[simp] theorem State.setPc_pc (s : State) (w : PcWord) : (s.setPc w).pc = w := rfl
@[simp] theorem State.setPc_stack (s : State) (w : PcWord) : (s.setPc w).stack = s.stack := rfl
@[simp] theorem State.setPc_dt (s : State) (w : PcWord) : (s.setPc w).dt = s.dt := rfl
@[simp] theorem State.setPc_st (s : State) (w : PcWord) : (s.setPc w).st = s.st := rfl
@[simp] theorem State.setPc_run (s : State) (w : PcWord) : (s.setPc w).run = s.run := rfl
@[simp] theorem State.setPc_mem (s : State) (w : PcWord) : (s.setPc w).mem = s.mem := rfl
@[simp] theorem State.setPc_keyWait (s : State) (w : PcWord) : (s.setPc w).keyWait = s.keyWait := rfl
@[simp] theorem State.setPc_fb (s : State) (w : PcWord) : (s.setPc w).fb = s.fb := rfl
@[simp] theorem State.setPc_pending (s : State) (w : PcWord) : (s.setPc w).pending = s.pending := rfl
@[simp] theorem State.setPc_keys (s : State) (w : PcWord) : (s.setPc w).keys = s.keys := rfl
@[simp] theorem State.setPc_surfaceRunning (s : State) (w : PcWord) : (s.setPc w).surfaceRunning = s.surfaceRunning := rfl
@[simp] theorem State.setPc_pollAnswer (s : State) (w : PcWord) : (s.setPc w).pollAnswer = s.pollAnswer := rfl
@[simp] theorem State.setPc_schedule (s : State) (w : PcWord) : (s.setPc w).schedule = s.schedule := rfl
@[simp] theorem State.setPc_turn (s : State) (w : PcWord) : (s.setPc w).turn = s.turn := rfl
@[simp] theorem State.setPc_draws (s : State) (w : PcWord) : (s.setPc w).draws = s.draws := rfl
@[simp] theorem State.setPc_reg (s : State) (w : PcWord) (y : Reg) : (s.setPc w).reg y = s.reg y := rfl
@[simp] theorem State.setPc_sp (s : State) (w : PcWord) : (s.setPc w).sp = s.sp := rfl

@[simp] theorem State.setStack_v (s : State) (w : List StackEntry) : (s.setStack w).v = s.v := rfl
@[simp] theorem State.setStack_index (s : State) (w : List StackEntry) : (s.setStack w).index = s.index := rfl
@[simp] theorem State.setStack_pc (s : State) (w : List StackEntry) : (s.setStack w).pc = s.pc := rfl
@[simp] theorem State.setStack_stack (s : State) (w : List StackEntry) : (s.setStack w).stack = w := rfl
@[simp] theorem State.setStack_dt (s : State) (w : List StackEntry) : (s.setStack w).dt = s.dt := rfl
@[simp] theorem State.setStack_st (s : State) (w : List StackEntry) : (s.setStack w).st = s.st := rfl
@[simp] theorem State.setStack_run (s : State) (w : List StackEntry) : (s.setStack w).run = s.run := rfl
@[simp] theorem State.setStack_mem (s : State) (w : List StackEntry) : (s.setStack w).mem = s.mem := rfl
@[simp] theorem State.setStack_keyWait (s : State) (w : List StackEntry) : (s.setStack w).keyWait = s.keyWait := rfl
@[simp] theorem State.setStack_fb (s : State) (w : List StackEntry) : (s.setStack w).fb = s.fb := rfl
@[simp] theorem State.setStack_pending (s : State) (w : List StackEntry) : (s.setStack w).pending = s.pending := rfl
@[simp] theorem State.setStack_keys (s : State) (w : List StackEntry) : (s.setStack w).keys = s.keys := rfl
@[simp] theorem State.setStack_surfaceRunning (s : State) (w : List StackEntry) : (s.setStack w).surfaceRunning = s.surfaceRunning := rfl
@[simp] theorem State.setStack_pollAnswer (s : State) (w : List StackEntry) : (s.setStack w).pollAnswer = s.pollAnswer := rfl
@[simp] theorem State.setStack_schedule (s : State) (w : List StackEntry) : (s.setStack w).schedule = s.schedule := rfl
@[simp] theorem State.setStack_turn (s : State) (w : List StackEntry) : (s.setStack w).turn = s.turn := rfl
@[simp] theorem State.setStack_draws (s : State) (w : List StackEntry) : (s.setStack w).draws = s.draws := rfl
@[simp] theorem State.setStack_reg (s : State) (w : List StackEntry) (y : Reg) : (s.setStack w).reg y = s.reg y := rfl

@[simp] theorem State.setDt_v (s : State) (w : TimerByte) : (s.setDt w).v = s.v := rfl
@[simp] theorem State.setDt_index (s : State) (w : TimerByte) : (s.setDt w).index = s.index := rfl
@[simp] theorem State.setDt_pc (s : State) (w : TimerByte) : (s.setDt w).pc = s.pc := rfl
@[simp] theorem State.setDt_stack (s : State) (w : TimerByte) : (s.setDt w).stack = s.stack := rfl
@[simp] theorem State.setDt_dt (s : State) (w : TimerByte) : (s.setDt w).dt = w := rfl
@[simp] theorem State.setDt_st (s : State) (w : TimerByte) : (s.setDt w).st = s.st := rfl
@[simp] theorem State.setDt_run (s : State) (w : TimerByte) : (s.setDt w).run = s.run := rfl
@[simp] theorem State.setDt_mem (s : State) (w : TimerByte) : (s.setDt w).mem = s.mem := rfl
@[simp] theorem State.setDt_keyWait (s : State) (w : TimerByte) : (s.setDt w).keyWait = s.keyWait := rfl
@[simp] theorem State.setDt_fb (s : State) (w : TimerByte) : (s.setDt w).fb = s.fb := rfl
@[simp] theorem State.setDt_pending (s : State) (w : TimerByte) : (s.setDt w).pending = s.pending := rfl
@[simp] theorem State.setDt_keys (s : State) (w : TimerByte) : (s.setDt w).keys = s.keys := rfl
@[simp] theorem State.setDt_surfaceRunning (s : State) (w : TimerByte) : (s.setDt w).surfaceRunning = s.surfaceRunning := rfl
@[simp] theorem State.setDt_pollAnswer (s : State) (w : TimerByte) : (s.setDt w).pollAnswer = s.pollAnswer := rfl
@[simp] theorem State.setDt_schedule (s : State) (w : TimerByte) : (s.setDt w).schedule = s.schedule := rfl
@[simp] theorem State.setDt_turn (s : State) (w : TimerByte) : (s.setDt w).turn = s.turn := rfl
@[simp] theorem State.setDt_draws (s : State) (w : TimerByte) : (s.setDt w).draws = s.draws := rfl
@[simp] theorem State.setDt_reg (s : State) (w : TimerByte) (y : Reg) : (s.setDt w).reg y = s.reg y := rfl
@[simp] theorem State.setDt_sp (s : State) (w : TimerByte) : (s.setDt w).sp = s.sp := rfl

@[simp] theorem State.setSt_v (s : State) (w : TimerByte) : (s.setSt w).v = s.v := rfl
@[simp] theorem State.setSt_index (s : State) (w : TimerByte) : (s.setSt w).index = s.index := rfl
@[simp] theorem State.setSt_pc (s : State) (w : TimerByte) : (s.setSt w).pc = s.pc := rfl
@[simp] theorem State.setSt_stack (s : State) (w : TimerByte) : (s.setSt w).stack = s.stack := rfl
@[simp] theorem State.setSt_dt (s : State) (w : TimerByte) : (s.setSt w).dt = s.dt := rfl
@[simp] theorem State.setSt_st (s : State) (w : TimerByte) : (s.setSt w).st = w := rfl
@[simp] theorem State.setSt_run (s : State) (w : TimerByte) : (s.setSt w).run = s.run := rfl
@[simp] theorem State.setSt_mem (s : State) (w : TimerByte) : (s.setSt w).mem = s.mem := rfl
@[simp] theorem State.setSt_keyWait (s : State) (w : TimerByte) : (s.setSt w).keyWait = s.keyWait := rfl
@[simp] theorem State.setSt_fb (s : State) (w : TimerByte) : (s.setSt w).fb = s.fb := rfl
@[simp] theorem State.setSt_pending (s : State) (w : TimerByte) : (s.setSt w).pending = s.pending := rfl
@[simp] theorem State.setSt_keys (s : State) (w : TimerByte) : (s.setSt w).keys = s.keys := rfl
@[simp] theorem State.setSt_surfaceRunning (s : State) (w : TimerByte) : (s.setSt w).surfaceRunning = s.surfaceRunning := rfl
@[simp] theorem State.setSt_pollAnswer (s : State) (w : TimerByte) : (s.setSt w).pollAnswer = s.pollAnswer := rfl
@[simp] theorem State.setSt_schedule (s : State) (w : TimerByte) : (s.setSt w).schedule = s.schedule := rfl
@[simp] theorem State.setSt_turn (s : State) (w : TimerByte) : (s.setSt w).turn = s.turn := rfl
@[simp] theorem State.setSt_draws (s : State) (w : TimerByte) : (s.setSt w).draws = s.draws := rfl
@[simp] theorem State.setSt_reg (s : State) (w : TimerByte) (y : Reg) : (s.setSt w).reg y = s.reg y := rfl
@[simp] theorem State.setSt_sp (s : State) (w : TimerByte) : (s.setSt w).sp = s.sp := rfl

@[simp] theorem State.setRun_v (s : State) (w : RunState) : (s.setRun w).v = s.v := rfl
@[simp] theorem State.setRun_index (s : State) (w : RunState) : (s.setRun w).index = s.index := rfl
@[simp] theorem State.setRun_pc (s : State) (w : RunState) : (s.setRun w).pc = s.pc := rfl
@[simp] theorem State.setRun_stack (s : State) (w : RunState) : (s.setRun w).stack = s.stack := rfl
@[simp] theorem State.setRun_dt (s : State) (w : RunState) : (s.setRun w).dt = s.dt := rfl
@[simp] theorem State.setRun_st (s : State) (w : RunState) : (s.setRun w).st = s.st := rfl
@[simp] theorem State.setRun_run (s : State) (w : RunState) : (s.setRun w).run = w := rfl
@[simp] theorem State.setRun_mem (s : State) (w : RunState) : (s.setRun w).mem = s.mem := rfl
@[simp] theorem State.setRun_keyWait (s : State) (w : RunState) : (s.setRun w).keyWait = s.keyWait := rfl
@[simp] theorem State.setRun_fb (s : State) (w : RunState) : (s.setRun w).fb = s.fb := rfl
@[simp] theorem State.setRun_pending (s : State) (w : RunState) : (s.setRun w).pending = s.pending := rfl
@[simp] theorem State.setRun_keys (s : State) (w : RunState) : (s.setRun w).keys = s.keys := rfl
@[simp] theorem State.setRun_surfaceRunning (s : State) (w : RunState) : (s.setRun w).surfaceRunning = s.surfaceRunning := rfl
@[simp] theorem State.setRun_pollAnswer (s : State) (w : RunState) : (s.setRun w).pollAnswer = s.pollAnswer := rfl
@[simp] theorem State.setRun_schedule (s : State) (w : RunState) : (s.setRun w).schedule = s.schedule := rfl
@[simp] theorem State.setRun_turn (s : State) (w : RunState) : (s.setRun w).turn = s.turn := rfl
@[simp] theorem State.setRun_draws (s : State) (w : RunState) : (s.setRun w).draws = s.draws := rfl
@[simp] theorem State.setRun_reg (s : State) (w : RunState) (y : Reg) : (s.setRun w).reg y = s.reg y := rfl
@[simp] theorem State.setRun_sp (s : State) (w : RunState) : (s.setRun w).sp = s.sp := rfl

@[simp] theorem State.setMem_v (s : State) (w : Memory) : (s.setMem w).v = s.v := rfl
@[simp] theorem State.setMem_index (s : State) (w : Memory) : (s.setMem w).index = s.index := rfl
@[simp] theorem State.setMem_pc (s : State) (w : Memory) : (s.setMem w).pc = s.pc := rfl
@[simp] theorem State.setMem_stack (s : State) (w : Memory) : (s.setMem w).stack = s.stack := rfl
@[simp] theorem State.setMem_dt (s : State) (w : Memory) : (s.setMem w).dt = s.dt := rfl
@[simp] theorem State.setMem_st (s : State) (w : Memory) : (s.setMem w).st = s.st := rfl
@[simp] theorem State.setMem_run (s : State) (w : Memory) : (s.setMem w).run = s.run := rfl
@[simp] theorem State.setMem_mem (s : State) (w : Memory) : (s.setMem w).mem = w := rfl
@[simp] theorem State.setMem_keyWait (s : State) (w : Memory) : (s.setMem w).keyWait = s.keyWait := rfl
@[simp] theorem State.setMem_fb (s : State) (w : Memory) : (s.setMem w).fb = s.fb := rfl
@[simp] theorem State.setMem_pending (s : State) (w : Memory) : (s.setMem w).pending = s.pending := rfl
@[simp] theorem State.setMem_keys (s : State) (w : Memory) : (s.setMem w).keys = s.keys := rfl
@[simp] theorem State.setMem_surfaceRunning (s : State) (w : Memory) : (s.setMem w).surfaceRunning = s.surfaceRunning := rfl
@[simp] theorem State.setMem_pollAnswer (s : State) (w : Memory) : (s.setMem w).pollAnswer = s.pollAnswer := rfl
@[simp] theorem State.setMem_schedule (s : State) (w : Memory) : (s.setMem w).schedule = s.schedule := rfl
@[simp] theorem State.setMem_turn (s : State) (w : Memory) : (s.setMem w).turn = s.turn := rfl
@[simp] theorem State.setMem_draws (s : State) (w : Memory) : (s.setMem w).draws = s.draws := rfl
@[simp] theorem State.setMem_reg (s : State) (w : Memory) (y : Reg) : (s.setMem w).reg y = s.reg y := rfl
@[simp] theorem State.setMem_sp (s : State) (w : Memory) : (s.setMem w).sp = s.sp := rfl

@[simp] theorem State.setKeyWait_v (s : State) (w : Option Reg) : (s.setKeyWait w).v = s.v := rfl
@[simp] theorem State.setKeyWait_index (s : State) (w : Option Reg) : (s.setKeyWait w).index = s.index := rfl
@[simp] theorem State.setKeyWait_pc (s : State) (w : Option Reg) : (s.setKeyWait w).pc = s.pc := rfl
@[simp] theorem State.setKeyWait_stack (s : State) (w : Option Reg) : (s.setKeyWait w).stack = s.stack := rfl
@[simp] theorem State.setKeyWait_dt (s : State) (w : Option Reg) : (s.setKeyWait w).dt = s.dt := rfl
@[simp] theorem State.setKeyWait_st (s : State) (w : Option Reg) : (s.setKeyWait w).st = s.st := rfl
@[simp] theorem State.setKeyWait_run (s : State) (w : Option Reg) : (s.setKeyWait w).run = s.run := rfl
@[simp] theorem State.setKeyWait_mem (s : State) (w : Option Reg) : (s.setKeyWait w).mem = s.mem := rfl
@[simp] theorem State.setKeyWait_keyWait (s : State) (w : Option Reg) : (s.setKeyWait w).keyWait = w := rfl
@[simp] theorem State.setKeyWait_fb (s : State) (w : Option Reg) : (s.setKeyWait w).fb = s.fb := rfl
@[simp] theorem State.setKeyWait_pending (s : State) (w : Option Reg) : (s.setKeyWait w).pending = s.pending := rfl
@[simp] theorem State.setKeyWait_keys (s : State) (w : Option Reg) : (s.setKeyWait w).keys = s.keys := rfl
@[simp] theorem State.setKeyWait_surfaceRunning (s : State) (w : Option Reg) : (s.setKeyWait w).surfaceRunning = s.surfaceRunning := rfl
@[simp] theorem State.setKeyWait_pollAnswer (s : State) (w : Option Reg) : (s.setKeyWait w).pollAnswer = s.pollAnswer := rfl
@[simp] theorem State.setKeyWait_schedule (s : State) (w : Option Reg) : (s.setKeyWait w).schedule = s.schedule := rfl
@[simp] theorem State.setKeyWait_turn (s : State) (w : Option Reg) : (s.setKeyWait w).turn = s.turn := rfl
@[simp] theorem State.setKeyWait_draws (s : State) (w : Option Reg) : (s.setKeyWait w).draws = s.draws := rfl
@[simp] theorem State.setKeyWait_reg (s : State) (w : Option Reg) (y : Reg) : (s.setKeyWait w).reg y = s.reg y := rfl
@[simp] theorem State.setKeyWait_sp (s : State) (w : Option Reg) : (s.setKeyWait w).sp = s.sp := rfl

@[simp] theorem State.setFb_v (s : State) (w : Frame) : (s.setFb w).v = s.v := rfl
@[simp] theorem State.setFb_index (s : State) (w : Frame) : (s.setFb w).index = s.index := rfl
@[simp] theorem State.setFb_pc (s : State) (w : Frame) : (s.setFb w).pc = s.pc := rfl
@[simp] theorem State.setFb_stack (s : State) (w : Frame) : (s.setFb w).stack = s.stack := rfl
@[simp] theorem State.setFb_dt (s : State) (w : Frame) : (s.setFb w).dt = s.dt := rfl
@[simp] theorem State.setFb_st (s : State) (w : Frame) : (s.setFb w).st = s.st := rfl
@[simp] theorem State.setFb_run (s : State) (w : Frame) : (s.setFb w).run = s.run := rfl
@[simp] theorem State.setFb_mem (s : State) (w : Frame) : (s.setFb w).mem = s.mem := rfl
@[simp] theorem State.setFb_keyWait (s : State) (w : Frame) : (s.setFb w).keyWait = s.keyWait := rfl
@[simp] theorem State.setFb_fb (s : State) (w : Frame) : (s.setFb w).fb = w := rfl
@[simp] theorem State.setFb_pending (s : State) (w : Frame) : (s.setFb w).pending = s.pending := rfl
@[simp] theorem State.setFb_keys (s : State) (w : Frame) : (s.setFb w).keys = s.keys := rfl
@[simp] theorem State.setFb_surfaceRunning (s : State) (w : Frame) : (s.setFb w).surfaceRunning = s.surfaceRunning := rfl
@[simp] theorem State.setFb_pollAnswer (s : State) (w : Frame) : (s.setFb w).pollAnswer = s.pollAnswer := rfl
@[simp] theorem State.setFb_schedule (s : State) (w : Frame) : (s.setFb w).schedule = s.schedule := rfl
@[simp] theorem State.setFb_turn (s : State) (w : Frame) : (s.setFb w).turn = s.turn := rfl
@[simp] theorem State.setFb_draws (s : State) (w : Frame) : (s.setFb w).draws = s.draws := rfl
@[simp] theorem State.setFb_reg (s : State) (w : Frame) (y : Reg) : (s.setFb w).reg y = s.reg y := rfl
@[simp] theorem State.setFb_sp (s : State) (w : Frame) : (s.setFb w).sp = s.sp := rfl

@[simp] theorem State.setPending_v (s : State) (w : Option Frame) : (s.setPending w).v = s.v := rfl
@[simp] theorem State.setPending_index (s : State) (w : Option Frame) : (s.setPending w).index = s.index := rfl
@[simp] theorem State.setPending_pc (s : State) (w : Option Frame) : (s.setPending w).pc = s.pc := rfl
@[simp] theorem State.setPending_stack (s : State) (w : Option Frame) : (s.setPending w).stack = s.stack := rfl
@[simp] theorem State.setPending_dt (s : State) (w : Option Frame) : (s.setPending w).dt = s.dt := rfl
@[simp] theorem State.setPending_st (s : State) (w : Option Frame) : (s.setPending w).st = s.st := rfl
@[simp] theorem State.setPending_run (s : State) (w : Option Frame) : (s.setPending w).run = s.run := rfl
@[simp] theorem State.setPending_mem (s : State) (w : Option Frame) : (s.setPending w).mem = s.mem := rfl
@[simp] theorem State.setPending_keyWait (s : State) (w : Option Frame) : (s.setPending w).keyWait = s.keyWait := rfl
@[simp] theorem State.setPending_fb (s : State) (w : Option Frame) : (s.setPending w).fb = s.fb := rfl
@[simp] theorem State.setPending_pending (s : State) (w : Option Frame) : (s.setPending w).pending = w := rfl
@[simp] theorem State.setPending_keys (s : State) (w : Option Frame) : (s.setPending w).keys = s.keys := rfl
@[simp] theorem State.setPending_surfaceRunning (s : State) (w : Option Frame) : (s.setPending w).surfaceRunning = s.surfaceRunning := rfl
@[simp] theorem State.setPending_pollAnswer (s : State) (w : Option Frame) : (s.setPending w).pollAnswer = s.pollAnswer := rfl
@[simp] theorem State.setPending_schedule (s : State) (w : Option Frame) : (s.setPending w).schedule = s.schedule := rfl
@[simp] theorem State.setPending_turn (s : State) (w : Option Frame) : (s.setPending w).turn = s.turn := rfl
@[simp] theorem State.setPending_draws (s : State) (w : Option Frame) : (s.setPending w).draws = s.draws := rfl
@[simp] theorem State.setPending_reg (s : State) (w : Option Frame) (y : Reg) : (s.setPending w).reg y = s.reg y := rfl
@[simp] theorem State.setPending_sp (s : State) (w : Option Frame) : (s.setPending w).sp = s.sp := rfl

@[simp] theorem State.setKeys_v (s : State) (w : Vector Bool Config.nKeys) : (s.setKeys w).v = s.v := rfl
@[simp] theorem State.setKeys_index (s : State) (w : Vector Bool Config.nKeys) : (s.setKeys w).index = s.index := rfl
@[simp] theorem State.setKeys_pc (s : State) (w : Vector Bool Config.nKeys) : (s.setKeys w).pc = s.pc := rfl
@[simp] theorem State.setKeys_stack (s : State) (w : Vector Bool Config.nKeys) : (s.setKeys w).stack = s.stack := rfl
@[simp] theorem State.setKeys_dt (s : State) (w : Vector Bool Config.nKeys) : (s.setKeys w).dt = s.dt := rfl
@[simp] theorem State.setKeys_st (s : State) (w : Vector Bool Config.nKeys) : (s.setKeys w).st = s.st := rfl
@[simp] theorem State.setKeys_run (s : State) (w : Vector Bool Config.nKeys) : (s.setKeys w).run = s.run := rfl
@[simp] theorem State.setKeys_mem (s : State) (w : Vector Bool Config.nKeys) : (s.setKeys w).mem = s.mem := rfl
@[simp] theorem State.setKeys_keyWait (s : State) (w : Vector Bool Config.nKeys) : (s.setKeys w).keyWait = s.keyWait := rfl
@[simp] theorem State.setKeys_fb (s : State) (w : Vector Bool Config.nKeys) : (s.setKeys w).fb = s.fb := rfl
@[simp] theorem State.setKeys_pending (s : State) (w : Vector Bool Config.nKeys) : (s.setKeys w).pending = s.pending := rfl
@[simp] theorem State.setKeys_keys (s : State) (w : Vector Bool Config.nKeys) : (s.setKeys w).keys = w := rfl
@[simp] theorem State.setKeys_surfaceRunning (s : State) (w : Vector Bool Config.nKeys) : (s.setKeys w).surfaceRunning = s.surfaceRunning := rfl
@[simp] theorem State.setKeys_pollAnswer (s : State) (w : Vector Bool Config.nKeys) : (s.setKeys w).pollAnswer = s.pollAnswer := rfl
@[simp] theorem State.setKeys_schedule (s : State) (w : Vector Bool Config.nKeys) : (s.setKeys w).schedule = s.schedule := rfl
@[simp] theorem State.setKeys_turn (s : State) (w : Vector Bool Config.nKeys) : (s.setKeys w).turn = s.turn := rfl
@[simp] theorem State.setKeys_draws (s : State) (w : Vector Bool Config.nKeys) : (s.setKeys w).draws = s.draws := rfl
@[simp] theorem State.setKeys_reg (s : State) (w : Vector Bool Config.nKeys) (y : Reg) : (s.setKeys w).reg y = s.reg y := rfl
@[simp] theorem State.setKeys_sp (s : State) (w : Vector Bool Config.nKeys) : (s.setKeys w).sp = s.sp := rfl

@[simp] theorem State.setSurfaceRunning_v (s : State) (w : Bool) : (s.setSurfaceRunning w).v = s.v := rfl
@[simp] theorem State.setSurfaceRunning_index (s : State) (w : Bool) : (s.setSurfaceRunning w).index = s.index := rfl
@[simp] theorem State.setSurfaceRunning_pc (s : State) (w : Bool) : (s.setSurfaceRunning w).pc = s.pc := rfl
@[simp] theorem State.setSurfaceRunning_stack (s : State) (w : Bool) : (s.setSurfaceRunning w).stack = s.stack := rfl
@[simp] theorem State.setSurfaceRunning_dt (s : State) (w : Bool) : (s.setSurfaceRunning w).dt = s.dt := rfl
@[simp] theorem State.setSurfaceRunning_st (s : State) (w : Bool) : (s.setSurfaceRunning w).st = s.st := rfl
@[simp] theorem State.setSurfaceRunning_run (s : State) (w : Bool) : (s.setSurfaceRunning w).run = s.run := rfl
@[simp] theorem State.setSurfaceRunning_mem (s : State) (w : Bool) : (s.setSurfaceRunning w).mem = s.mem := rfl
@[simp] theorem State.setSurfaceRunning_keyWait (s : State) (w : Bool) : (s.setSurfaceRunning w).keyWait = s.keyWait := rfl
@[simp] theorem State.setSurfaceRunning_fb (s : State) (w : Bool) : (s.setSurfaceRunning w).fb = s.fb := rfl
@[simp] theorem State.setSurfaceRunning_pending (s : State) (w : Bool) : (s.setSurfaceRunning w).pending = s.pending := rfl
@[simp] theorem State.setSurfaceRunning_keys (s : State) (w : Bool) : (s.setSurfaceRunning w).keys = s.keys := rfl
@[simp] theorem State.setSurfaceRunning_surfaceRunning (s : State) (w : Bool) : (s.setSurfaceRunning w).surfaceRunning = w := rfl
@[simp] theorem State.setSurfaceRunning_pollAnswer (s : State) (w : Bool) : (s.setSurfaceRunning w).pollAnswer = s.pollAnswer := rfl
@[simp] theorem State.setSurfaceRunning_schedule (s : State) (w : Bool) : (s.setSurfaceRunning w).schedule = s.schedule := rfl
@[simp] theorem State.setSurfaceRunning_turn (s : State) (w : Bool) : (s.setSurfaceRunning w).turn = s.turn := rfl
@[simp] theorem State.setSurfaceRunning_draws (s : State) (w : Bool) : (s.setSurfaceRunning w).draws = s.draws := rfl
@[simp] theorem State.setSurfaceRunning_reg (s : State) (w : Bool) (y : Reg) : (s.setSurfaceRunning w).reg y = s.reg y := rfl
@[simp] theorem State.setSurfaceRunning_sp (s : State) (w : Bool) : (s.setSurfaceRunning w).sp = s.sp := rfl

@[simp] theorem State.setPollAnswer_v (s : State) (w : Option Byte) : (s.setPollAnswer w).v = s.v := rfl
@[simp] theorem State.setPollAnswer_index (s : State) (w : Option Byte) : (s.setPollAnswer w).index = s.index := rfl
@[simp] theorem State.setPollAnswer_pc (s : State) (w : Option Byte) : (s.setPollAnswer w).pc = s.pc := rfl
@[simp] theorem State.setPollAnswer_stack (s : State) (w : Option Byte) : (s.setPollAnswer w).stack = s.stack := rfl
@[simp] theorem State.setPollAnswer_dt (s : State) (w : Option Byte) : (s.setPollAnswer w).dt = s.dt := rfl
@[simp] theorem State.setPollAnswer_st (s : State) (w : Option Byte) : (s.setPollAnswer w).st = s.st := rfl
@[simp] theorem State.setPollAnswer_run (s : State) (w : Option Byte) : (s.setPollAnswer w).run = s.run := rfl
@[simp] theorem State.setPollAnswer_mem (s : State) (w : Option Byte) : (s.setPollAnswer w).mem = s.mem := rfl
@[simp] theorem State.setPollAnswer_keyWait (s : State) (w : Option Byte) : (s.setPollAnswer w).keyWait = s.keyWait := rfl
@[simp] theorem State.setPollAnswer_fb (s : State) (w : Option Byte) : (s.setPollAnswer w).fb = s.fb := rfl
@[simp] theorem State.setPollAnswer_pending (s : State) (w : Option Byte) : (s.setPollAnswer w).pending = s.pending := rfl
@[simp] theorem State.setPollAnswer_keys (s : State) (w : Option Byte) : (s.setPollAnswer w).keys = s.keys := rfl
@[simp] theorem State.setPollAnswer_surfaceRunning (s : State) (w : Option Byte) : (s.setPollAnswer w).surfaceRunning = s.surfaceRunning := rfl
@[simp] theorem State.setPollAnswer_pollAnswer (s : State) (w : Option Byte) : (s.setPollAnswer w).pollAnswer = w := rfl
@[simp] theorem State.setPollAnswer_schedule (s : State) (w : Option Byte) : (s.setPollAnswer w).schedule = s.schedule := rfl
@[simp] theorem State.setPollAnswer_turn (s : State) (w : Option Byte) : (s.setPollAnswer w).turn = s.turn := rfl
@[simp] theorem State.setPollAnswer_draws (s : State) (w : Option Byte) : (s.setPollAnswer w).draws = s.draws := rfl
@[simp] theorem State.setPollAnswer_reg (s : State) (w : Option Byte) (y : Reg) : (s.setPollAnswer w).reg y = s.reg y := rfl
@[simp] theorem State.setPollAnswer_sp (s : State) (w : Option Byte) : (s.setPollAnswer w).sp = s.sp := rfl

@[simp] theorem State.setSchedule_v (s : State) (w : List Config.AgentStep) : (s.setSchedule w).v = s.v := rfl
@[simp] theorem State.setSchedule_index (s : State) (w : List Config.AgentStep) : (s.setSchedule w).index = s.index := rfl
@[simp] theorem State.setSchedule_pc (s : State) (w : List Config.AgentStep) : (s.setSchedule w).pc = s.pc := rfl
@[simp] theorem State.setSchedule_stack (s : State) (w : List Config.AgentStep) : (s.setSchedule w).stack = s.stack := rfl
@[simp] theorem State.setSchedule_dt (s : State) (w : List Config.AgentStep) : (s.setSchedule w).dt = s.dt := rfl
@[simp] theorem State.setSchedule_st (s : State) (w : List Config.AgentStep) : (s.setSchedule w).st = s.st := rfl
@[simp] theorem State.setSchedule_run (s : State) (w : List Config.AgentStep) : (s.setSchedule w).run = s.run := rfl
@[simp] theorem State.setSchedule_mem (s : State) (w : List Config.AgentStep) : (s.setSchedule w).mem = s.mem := rfl
@[simp] theorem State.setSchedule_keyWait (s : State) (w : List Config.AgentStep) : (s.setSchedule w).keyWait = s.keyWait := rfl
@[simp] theorem State.setSchedule_fb (s : State) (w : List Config.AgentStep) : (s.setSchedule w).fb = s.fb := rfl
@[simp] theorem State.setSchedule_pending (s : State) (w : List Config.AgentStep) : (s.setSchedule w).pending = s.pending := rfl
@[simp] theorem State.setSchedule_keys (s : State) (w : List Config.AgentStep) : (s.setSchedule w).keys = s.keys := rfl
@[simp] theorem State.setSchedule_surfaceRunning (s : State) (w : List Config.AgentStep) : (s.setSchedule w).surfaceRunning = s.surfaceRunning := rfl
@[simp] theorem State.setSchedule_pollAnswer (s : State) (w : List Config.AgentStep) : (s.setSchedule w).pollAnswer = s.pollAnswer := rfl
@[simp] theorem State.setSchedule_schedule (s : State) (w : List Config.AgentStep) : (s.setSchedule w).schedule = w := rfl
@[simp] theorem State.setSchedule_turn (s : State) (w : List Config.AgentStep) : (s.setSchedule w).turn = s.turn := rfl
@[simp] theorem State.setSchedule_draws (s : State) (w : List Config.AgentStep) : (s.setSchedule w).draws = s.draws := rfl
@[simp] theorem State.setSchedule_reg (s : State) (w : List Config.AgentStep) (y : Reg) : (s.setSchedule w).reg y = s.reg y := rfl
@[simp] theorem State.setSchedule_sp (s : State) (w : List Config.AgentStep) : (s.setSchedule w).sp = s.sp := rfl

@[simp] theorem State.setTurn_v (s : State) (w : Nat) : (s.setTurn w).v = s.v := rfl
@[simp] theorem State.setTurn_index (s : State) (w : Nat) : (s.setTurn w).index = s.index := rfl
@[simp] theorem State.setTurn_pc (s : State) (w : Nat) : (s.setTurn w).pc = s.pc := rfl
@[simp] theorem State.setTurn_stack (s : State) (w : Nat) : (s.setTurn w).stack = s.stack := rfl
@[simp] theorem State.setTurn_dt (s : State) (w : Nat) : (s.setTurn w).dt = s.dt := rfl
@[simp] theorem State.setTurn_st (s : State) (w : Nat) : (s.setTurn w).st = s.st := rfl
@[simp] theorem State.setTurn_run (s : State) (w : Nat) : (s.setTurn w).run = s.run := rfl
@[simp] theorem State.setTurn_mem (s : State) (w : Nat) : (s.setTurn w).mem = s.mem := rfl
@[simp] theorem State.setTurn_keyWait (s : State) (w : Nat) : (s.setTurn w).keyWait = s.keyWait := rfl
@[simp] theorem State.setTurn_fb (s : State) (w : Nat) : (s.setTurn w).fb = s.fb := rfl
@[simp] theorem State.setTurn_pending (s : State) (w : Nat) : (s.setTurn w).pending = s.pending := rfl
@[simp] theorem State.setTurn_keys (s : State) (w : Nat) : (s.setTurn w).keys = s.keys := rfl
@[simp] theorem State.setTurn_surfaceRunning (s : State) (w : Nat) : (s.setTurn w).surfaceRunning = s.surfaceRunning := rfl
@[simp] theorem State.setTurn_pollAnswer (s : State) (w : Nat) : (s.setTurn w).pollAnswer = s.pollAnswer := rfl
@[simp] theorem State.setTurn_schedule (s : State) (w : Nat) : (s.setTurn w).schedule = s.schedule := rfl
@[simp] theorem State.setTurn_turn (s : State) (w : Nat) : (s.setTurn w).turn = w := rfl
@[simp] theorem State.setTurn_draws (s : State) (w : Nat) : (s.setTurn w).draws = s.draws := rfl
@[simp] theorem State.setTurn_reg (s : State) (w : Nat) (y : Reg) : (s.setTurn w).reg y = s.reg y := rfl
@[simp] theorem State.setTurn_sp (s : State) (w : Nat) : (s.setTurn w).sp = s.sp := rfl

@[simp] theorem State.setDraws_v (s : State) (w : Nat) : (s.setDraws w).v = s.v := rfl
@[simp] theorem State.setDraws_index (s : State) (w : Nat) : (s.setDraws w).index = s.index := rfl
@[simp] theorem State.setDraws_pc (s : State) (w : Nat) : (s.setDraws w).pc = s.pc := rfl
@[simp] theorem State.setDraws_stack (s : State) (w : Nat) : (s.setDraws w).stack = s.stack := rfl
@[simp] theorem State.setDraws_dt (s : State) (w : Nat) : (s.setDraws w).dt = s.dt := rfl
@[simp] theorem State.setDraws_st (s : State) (w : Nat) : (s.setDraws w).st = s.st := rfl
@[simp] theorem State.setDraws_run (s : State) (w : Nat) : (s.setDraws w).run = s.run := rfl
@[simp] theorem State.setDraws_mem (s : State) (w : Nat) : (s.setDraws w).mem = s.mem := rfl
@[simp] theorem State.setDraws_keyWait (s : State) (w : Nat) : (s.setDraws w).keyWait = s.keyWait := rfl
@[simp] theorem State.setDraws_fb (s : State) (w : Nat) : (s.setDraws w).fb = s.fb := rfl
@[simp] theorem State.setDraws_pending (s : State) (w : Nat) : (s.setDraws w).pending = s.pending := rfl
@[simp] theorem State.setDraws_keys (s : State) (w : Nat) : (s.setDraws w).keys = s.keys := rfl
@[simp] theorem State.setDraws_surfaceRunning (s : State) (w : Nat) : (s.setDraws w).surfaceRunning = s.surfaceRunning := rfl
@[simp] theorem State.setDraws_pollAnswer (s : State) (w : Nat) : (s.setDraws w).pollAnswer = s.pollAnswer := rfl
@[simp] theorem State.setDraws_schedule (s : State) (w : Nat) : (s.setDraws w).schedule = s.schedule := rfl
@[simp] theorem State.setDraws_turn (s : State) (w : Nat) : (s.setDraws w).turn = s.turn := rfl
@[simp] theorem State.setDraws_draws (s : State) (w : Nat) : (s.setDraws w).draws = w := rfl
@[simp] theorem State.setDraws_reg (s : State) (w : Nat) (y : Reg) : (s.setDraws w).reg y = s.reg y := rfl
@[simp] theorem State.setDraws_sp (s : State) (w : Nat) : (s.setDraws w).sp = s.sp := rfl

/-! ## The state operations -/

@[simp] theorem State.setReg_v (s : State) (x : Reg) (b : RegByte) : (s.setReg x b).v = s.v.set x b := rfl
@[simp] theorem State.setReg_index (s : State) (x : Reg) (b : RegByte) : (s.setReg x b).index = s.index := rfl
@[simp] theorem State.setReg_pc (s : State) (x : Reg) (b : RegByte) : (s.setReg x b).pc = s.pc := rfl
@[simp] theorem State.setReg_stack (s : State) (x : Reg) (b : RegByte) : (s.setReg x b).stack = s.stack := rfl
@[simp] theorem State.setReg_dt (s : State) (x : Reg) (b : RegByte) : (s.setReg x b).dt = s.dt := rfl
@[simp] theorem State.setReg_st (s : State) (x : Reg) (b : RegByte) : (s.setReg x b).st = s.st := rfl
@[simp] theorem State.setReg_run (s : State) (x : Reg) (b : RegByte) : (s.setReg x b).run = s.run := rfl
@[simp] theorem State.setReg_mem (s : State) (x : Reg) (b : RegByte) : (s.setReg x b).mem = s.mem := rfl
@[simp] theorem State.setReg_keyWait (s : State) (x : Reg) (b : RegByte) : (s.setReg x b).keyWait = s.keyWait := rfl
@[simp] theorem State.setReg_fb (s : State) (x : Reg) (b : RegByte) : (s.setReg x b).fb = s.fb := rfl
@[simp] theorem State.setReg_pending (s : State) (x : Reg) (b : RegByte) : (s.setReg x b).pending = s.pending := rfl
@[simp] theorem State.setReg_keys (s : State) (x : Reg) (b : RegByte) : (s.setReg x b).keys = s.keys := rfl
@[simp] theorem State.setReg_surfaceRunning (s : State) (x : Reg) (b : RegByte) : (s.setReg x b).surfaceRunning = s.surfaceRunning := rfl
@[simp] theorem State.setReg_pollAnswer (s : State) (x : Reg) (b : RegByte) : (s.setReg x b).pollAnswer = s.pollAnswer := rfl
@[simp] theorem State.setReg_schedule (s : State) (x : Reg) (b : RegByte) : (s.setReg x b).schedule = s.schedule := rfl
@[simp] theorem State.setReg_turn (s : State) (x : Reg) (b : RegByte) : (s.setReg x b).turn = s.turn := rfl
@[simp] theorem State.setReg_draws (s : State) (x : Reg) (b : RegByte) : (s.setReg x b).draws = s.draws := rfl
@[simp] theorem State.setReg_sp (s : State) (x : Reg) (b : RegByte) : (s.setReg x b).sp = s.sp := by simp [State.sp]

@[simp] theorem State.setResultThenFlag_v (s : State) (x : Reg) (b c : RegByte) : (s.setResultThenFlag x b c).v = (s.v.set x b).set vf c := rfl
@[simp] theorem State.setResultThenFlag_index (s : State) (x : Reg) (b c : RegByte) : (s.setResultThenFlag x b c).index = s.index := rfl
@[simp] theorem State.setResultThenFlag_pc (s : State) (x : Reg) (b c : RegByte) : (s.setResultThenFlag x b c).pc = s.pc := rfl
@[simp] theorem State.setResultThenFlag_stack (s : State) (x : Reg) (b c : RegByte) : (s.setResultThenFlag x b c).stack = s.stack := rfl
@[simp] theorem State.setResultThenFlag_dt (s : State) (x : Reg) (b c : RegByte) : (s.setResultThenFlag x b c).dt = s.dt := rfl
@[simp] theorem State.setResultThenFlag_st (s : State) (x : Reg) (b c : RegByte) : (s.setResultThenFlag x b c).st = s.st := rfl
@[simp] theorem State.setResultThenFlag_run (s : State) (x : Reg) (b c : RegByte) : (s.setResultThenFlag x b c).run = s.run := rfl
@[simp] theorem State.setResultThenFlag_mem (s : State) (x : Reg) (b c : RegByte) : (s.setResultThenFlag x b c).mem = s.mem := rfl
@[simp] theorem State.setResultThenFlag_keyWait (s : State) (x : Reg) (b c : RegByte) : (s.setResultThenFlag x b c).keyWait = s.keyWait := rfl
@[simp] theorem State.setResultThenFlag_fb (s : State) (x : Reg) (b c : RegByte) : (s.setResultThenFlag x b c).fb = s.fb := rfl
@[simp] theorem State.setResultThenFlag_pending (s : State) (x : Reg) (b c : RegByte) : (s.setResultThenFlag x b c).pending = s.pending := rfl
@[simp] theorem State.setResultThenFlag_keys (s : State) (x : Reg) (b c : RegByte) : (s.setResultThenFlag x b c).keys = s.keys := rfl
@[simp] theorem State.setResultThenFlag_surfaceRunning (s : State) (x : Reg) (b c : RegByte) : (s.setResultThenFlag x b c).surfaceRunning = s.surfaceRunning := rfl
@[simp] theorem State.setResultThenFlag_pollAnswer (s : State) (x : Reg) (b c : RegByte) : (s.setResultThenFlag x b c).pollAnswer = s.pollAnswer := rfl
@[simp] theorem State.setResultThenFlag_schedule (s : State) (x : Reg) (b c : RegByte) : (s.setResultThenFlag x b c).schedule = s.schedule := rfl
@[simp] theorem State.setResultThenFlag_turn (s : State) (x : Reg) (b c : RegByte) : (s.setResultThenFlag x b c).turn = s.turn := rfl
@[simp] theorem State.setResultThenFlag_draws (s : State) (x : Reg) (b c : RegByte) : (s.setResultThenFlag x b c).draws = s.draws := rfl
@[simp] theorem State.setResultThenFlag_sp (s : State) (x : Reg) (b c : RegByte) : (s.setResultThenFlag x b c).sp = s.sp := by simp [State.sp]

@[simp] theorem State.advance_v (s : State) : (s.advance).v = s.v := rfl
@[simp] theorem State.advance_index (s : State) : (s.advance).index = s.index := rfl
@[simp] theorem State.advance_pc (s : State) : (s.advance).pc = s.pc + 2 := rfl
@[simp] theorem State.advance_stack (s : State) : (s.advance).stack = s.stack := rfl
@[simp] theorem State.advance_dt (s : State) : (s.advance).dt = s.dt := rfl
@[simp] theorem State.advance_st (s : State) : (s.advance).st = s.st := rfl
@[simp] theorem State.advance_run (s : State) : (s.advance).run = s.run := rfl
@[simp] theorem State.advance_mem (s : State) : (s.advance).mem = s.mem := rfl
@[simp] theorem State.advance_keyWait (s : State) : (s.advance).keyWait = s.keyWait := rfl
@[simp] theorem State.advance_fb (s : State) : (s.advance).fb = s.fb := rfl
@[simp] theorem State.advance_pending (s : State) : (s.advance).pending = s.pending := rfl
@[simp] theorem State.advance_keys (s : State) : (s.advance).keys = s.keys := rfl
@[simp] theorem State.advance_surfaceRunning (s : State) : (s.advance).surfaceRunning = s.surfaceRunning := rfl
@[simp] theorem State.advance_pollAnswer (s : State) : (s.advance).pollAnswer = s.pollAnswer := rfl
@[simp] theorem State.advance_schedule (s : State) : (s.advance).schedule = s.schedule := rfl
@[simp] theorem State.advance_turn (s : State) : (s.advance).turn = s.turn := rfl
@[simp] theorem State.advance_draws (s : State) : (s.advance).draws = s.draws := rfl
@[simp] theorem State.advance_reg (s : State) (y : Reg) : (s.advance).reg y = s.reg y := by simp [State.reg]
@[simp] theorem State.advance_sp (s : State) : (s.advance).sp = s.sp := by simp [State.sp]

@[simp] theorem State.skipIf_v (s : State) (c : Bool) : (s.skipIf c).v = s.v := by cases c <;> rfl
@[simp] theorem State.skipIf_index (s : State) (c : Bool) : (s.skipIf c).index = s.index := by cases c <;> rfl
@[simp] theorem State.skipIf_pc (s : State) (c : Bool) : (s.skipIf c).pc = (if c then s.pc + 2 else s.pc) + 2 := by cases c <;> rfl
@[simp] theorem State.skipIf_stack (s : State) (c : Bool) : (s.skipIf c).stack = s.stack := by cases c <;> rfl
@[simp] theorem State.skipIf_dt (s : State) (c : Bool) : (s.skipIf c).dt = s.dt := by cases c <;> rfl
@[simp] theorem State.skipIf_st (s : State) (c : Bool) : (s.skipIf c).st = s.st := by cases c <;> rfl
@[simp] theorem State.skipIf_run (s : State) (c : Bool) : (s.skipIf c).run = s.run := by cases c <;> rfl
@[simp] theorem State.skipIf_mem (s : State) (c : Bool) : (s.skipIf c).mem = s.mem := by cases c <;> rfl
@[simp] theorem State.skipIf_keyWait (s : State) (c : Bool) : (s.skipIf c).keyWait = s.keyWait := by cases c <;> rfl
@[simp] theorem State.skipIf_fb (s : State) (c : Bool) : (s.skipIf c).fb = s.fb := by cases c <;> rfl
@[simp] theorem State.skipIf_pending (s : State) (c : Bool) : (s.skipIf c).pending = s.pending := by cases c <;> rfl
@[simp] theorem State.skipIf_keys (s : State) (c : Bool) : (s.skipIf c).keys = s.keys := by cases c <;> rfl
@[simp] theorem State.skipIf_surfaceRunning (s : State) (c : Bool) : (s.skipIf c).surfaceRunning = s.surfaceRunning := by cases c <;> rfl
@[simp] theorem State.skipIf_pollAnswer (s : State) (c : Bool) : (s.skipIf c).pollAnswer = s.pollAnswer := by cases c <;> rfl
@[simp] theorem State.skipIf_schedule (s : State) (c : Bool) : (s.skipIf c).schedule = s.schedule := by cases c <;> rfl
@[simp] theorem State.skipIf_turn (s : State) (c : Bool) : (s.skipIf c).turn = s.turn := by cases c <;> rfl
@[simp] theorem State.skipIf_draws (s : State) (c : Bool) : (s.skipIf c).draws = s.draws := by cases c <;> rfl
@[simp] theorem State.skipIf_reg (s : State) (c : Bool) (y : Reg) : (s.skipIf c).reg y = s.reg y := by simp [State.reg]
@[simp] theorem State.skipIf_sp (s : State) (c : Bool) : (s.skipIf c).sp = s.sp := by simp [State.sp]

@[simp] theorem State.halt_v (s : State) (r : HaltReason) : (s.halt r).v = s.v := rfl
@[simp] theorem State.halt_index (s : State) (r : HaltReason) : (s.halt r).index = s.index := rfl
@[simp] theorem State.halt_pc (s : State) (r : HaltReason) : (s.halt r).pc = s.pc := rfl
@[simp] theorem State.halt_stack (s : State) (r : HaltReason) : (s.halt r).stack = s.stack := rfl
@[simp] theorem State.halt_dt (s : State) (r : HaltReason) : (s.halt r).dt = s.dt := rfl
@[simp] theorem State.halt_st (s : State) (r : HaltReason) : (s.halt r).st = s.st := rfl
@[simp] theorem State.halt_run (s : State) (r : HaltReason) : (s.halt r).run = .halted r := rfl
@[simp] theorem State.halt_mem (s : State) (r : HaltReason) : (s.halt r).mem = s.mem := rfl
@[simp] theorem State.halt_keyWait (s : State) (r : HaltReason) : (s.halt r).keyWait = s.keyWait := rfl
@[simp] theorem State.halt_fb (s : State) (r : HaltReason) : (s.halt r).fb = s.fb := rfl
@[simp] theorem State.halt_pending (s : State) (r : HaltReason) : (s.halt r).pending = s.pending := rfl
@[simp] theorem State.halt_keys (s : State) (r : HaltReason) : (s.halt r).keys = s.keys := rfl
@[simp] theorem State.halt_surfaceRunning (s : State) (r : HaltReason) : (s.halt r).surfaceRunning = s.surfaceRunning := rfl
@[simp] theorem State.halt_pollAnswer (s : State) (r : HaltReason) : (s.halt r).pollAnswer = s.pollAnswer := rfl
@[simp] theorem State.halt_schedule (s : State) (r : HaltReason) : (s.halt r).schedule = s.schedule := rfl
@[simp] theorem State.halt_turn (s : State) (r : HaltReason) : (s.halt r).turn = s.turn := rfl
@[simp] theorem State.halt_draws (s : State) (r : HaltReason) : (s.halt r).draws = s.draws := rfl
@[simp] theorem State.halt_reg (s : State) (r : HaltReason) (y : Reg) : (s.halt r).reg y = s.reg y := by simp [State.reg]
@[simp] theorem State.halt_sp (s : State) (r : HaltReason) : (s.halt r).sp = s.sp := by simp [State.sp]

@[simp] theorem State.push_v (s : State) (a : StackEntry) : (s.push a).v = s.v := rfl
@[simp] theorem State.push_index (s : State) (a : StackEntry) : (s.push a).index = s.index := rfl
@[simp] theorem State.push_pc (s : State) (a : StackEntry) : (s.push a).pc = s.pc := rfl
@[simp] theorem State.push_stack (s : State) (a : StackEntry) : (s.push a).stack = a :: s.stack := rfl
@[simp] theorem State.push_dt (s : State) (a : StackEntry) : (s.push a).dt = s.dt := rfl
@[simp] theorem State.push_st (s : State) (a : StackEntry) : (s.push a).st = s.st := rfl
@[simp] theorem State.push_run (s : State) (a : StackEntry) : (s.push a).run = s.run := rfl
@[simp] theorem State.push_mem (s : State) (a : StackEntry) : (s.push a).mem = s.mem := rfl
@[simp] theorem State.push_keyWait (s : State) (a : StackEntry) : (s.push a).keyWait = s.keyWait := rfl
@[simp] theorem State.push_fb (s : State) (a : StackEntry) : (s.push a).fb = s.fb := rfl
@[simp] theorem State.push_pending (s : State) (a : StackEntry) : (s.push a).pending = s.pending := rfl
@[simp] theorem State.push_keys (s : State) (a : StackEntry) : (s.push a).keys = s.keys := rfl
@[simp] theorem State.push_surfaceRunning (s : State) (a : StackEntry) : (s.push a).surfaceRunning = s.surfaceRunning := rfl
@[simp] theorem State.push_pollAnswer (s : State) (a : StackEntry) : (s.push a).pollAnswer = s.pollAnswer := rfl
@[simp] theorem State.push_schedule (s : State) (a : StackEntry) : (s.push a).schedule = s.schedule := rfl
@[simp] theorem State.push_turn (s : State) (a : StackEntry) : (s.push a).turn = s.turn := rfl
@[simp] theorem State.push_draws (s : State) (a : StackEntry) : (s.push a).draws = s.draws := rfl
@[simp] theorem State.push_reg (s : State) (a : StackEntry) (y : Reg) : (s.push a).reg y = s.reg y := by simp [State.reg]

@[simp] theorem State.fillRegs_index (s : State) (x : Reg) (a : Nat) : (s.fillRegs x a).index = s.index := rfl
@[simp] theorem State.fillRegs_pc (s : State) (x : Reg) (a : Nat) : (s.fillRegs x a).pc = s.pc := rfl
@[simp] theorem State.fillRegs_stack (s : State) (x : Reg) (a : Nat) : (s.fillRegs x a).stack = s.stack := rfl
@[simp] theorem State.fillRegs_dt (s : State) (x : Reg) (a : Nat) : (s.fillRegs x a).dt = s.dt := rfl
@[simp] theorem State.fillRegs_st (s : State) (x : Reg) (a : Nat) : (s.fillRegs x a).st = s.st := rfl
@[simp] theorem State.fillRegs_run (s : State) (x : Reg) (a : Nat) : (s.fillRegs x a).run = s.run := rfl
@[simp] theorem State.fillRegs_mem (s : State) (x : Reg) (a : Nat) : (s.fillRegs x a).mem = s.mem := rfl
@[simp] theorem State.fillRegs_keyWait (s : State) (x : Reg) (a : Nat) : (s.fillRegs x a).keyWait = s.keyWait := rfl
@[simp] theorem State.fillRegs_fb (s : State) (x : Reg) (a : Nat) : (s.fillRegs x a).fb = s.fb := rfl
@[simp] theorem State.fillRegs_pending (s : State) (x : Reg) (a : Nat) : (s.fillRegs x a).pending = s.pending := rfl
@[simp] theorem State.fillRegs_keys (s : State) (x : Reg) (a : Nat) : (s.fillRegs x a).keys = s.keys := rfl
@[simp] theorem State.fillRegs_surfaceRunning (s : State) (x : Reg) (a : Nat) : (s.fillRegs x a).surfaceRunning = s.surfaceRunning := rfl
@[simp] theorem State.fillRegs_pollAnswer (s : State) (x : Reg) (a : Nat) : (s.fillRegs x a).pollAnswer = s.pollAnswer := rfl
@[simp] theorem State.fillRegs_schedule (s : State) (x : Reg) (a : Nat) : (s.fillRegs x a).schedule = s.schedule := rfl
@[simp] theorem State.fillRegs_turn (s : State) (x : Reg) (a : Nat) : (s.fillRegs x a).turn = s.turn := rfl
@[simp] theorem State.fillRegs_draws (s : State) (x : Reg) (a : Nat) : (s.fillRegs x a).draws = s.draws := rfl
@[simp] theorem State.fillRegs_sp (s : State) (x : Reg) (a : Nat) : (s.fillRegs x a).sp = s.sp := by simp [State.sp]

@[simp] theorem State.clearFrame_v (s : State) : (s.clearFrame).v = s.v := rfl
@[simp] theorem State.clearFrame_index (s : State) : (s.clearFrame).index = s.index := rfl
@[simp] theorem State.clearFrame_pc (s : State) : (s.clearFrame).pc = s.pc := rfl
@[simp] theorem State.clearFrame_stack (s : State) : (s.clearFrame).stack = s.stack := rfl
@[simp] theorem State.clearFrame_dt (s : State) : (s.clearFrame).dt = s.dt := rfl
@[simp] theorem State.clearFrame_st (s : State) : (s.clearFrame).st = s.st := rfl
@[simp] theorem State.clearFrame_run (s : State) : (s.clearFrame).run = s.run := rfl
@[simp] theorem State.clearFrame_mem (s : State) : (s.clearFrame).mem = s.mem := rfl
@[simp] theorem State.clearFrame_keyWait (s : State) : (s.clearFrame).keyWait = s.keyWait := rfl
@[simp] theorem State.clearFrame_fb (s : State) : (s.clearFrame).fb = blankFrame := rfl
@[simp] theorem State.clearFrame_pending (s : State) : (s.clearFrame).pending = s.pending := rfl
@[simp] theorem State.clearFrame_keys (s : State) : (s.clearFrame).keys = s.keys := rfl
@[simp] theorem State.clearFrame_surfaceRunning (s : State) : (s.clearFrame).surfaceRunning = s.surfaceRunning := rfl
@[simp] theorem State.clearFrame_pollAnswer (s : State) : (s.clearFrame).pollAnswer = s.pollAnswer := rfl
@[simp] theorem State.clearFrame_schedule (s : State) : (s.clearFrame).schedule = s.schedule := rfl
@[simp] theorem State.clearFrame_turn (s : State) : (s.clearFrame).turn = s.turn := rfl
@[simp] theorem State.clearFrame_draws (s : State) : (s.clearFrame).draws = s.draws := rfl
@[simp] theorem State.clearFrame_reg (s : State) (y : Reg) : (s.clearFrame).reg y = s.reg y := by simp [State.reg]
@[simp] theorem State.clearFrame_sp (s : State) : (s.clearFrame).sp = s.sp := by simp [State.sp]

@[simp] theorem State.publishFrame_v (s : State) : (s.publishFrame).v = s.v := rfl
@[simp] theorem State.publishFrame_index (s : State) : (s.publishFrame).index = s.index := rfl
@[simp] theorem State.publishFrame_pc (s : State) : (s.publishFrame).pc = s.pc := rfl
@[simp] theorem State.publishFrame_stack (s : State) : (s.publishFrame).stack = s.stack := rfl
@[simp] theorem State.publishFrame_dt (s : State) : (s.publishFrame).dt = s.dt := rfl
@[simp] theorem State.publishFrame_st (s : State) : (s.publishFrame).st = s.st := rfl
@[simp] theorem State.publishFrame_run (s : State) : (s.publishFrame).run = s.run := rfl
@[simp] theorem State.publishFrame_mem (s : State) : (s.publishFrame).mem = s.mem := rfl
@[simp] theorem State.publishFrame_keyWait (s : State) : (s.publishFrame).keyWait = s.keyWait := rfl
@[simp] theorem State.publishFrame_fb (s : State) : (s.publishFrame).fb = s.fb := rfl
@[simp] theorem State.publishFrame_pending (s : State) : (s.publishFrame).pending = some s.fb := rfl
@[simp] theorem State.publishFrame_keys (s : State) : (s.publishFrame).keys = s.keys := rfl
@[simp] theorem State.publishFrame_surfaceRunning (s : State) : (s.publishFrame).surfaceRunning = s.surfaceRunning := rfl
@[simp] theorem State.publishFrame_pollAnswer (s : State) : (s.publishFrame).pollAnswer = s.pollAnswer := rfl
@[simp] theorem State.publishFrame_schedule (s : State) : (s.publishFrame).schedule = s.schedule := rfl
@[simp] theorem State.publishFrame_turn (s : State) : (s.publishFrame).turn = s.turn := rfl
@[simp] theorem State.publishFrame_draws (s : State) : (s.publishFrame).draws = s.draws := rfl
@[simp] theorem State.publishFrame_reg (s : State) (y : Reg) : (s.publishFrame).reg y = s.reg y := by simp [State.reg]
@[simp] theorem State.publishFrame_sp (s : State) : (s.publishFrame).sp = s.sp := by simp [State.sp]

@[simp] theorem State.tickDelay_v (s : State) : (s.tickDelay).v = s.v := rfl
@[simp] theorem State.tickDelay_index (s : State) : (s.tickDelay).index = s.index := rfl
@[simp] theorem State.tickDelay_pc (s : State) : (s.tickDelay).pc = s.pc := rfl
@[simp] theorem State.tickDelay_stack (s : State) : (s.tickDelay).stack = s.stack := rfl
@[simp] theorem State.tickDelay_dt (s : State) : (s.tickDelay).dt = tickValue s.dt := rfl
@[simp] theorem State.tickDelay_st (s : State) : (s.tickDelay).st = s.st := rfl
@[simp] theorem State.tickDelay_run (s : State) : (s.tickDelay).run = s.run := rfl
@[simp] theorem State.tickDelay_mem (s : State) : (s.tickDelay).mem = s.mem := rfl
@[simp] theorem State.tickDelay_keyWait (s : State) : (s.tickDelay).keyWait = s.keyWait := rfl
@[simp] theorem State.tickDelay_fb (s : State) : (s.tickDelay).fb = s.fb := rfl
@[simp] theorem State.tickDelay_pending (s : State) : (s.tickDelay).pending = s.pending := rfl
@[simp] theorem State.tickDelay_keys (s : State) : (s.tickDelay).keys = s.keys := rfl
@[simp] theorem State.tickDelay_surfaceRunning (s : State) : (s.tickDelay).surfaceRunning = s.surfaceRunning := rfl
@[simp] theorem State.tickDelay_pollAnswer (s : State) : (s.tickDelay).pollAnswer = s.pollAnswer := rfl
@[simp] theorem State.tickDelay_schedule (s : State) : (s.tickDelay).schedule = s.schedule := rfl
@[simp] theorem State.tickDelay_turn (s : State) : (s.tickDelay).turn = s.turn := rfl
@[simp] theorem State.tickDelay_draws (s : State) : (s.tickDelay).draws = s.draws := rfl
@[simp] theorem State.tickDelay_reg (s : State) (y : Reg) : (s.tickDelay).reg y = s.reg y := by simp [State.reg]
@[simp] theorem State.tickDelay_sp (s : State) : (s.tickDelay).sp = s.sp := by simp [State.sp]

@[simp] theorem State.tickSound_v (s : State) : (s.tickSound).v = s.v := rfl
@[simp] theorem State.tickSound_index (s : State) : (s.tickSound).index = s.index := rfl
@[simp] theorem State.tickSound_pc (s : State) : (s.tickSound).pc = s.pc := rfl
@[simp] theorem State.tickSound_stack (s : State) : (s.tickSound).stack = s.stack := rfl
@[simp] theorem State.tickSound_dt (s : State) : (s.tickSound).dt = s.dt := rfl
@[simp] theorem State.tickSound_st (s : State) : (s.tickSound).st = tickValue s.st := rfl
@[simp] theorem State.tickSound_run (s : State) : (s.tickSound).run = s.run := rfl
@[simp] theorem State.tickSound_mem (s : State) : (s.tickSound).mem = s.mem := rfl
@[simp] theorem State.tickSound_keyWait (s : State) : (s.tickSound).keyWait = s.keyWait := rfl
@[simp] theorem State.tickSound_fb (s : State) : (s.tickSound).fb = s.fb := rfl
@[simp] theorem State.tickSound_pending (s : State) : (s.tickSound).pending = s.pending := rfl
@[simp] theorem State.tickSound_keys (s : State) : (s.tickSound).keys = s.keys := rfl
@[simp] theorem State.tickSound_surfaceRunning (s : State) : (s.tickSound).surfaceRunning = s.surfaceRunning := rfl
@[simp] theorem State.tickSound_pollAnswer (s : State) : (s.tickSound).pollAnswer = s.pollAnswer := rfl
@[simp] theorem State.tickSound_schedule (s : State) : (s.tickSound).schedule = s.schedule := rfl
@[simp] theorem State.tickSound_turn (s : State) : (s.tickSound).turn = s.turn := rfl
@[simp] theorem State.tickSound_draws (s : State) : (s.tickSound).draws = s.draws := rfl
@[simp] theorem State.tickSound_reg (s : State) (y : Reg) : (s.tickSound).reg y = s.reg y := by simp [State.reg]
@[simp] theorem State.tickSound_sp (s : State) : (s.tickSound).sp = s.sp := by simp [State.sp]

@[simp] theorem State.storeDelay_v (s : State) (b : TimerByte) : (s.storeDelay b).v = s.v := rfl
@[simp] theorem State.storeDelay_index (s : State) (b : TimerByte) : (s.storeDelay b).index = s.index := rfl
@[simp] theorem State.storeDelay_pc (s : State) (b : TimerByte) : (s.storeDelay b).pc = s.pc := rfl
@[simp] theorem State.storeDelay_stack (s : State) (b : TimerByte) : (s.storeDelay b).stack = s.stack := rfl
@[simp] theorem State.storeDelay_dt (s : State) (b : TimerByte) : (s.storeDelay b).dt = b := rfl
@[simp] theorem State.storeDelay_st (s : State) (b : TimerByte) : (s.storeDelay b).st = s.st := rfl
@[simp] theorem State.storeDelay_run (s : State) (b : TimerByte) : (s.storeDelay b).run = s.run := rfl
@[simp] theorem State.storeDelay_mem (s : State) (b : TimerByte) : (s.storeDelay b).mem = s.mem := rfl
@[simp] theorem State.storeDelay_keyWait (s : State) (b : TimerByte) : (s.storeDelay b).keyWait = s.keyWait := rfl
@[simp] theorem State.storeDelay_fb (s : State) (b : TimerByte) : (s.storeDelay b).fb = s.fb := rfl
@[simp] theorem State.storeDelay_pending (s : State) (b : TimerByte) : (s.storeDelay b).pending = s.pending := rfl
@[simp] theorem State.storeDelay_keys (s : State) (b : TimerByte) : (s.storeDelay b).keys = s.keys := rfl
@[simp] theorem State.storeDelay_surfaceRunning (s : State) (b : TimerByte) : (s.storeDelay b).surfaceRunning = s.surfaceRunning := rfl
@[simp] theorem State.storeDelay_pollAnswer (s : State) (b : TimerByte) : (s.storeDelay b).pollAnswer = s.pollAnswer := rfl
@[simp] theorem State.storeDelay_schedule (s : State) (b : TimerByte) : (s.storeDelay b).schedule = s.schedule := rfl
@[simp] theorem State.storeDelay_turn (s : State) (b : TimerByte) : (s.storeDelay b).turn = s.turn := rfl
@[simp] theorem State.storeDelay_draws (s : State) (b : TimerByte) : (s.storeDelay b).draws = s.draws := rfl
@[simp] theorem State.storeDelay_reg (s : State) (b : TimerByte) (y : Reg) : (s.storeDelay b).reg y = s.reg y := by simp [State.reg]
@[simp] theorem State.storeDelay_sp (s : State) (b : TimerByte) : (s.storeDelay b).sp = s.sp := by simp [State.sp]

@[simp] theorem State.storeSound_v (s : State) (b : TimerByte) : (s.storeSound b).v = s.v := rfl
@[simp] theorem State.storeSound_index (s : State) (b : TimerByte) : (s.storeSound b).index = s.index := rfl
@[simp] theorem State.storeSound_pc (s : State) (b : TimerByte) : (s.storeSound b).pc = s.pc := rfl
@[simp] theorem State.storeSound_stack (s : State) (b : TimerByte) : (s.storeSound b).stack = s.stack := rfl
@[simp] theorem State.storeSound_dt (s : State) (b : TimerByte) : (s.storeSound b).dt = s.dt := rfl
@[simp] theorem State.storeSound_st (s : State) (b : TimerByte) : (s.storeSound b).st = b := rfl
@[simp] theorem State.storeSound_run (s : State) (b : TimerByte) : (s.storeSound b).run = s.run := rfl
@[simp] theorem State.storeSound_mem (s : State) (b : TimerByte) : (s.storeSound b).mem = s.mem := rfl
@[simp] theorem State.storeSound_keyWait (s : State) (b : TimerByte) : (s.storeSound b).keyWait = s.keyWait := rfl
@[simp] theorem State.storeSound_fb (s : State) (b : TimerByte) : (s.storeSound b).fb = s.fb := rfl
@[simp] theorem State.storeSound_pending (s : State) (b : TimerByte) : (s.storeSound b).pending = s.pending := rfl
@[simp] theorem State.storeSound_keys (s : State) (b : TimerByte) : (s.storeSound b).keys = s.keys := rfl
@[simp] theorem State.storeSound_surfaceRunning (s : State) (b : TimerByte) : (s.storeSound b).surfaceRunning = s.surfaceRunning := rfl
@[simp] theorem State.storeSound_pollAnswer (s : State) (b : TimerByte) : (s.storeSound b).pollAnswer = s.pollAnswer := rfl
@[simp] theorem State.storeSound_schedule (s : State) (b : TimerByte) : (s.storeSound b).schedule = s.schedule := rfl
@[simp] theorem State.storeSound_turn (s : State) (b : TimerByte) : (s.storeSound b).turn = s.turn := rfl
@[simp] theorem State.storeSound_draws (s : State) (b : TimerByte) : (s.storeSound b).draws = s.draws := rfl
@[simp] theorem State.storeSound_reg (s : State) (b : TimerByte) (y : Reg) : (s.storeSound b).reg y = s.reg y := by simp [State.reg]
@[simp] theorem State.storeSound_sp (s : State) (b : TimerByte) : (s.storeSound b).sp = s.sp := by simp [State.sp]

@[simp] theorem State.afterChoice_v (s : State) : (s.afterChoice).v = s.v := by
  cases h : s.schedule <;> simp [State.afterChoice, h]
@[simp] theorem State.afterChoice_index (s : State) : (s.afterChoice).index = s.index := by
  cases h : s.schedule <;> simp [State.afterChoice, h]
@[simp] theorem State.afterChoice_pc (s : State) : (s.afterChoice).pc = s.pc := by
  cases h : s.schedule <;> simp [State.afterChoice, h]
@[simp] theorem State.afterChoice_stack (s : State) : (s.afterChoice).stack = s.stack := by
  cases h : s.schedule <;> simp [State.afterChoice, h]
@[simp] theorem State.afterChoice_dt (s : State) : (s.afterChoice).dt = s.dt := by
  cases h : s.schedule <;> simp [State.afterChoice, h]
@[simp] theorem State.afterChoice_st (s : State) : (s.afterChoice).st = s.st := by
  cases h : s.schedule <;> simp [State.afterChoice, h]
@[simp] theorem State.afterChoice_run (s : State) : (s.afterChoice).run = s.run := by
  cases h : s.schedule <;> simp [State.afterChoice, h]
@[simp] theorem State.afterChoice_mem (s : State) : (s.afterChoice).mem = s.mem := by
  cases h : s.schedule <;> simp [State.afterChoice, h]
@[simp] theorem State.afterChoice_keyWait (s : State) : (s.afterChoice).keyWait = s.keyWait := by
  cases h : s.schedule <;> simp [State.afterChoice, h]
@[simp] theorem State.afterChoice_fb (s : State) : (s.afterChoice).fb = s.fb := by
  cases h : s.schedule <;> simp [State.afterChoice, h]
@[simp] theorem State.afterChoice_pending (s : State) : (s.afterChoice).pending = s.pending := by
  cases h : s.schedule <;> simp [State.afterChoice, h]
@[simp] theorem State.afterChoice_keys (s : State) : (s.afterChoice).keys = s.keys := by
  cases h : s.schedule <;> simp [State.afterChoice, h]
@[simp] theorem State.afterChoice_surfaceRunning (s : State) : (s.afterChoice).surfaceRunning = s.surfaceRunning := by
  cases h : s.schedule <;> simp [State.afterChoice, h]
@[simp] theorem State.afterChoice_pollAnswer (s : State) : (s.afterChoice).pollAnswer = s.pollAnswer := by
  cases h : s.schedule <;> simp [State.afterChoice, h]
@[simp] theorem State.afterChoice_schedule (s : State) : (s.afterChoice).schedule = s.upcoming.tail := by
  cases h : s.schedule <;> simp [State.afterChoice, State.upcoming, h]
@[simp] theorem State.afterChoice_draws (s : State) : (s.afterChoice).draws = s.draws := by
  cases h : s.schedule <;> simp [State.afterChoice, h]
@[simp] theorem State.afterChoice_reg (s : State) (y : Reg) : (s.afterChoice).reg y = s.reg y := by simp [State.reg]
@[simp] theorem State.afterChoice_sp (s : State) : (s.afterChoice).sp = s.sp := by simp [State.sp]

@[simp] theorem State.push_sp (s : State) (a : StackEntry) : (s.push a).sp = s.sp + 1 := rfl

/-! ## Reading a register after a write -/

@[simp] theorem State.setReg_reg_self (s : State) (x : Reg) (b : RegByte) : (s.setReg x b).reg x = b := by
  simp [State.reg]

theorem State.setReg_reg_ne (s : State) (x y : Reg) (b : RegByte) (h : y ≠ x) : (s.setReg x b).reg y = s.reg y := by
  simp only [State.reg, State.setReg_v, Fin.getElem_fin]
  exact Vector.getElem_set_ne _ _ (fun e => h (Fin.ext e.symm))

theorem State.setReg_reg (s : State) (x y : Reg) (b : RegByte) :
    (s.setReg x b).reg y = if y = x then b else s.reg y := by
  by_cases h : y = x
  · simp [h]
  · simp [h, State.setReg_reg_ne]

theorem State.setResultThenFlag_eq (s : State) (x : Reg) (b c : RegByte) :
    s.setResultThenFlag x b c = (s.setReg x b).setReg vf c := rfl

@[simp] theorem State.setResultThenFlag_vf (s : State) (x : Reg) (b c : RegByte) :
    (s.setResultThenFlag x b c).reg vf = c := by simp [State.setResultThenFlag_eq]

theorem State.setResultThenFlag_reg (s : State) (x y : Reg) (b c : RegByte) :
    (s.setResultThenFlag x b c).reg y = if y = vf then c else if y = x then b else s.reg y := by
  simp [State.setResultThenFlag_eq, State.setReg_reg]

theorem State.fillRegs_reg (s : State) (x y : Reg) (a : Nat) :
    (s.fillRegs x a).reg y = if y ≤ x then Memory.read s.mem (a + y.val) else s.reg y := by
  simp [State.reg, State.fillRegs, State.setV]

/-- Two states with the same fields are the same. -/
theorem State.eq_of_fields {s t : State} (hv : t.v = s.v) (hi : t.index = s.index) (hp : t.pc = s.pc)
    (hk : t.stack = s.stack) (hd : t.dt = s.dt) (hs : t.st = s.st) (hr : t.run = s.run) (hm : t.mem = s.mem)
    (hw : t.keyWait = s.keyWait) (hf : t.fb = s.fb) (hq : t.pending = s.pending) (hy : t.keys = s.keys)
    (hu : t.surfaceRunning = s.surfaceRunning) (ha : t.pollAnswer = s.pollAnswer) (hc : t.schedule = s.schedule)
    (ht : t.turn = s.turn) (hz : t.draws = s.draws) : t = s := by
  cases s; cases t; simp_all

end Sys2Proof.Machine
end

