-- ==== Sys2Proof/Laws/Memory.lean ====
section
/-! SUPPORT. The laws of memory: a read after a write, the canonical form, consecutive bytes, the range check. -/

namespace Sys2Proof.Machine

/-! ## Erase and insert -/

theorem Memory.read_erase_self (m : Memory) (a : Nat) : Memory.read (Memory.erase m a) a = resetByte a := by
  induction m with
  | nil => rfl
  | cons c m ih =>
    simp only [Memory.erase, List.filter_cons] at ih ⊢
    by_cases h : c.1 = a
    · simpa [h] using ih
    · simpa [h, Memory.read] using ih

theorem Memory.read_erase_ne (m : Memory) (a d : Nat) (hd : d ≠ a) :
    Memory.read (Memory.erase m a) d = Memory.read m d := by
  induction m with
  | nil => rfl
  | cons c m ih =>
    simp only [Memory.erase, List.filter_cons] at ih ⊢
    by_cases h : c.1 = a
    · have : ¬ a = d := fun e => hd e.symm
      simpa [h, Memory.read, this] using ih
    · by_cases h2 : c.1 = d
      · simp [h2, hd, Memory.read]
      · simpa [h, h2, Memory.read] using ih

theorem Memory.read_insert_ne (m : Memory) (c : Host.Cell) (d : Nat) (hd : d ≠ c.1) :
    Memory.read (Memory.insert c m) d = Memory.read m d := by
  have hd' : ¬ c.1 = d := fun e => hd e.symm
  induction m with
  | nil => simp [Memory.insert, Memory.read, hd']
  | cons e m ih =>
    unfold Memory.insert
    split
    · simp only [Memory.read, ih]
    · simp [Memory.read, hd']

theorem Memory.read_insert_self (m : Memory) (c : Host.Cell) (h : ∀ e ∈ m, e.1 ≠ c.1) :
    Memory.read (Memory.insert c m) c.1 = c.2 := by
  induction m with
  | nil => simp [Memory.insert, Memory.read]
  | cons e m ih =>
    unfold Memory.insert
    split
    · have he := h e (by simp)
      simpa [Memory.read, he] using ih (fun x hx => h x (by simp [hx]))
    · simp [Memory.read]

theorem Memory.mem_erase {m : Memory} {a : Nat} {c : Host.Cell} : c ∈ Memory.erase m a ↔ c ∈ m ∧ c.1 ≠ a := by
  simp [Memory.erase]

theorem Memory.mem_insert {m : Memory} {c e : Host.Cell} : e ∈ Memory.insert c m ↔ e = c ∨ e ∈ m := by
  induction m with
  | nil => simp [Memory.insert]
  | cons d m ih =>
    unfold Memory.insert
    split
    · simp only [List.mem_cons, ih]; tauto
    · simp

/-! ## Read after write -/

@[simp] theorem Memory.read_write_self (m : Memory) (a : Nat) (b : Byte) :
    Memory.read (Memory.write m a b) a = b := by
  unfold Memory.write
  split
  · rename_i h; rw [Memory.read_erase_self, h]
  · exact Memory.read_insert_self _ (a, b) (fun e he => (Memory.mem_erase.mp he).2)

theorem Memory.read_write_ne (m : Memory) (a d : Nat) (b : Byte) (hd : d ≠ a) :
    Memory.read (Memory.write m a b) d = Memory.read m d := by
  unfold Memory.write
  split
  · exact Memory.read_erase_ne m a d hd
  · rw [Memory.read_insert_ne _ _ _ hd, Memory.read_erase_ne _ _ _ hd]

/-- What a memory lists after a write was listed before or is the written address. -/
theorem Memory.mem_write {m : Memory} {a : Nat} {b : Byte} {c : Host.Cell} (h : c ∈ Memory.write m a b) :
    c ∈ m ∨ c.1 = a := by
  unfold Memory.write at h
  split at h
  · exact .inl (Memory.mem_erase.mp h).1
  · rcases Memory.mem_insert.mp h with h | h
    · exact .inr (by simp [h])
    · exact .inl (Memory.mem_erase.mp h).1

/-! ## The canonical form -/

theorem Memory.wf_nil : Memory.wf [] := by simp [Memory.wf]

theorem Memory.wf_erase {m : Memory} (h : Memory.wf m) (a : Nat) : Memory.wf (Memory.erase m a) :=
  ⟨h.1.filter _, fun c hc => h.2 c (Memory.mem_erase.mp hc).1⟩

theorem Memory.pairwise_insert {m : Memory} {c : Host.Cell} (h : m.Pairwise (fun c d => c.1 < d.1))
    (hc : ∀ e ∈ m, e.1 ≠ c.1) : (Memory.insert c m).Pairwise (fun c d => c.1 < d.1) := by
  induction m with
  | nil => simp [Memory.insert]
  | cons d m ih =>
    rw [List.pairwise_cons] at h
    unfold Memory.insert
    split
    · rename_i hlt
      refine List.pairwise_cons.mpr ⟨fun e he => ?_, ih h.2 (fun e he => hc e (by simp [he]))⟩
      rcases Memory.mem_insert.mp he with rfl | he
      · exact hlt
      · exact h.1 e he
    · rename_i hge
      have hd := hc d (by simp)
      have hlt : c.1 < d.1 := by omega
      refine List.pairwise_cons.mpr ⟨fun e he => ?_, List.pairwise_cons.mpr h⟩
      rcases List.mem_cons.mp he with rfl | he
      · exact hlt
      · exact hlt.trans (h.1 e he)

/-- A write keeps the canonical form. -/
theorem Memory.wf_write {m : Memory} (h : Memory.wf m) (a : Nat) (b : Byte) : Memory.wf (Memory.write m a b) := by
  unfold Memory.write
  split
  · exact Memory.wf_erase h a
  · rename_i hb
    have he := Memory.wf_erase h a
    refine ⟨Memory.pairwise_insert he.1 (fun e hx => (Memory.mem_erase.mp hx).2), fun c hc => ?_⟩
    rcases Memory.mem_insert.mp hc with rfl | hc
    · exact hb
    · exact he.2 c hc

/-- The head of a canonical memory is the only entry at its address. -/
theorem Memory.read_lt_head {m : Memory} {a : Nat} (h : ∀ c ∈ m, a < c.1) : Memory.read m a = resetByte a := by
  induction m with
  | nil => rfl
  | cons c m ih =>
    have hc := h c (by simp)
    have : ¬ c.1 = a := by omega
    simpa [Memory.read, this] using ih (fun e he => h e (by simp [he]))

/-- Equal memories are equal data: two canonical memories that read alike everywhere are the same list. -/
theorem Memory.ext_of_wf {m n : Memory} (hm : Memory.wf m) (hn : Memory.wf n)
    (h : ∀ a, Memory.read m a = Memory.read n a) : m = n := by
  induction m generalizing n with
  | nil =>
    cases n with
    | nil => rfl
    | cons d n =>
      have := h d.1
      simp only [Memory.read, if_true] at this
      exact absurd this.symm (hn.2 d (by simp))
  | cons c m ih =>
    have hmp := List.pairwise_cons.mp hm.1
    cases n with
    | nil =>
      have := h c.1
      simp only [Memory.read, if_true] at this
      exact absurd this (hm.2 c (by simp))
    | cons d n =>
      have hnp := List.pairwise_cons.mp hn.1
      have hcd : c.1 = d.1 := by
        rcases Nat.lt_trichotomy c.1 d.1 with hlt | heq | hgt
        · have e := h c.1
          rw [Memory.read_lt_head (m := d :: n) (a := c.1)] at e
          · simp only [Memory.read, if_true] at e
            exact absurd e (hm.2 c (by simp))
          · intro x hx
            rcases List.mem_cons.mp hx with rfl | hx
            · exact hlt
            · exact hlt.trans (hnp.1 x hx)
        · exact heq
        · have e := h d.1
          rw [Memory.read_lt_head (m := c :: m) (a := d.1)] at e
          · simp only [Memory.read, if_true] at e
            exact absurd e.symm (hn.2 d (by simp))
          · intro x hx
            rcases List.mem_cons.mp hx with rfl | hx
            · exact hgt
            · exact hgt.trans (hmp.1 x hx)
      have hv : c.2 = d.2 := by simpa [Memory.read, hcd] using h c.1
      have hc : c = d := Prod.ext hcd hv
      subst hc
      congr 1
      refine ih ⟨hmp.2, fun e he => hm.2 e (by simp [he])⟩ ⟨hnp.2, fun e he => hn.2 e (by simp [he])⟩ (fun a => ?_)
      by_cases ha : c.1 = a
      · subst ha
        rw [Memory.read_lt_head hmp.1, Memory.read_lt_head hnp.1]
      · simpa [Memory.read, ha] using h a

/-! ## Consecutive bytes -/

theorem Memory.wf_storeBytes {m : Memory} (h : Memory.wf m) (a : Nat) (bs : List Byte) :
    Memory.wf (Memory.storeBytes m a bs) := by
  induction bs generalizing m a with
  | nil => exact h
  | cons b bs ih => exact ih (Memory.wf_write h a b) (a + 1)

/-- What a memory lists after a store was listed before or lies in the stored range. -/
theorem Memory.mem_storeBytes {m : Memory} {a : Nat} {bs : List Byte} {c : Host.Cell}
    (h : c ∈ Memory.storeBytes m a bs) : c ∈ m ∨ (a ≤ c.1 ∧ c.1 < a + bs.length) := by
  induction bs generalizing m a with
  | nil => exact .inl h
  | cons b bs ih =>
    simp only [List.length_cons]
    rcases ih (m := Memory.write m a b) (a := a + 1) h with h | h
    · rcases Memory.mem_write h with h | h
      · exact .inl h
      · exact .inr (by omega)
    · exact .inr (by omega)

/-- A byte outside the stored range reads as before. -/
theorem Memory.read_storeBytes_out (m : Memory) (a d : Nat) (bs : List Byte) (h : d < a ∨ a + bs.length ≤ d) :
    Memory.read (Memory.storeBytes m a bs) d = Memory.read m d := by
  induction bs generalizing m a with
  | nil => rfl
  | cons b bs ih =>
    simp only [List.length_cons] at h
    rw [Memory.storeBytes, ih _ _ (by omega), Memory.read_write_ne _ _ _ _ (by omega)]

/-- Byte `k` of a store reads back as stored. -/
theorem Memory.read_storeBytes_in (m : Memory) (a k : Nat) (bs : List Byte) (h : k < bs.length) :
    Memory.read (Memory.storeBytes m a bs) (a + k) = bs[k] := by
  induction bs generalizing m a k with
  | nil => simp at h
  | cons b bs ih =>
    cases k with
    | zero =>
      rw [Memory.storeBytes, Nat.add_zero, Memory.read_storeBytes_out _ _ _ _ (by omega)]
      simp
    | succ k =>
      have := ih (Memory.write m a b) (a + 1) k (by simpa using h)
      rw [Memory.storeBytes]
      have e : a + (k + 1) = a + 1 + k := by omega
      rw [e, this]
      simp

@[simp] theorem Memory.loadBytes_length (m : Memory) (a n : Nat) : (Memory.loadBytes m a n).length = n := by
  simp [Memory.loadBytes]

@[simp] theorem Memory.loadBytes_getElem (m : Memory) (a n k : Nat) (h : k < (Memory.loadBytes m a n).length) :
    (Memory.loadBytes m a n)[k] = Memory.read m (a + k) := by
  simp [Memory.loadBytes]

/-- The two bytes of a fetch. -/
theorem Memory.loadBytes_two (m : Memory) (a : Nat) :
    Memory.loadBytes m a 2 = [Memory.read m a, Memory.read m (a + 1)] := rfl

/-! ## The range check -/

theorem boundsFault_none {a len : Nat} (h : a + len ≤ memSize) : boundsFault a len = none := by
  unfold boundsFault; rw [if_neg (by omega)]

theorem boundsFault_zero (a : Nat) : boundsFault a 0 = none := by simp [boundsFault]

theorem boundsFault_some {a len : Nat} (h0 : 0 < len) (h : memSize < a + len) :
    boundsFault a len = some (max a memSize) := by
  unfold boundsFault; rw [if_pos ⟨h0, h⟩]

/-- An access that passes the check is empty or lies below `MEM_SIZE`. -/
theorem boundsFault_eq_none {a len : Nat} : boundsFault a len = none ↔ len = 0 ∨ a + len ≤ memSize := by
  unfold boundsFault; split <;> simp <;> omega

/-- An access that fails it reports the lowest of its addresses at or above `MEM_SIZE`. -/
theorem boundsFault_eq_some {a len d : Nat} :
    boundsFault a len = some d ↔ 0 < len ∧ memSize < a + len ∧ d = max a memSize := by
  unfold boundsFault; split <;> simp <;> omega

end Sys2Proof.Machine
end

