-- ==== Sys2Proof/Laws/Surface.lean ====
section
/-! SUPPORT. The pixels of the surface: what one toggle, one sprite row and one whole draw do to each pixel and to the collision
result (42_display_input.md R143). -/

namespace Sys2Proof.Machine

@[simp] theorem blankFrame_pixel (row : Fin Config.displayH) (col : Fin Config.displayW) :
    Frame.pixel blankFrame row col = false := by
  simp [Frame.pixel, blankFrame]

/-- Two buffers with the same pixels are the same. -/
theorem Frame.ext_pixel {f g : Frame} (h : ∀ row col, Frame.pixel f row col = Frame.pixel g row col) : f = g := by
  apply Vector.ext; intro r hr
  apply Vector.ext; intro c hc
  exact h ⟨r, hr⟩ ⟨c, hc⟩

theorem Frame.flip_pixel (f : Frame) (r row : Fin Config.displayH) (c col : Fin Config.displayW) :
    Frame.pixel (Frame.flip f r c) row col = (Frame.pixel f row col ^^ decide (r = row ∧ c = col)) := by
  by_cases hr : r = row
  · subst hr
    by_cases hc : c = col
    · subst hc; simp [Frame.pixel, Frame.flip]
    · have hc' : ¬ (c : Nat) = col := fun e => hc (Fin.ext e)
      simp [Frame.pixel, Frame.flip, hc, Vector.getElem_set_ne _ _ hc']
  · have hr' : ¬ (r : Nat) = row := fun e => hr (Fin.ext e)
    simp [Frame.pixel, Frame.flip, hr, Vector.getElem_set_ne _ _ hr']

/-! ## One sprite row -/

/-- A set bit among the first `k` pixels of a sprite row lands on this column. -/
def rowCovers (px : Nat) (byte : Byte) (k : Nat) (col : Fin Config.displayW) : Prop :=
  ∃ b, b < k ∧ spriteBit byte b = true ∧ wrapCol (px + b) = col

theorem wrapCol_inj {px a b : Nat} (ha : a < 8) (hb : b < 8) (h : wrapCol (px + a) = wrapCol (px + b)) : a = b := by
  simp only [wrapCol, Config.displayW, Fin.mk.injEq] at h
  omega

theorem wrapRow_inj {py a b : Nat} (ha : a < 32) (hb : b < 32) (h : wrapRow (py + a) = wrapRow (py + b)) : a = b := by
  simp only [wrapRow, Config.displayH, Fin.mk.injEq] at h
  omega

/-- What the first `k` pixels of a sprite row do: the covered pixels of that display row toggle, the others stay, and a
collision is added exactly when a covered pixel was set. -/
theorem drawRow_prefix (px row : Nat) (byte : Byte) (acc : Frame × Bool) (k : Nat) (hk : k ≤ 8) :
    let out := (List.range k).foldl (drawPixel px row byte) acc
    (∀ r c, (wrapRow row = r ∧ rowCovers px byte k c → Frame.pixel out.1 r c = !Frame.pixel acc.1 r c) ∧
      (¬ (wrapRow row = r ∧ rowCovers px byte k c) → Frame.pixel out.1 r c = Frame.pixel acc.1 r c)) ∧
    (out.2 = true ↔ acc.2 = true ∨
      ∃ c, rowCovers px byte k c ∧ Frame.pixel acc.1 (wrapRow row) c = true) := by
  induction k with
  | zero => simp [rowCovers]
  | succ k ih =>
    obtain ⟨ihp, ihc⟩ := ih (by omega)
    simp only [List.range_succ, List.foldl_append, List.foldl_cons, List.foldl_nil]
    generalize (List.range k).foldl (drawPixel px row byte) acc = mid at ihp ihc
    have hsucc : ∀ c, rowCovers px byte (k + 1) c ↔
        rowCovers px byte k c ∨ (spriteBit byte k = true ∧ wrapCol (px + k) = c) := by
      intro c
      constructor
      · rintro ⟨b, hb, h1, h2⟩
        by_cases hbk : b = k
        · subst hbk; exact .inr ⟨h1, h2⟩
        · exact .inl ⟨b, by omega, h1, h2⟩
      · rintro (⟨b, hb, h⟩ | h)
        · exact ⟨b, by omega, h⟩
        · exact ⟨k, by omega, h⟩
    have hfresh : ¬ rowCovers px byte k (wrapCol (px + k)) := by
      rintro ⟨b, hb, -, h⟩
      have := wrapCol_inj (by omega) (by omega) h
      omega
    by_cases hbit : spriteBit byte k = true
    · simp only [drawPixel, hbit, if_true]
      have hold := (ihp (wrapRow row) (wrapCol (px + k))).2 (fun h => hfresh h.2)
      refine ⟨fun r c => ?_, ?_⟩
      · rw [Frame.flip_pixel]
        by_cases hhit : wrapRow row = r ∧ wrapCol (px + k) = c
        · obtain ⟨rfl, rfl⟩ := hhit
          simp [hsucc, hbit, hold]
        · by_cases hr : wrapRow row = r
          · have hc : ¬ wrapCol (px + k) = c := fun h => hhit ⟨hr, h⟩
            have hi := ihp r c
            simp only [hsucc, hr, hc, and_false, or_false, true_and, decide_false, Bool.xor_false] at hi ⊢
            exact hi
          · have hi := ihp r c
            simp only [hr, false_and, decide_false, Bool.xor_false, not_false_eq_true, forall_const,
              false_implies, true_and] at hi ⊢
            exact hi
      · rw [Bool.or_eq_true, ihc, hold]
        constructor
        · rintro ((h | ⟨c, hc, hp⟩) | h)
          · exact .inl h
          · exact .inr ⟨c, (hsucc c).mpr (.inl hc), hp⟩
          · exact .inr ⟨_, (hsucc _).mpr (.inr ⟨hbit, rfl⟩), h⟩
        · rintro (h | ⟨c, hc, hp⟩)
          · exact .inl (.inl h)
          · rcases (hsucc c).mp hc with hc | ⟨-, rfl⟩
            · exact .inl (.inr ⟨c, hc, hp⟩)
            · exact .inr hp
    · have hsame : ∀ c, rowCovers px byte (k + 1) c ↔ rowCovers px byte k c := by
        intro c; rw [hsucc]; simp [hbit]
      simp only [drawPixel, hbit, hsame]
      exact ⟨ihp, ihc⟩

/-- What one sprite row does. -/
theorem drawRow_spec (px row : Nat) (byte : Byte) (acc : Frame × Bool) :
    (∀ r c, (wrapRow row = r ∧ rowCovers px byte 8 c →
        Frame.pixel (drawRow px row byte acc).1 r c = !Frame.pixel acc.1 r c) ∧
      (¬ (wrapRow row = r ∧ rowCovers px byte 8 c) →
        Frame.pixel (drawRow px row byte acc).1 r c = Frame.pixel acc.1 r c)) ∧
    ((drawRow px row byte acc).2 = true ↔ acc.2 = true ∨
      ∃ c, rowCovers px byte 8 c ∧ Frame.pixel acc.1 (wrapRow row) c = true) :=
  drawRow_prefix px row byte acc 8 (by omega)

/-! ## All sprite rows -/

/-- Some set bit of the sprite rows, the first of them drawn at display row `row`, lands on this pixel. -/
def rowsCover (px row : Nat) (sprite : List Byte) (r : Fin Config.displayH) (c : Fin Config.displayW) : Prop :=
  ∃ (k : Nat) (h : k < sprite.length), wrapRow (row + k) = r ∧ rowCovers px sprite[k] 8 c

theorem rowsCover_cons (px row : Nat) (byte : Byte) (rest : List Byte) (r : Fin Config.displayH)
    (c : Fin Config.displayW) : rowsCover px row (byte :: rest) r c ↔
      (wrapRow row = r ∧ rowCovers px byte 8 c) ∨ rowsCover px (row + 1) rest r c := by
  constructor
  · rintro ⟨k, hk, h1, h2⟩
    cases k with
    | zero => exact .inl ⟨h1, h2⟩
    | succ k => exact .inr ⟨k, by simpa using hk, by rw [← h1]; congr 1; omega, by simpa using h2⟩
  · rintro (⟨h1, h2⟩ | ⟨k, hk, h1, h2⟩)
    · exact ⟨0, by simp, h1, h2⟩
    · exact ⟨k + 1, by simpa using hk, by rw [← h1]; congr 1; omega, by simpa using h2⟩

/-- What the rows of a sprite of at most 32 rows do: each covered pixel toggles once, the others stay, and a collision is added
exactly when a covered pixel was set. -/
theorem drawRows_spec (px row : Nat) (sprite : List Byte) (acc : Frame × Bool) (hlen : sprite.length ≤ 32) :
    (∀ r c, (rowsCover px row sprite r c →
        Frame.pixel (drawRows px row sprite acc).1 r c = !Frame.pixel acc.1 r c) ∧
      (¬ rowsCover px row sprite r c →
        Frame.pixel (drawRows px row sprite acc).1 r c = Frame.pixel acc.1 r c)) ∧
    ((drawRows px row sprite acc).2 = true ↔ acc.2 = true ∨
      ∃ r c, rowsCover px row sprite r c ∧ Frame.pixel acc.1 r c = true) := by
  induction sprite generalizing row acc with
  | nil => simp [drawRows, rowsCover]
  | cons byte rest ih =>
    simp only [List.length_cons] at hlen
    obtain ⟨hp, hc⟩ := drawRow_spec px row byte acc
    obtain ⟨ip, ic⟩ := ih (row + 1) (drawRow px row byte acc) (by omega)
    have hsep : ∀ c, ¬ rowsCover px (row + 1) rest (wrapRow row) c := by
      rintro c ⟨k, hk, h, -⟩
      have e : row + 1 + k = row + (1 + k) := by omega
      rw [e] at h
      have := wrapRow_inj (py := row) (a := 1 + k) (b := 0) (by omega) (by omega) (by simpa using h)
      omega
    have hrest : ∀ r c, rowsCover px (row + 1) rest r c →
        Frame.pixel (drawRow px row byte acc).1 r c = Frame.pixel acc.1 r c :=
      fun r c hrc => (hp r c).2 (fun h => hsep c (h.1 ▸ hrc))
    simp only [drawRows]
    refine ⟨fun r c => ?_, ?_⟩
    · rw [rowsCover_cons]
      by_cases hlater : rowsCover px (row + 1) rest r c
      · rw [(ip r c).1 hlater, hrest r c hlater]
        simp [hlater]
      · rw [(ip r c).2 hlater]
        simpa [hlater] using hp r c
    · rw [ic, hc]
      constructor
      · rintro ((h | ⟨c, h1, h2⟩) | ⟨r, c, h1, h2⟩)
        · exact .inl h
        · exact .inr ⟨wrapRow row, c, (rowsCover_cons ..).mpr (.inl ⟨rfl, h1⟩), h2⟩
        · exact .inr ⟨r, c, (rowsCover_cons ..).mpr (.inr h1), by rw [← hrest r c h1]; exact h2⟩
      · rintro (h | ⟨r, c, h1, h2⟩)
        · exact .inl (.inl h)
        · rcases (rowsCover_cons ..).mp h1 with ⟨rfl, hc⟩ | hc
          · exact .inl (.inr ⟨c, hc, h2⟩)
          · exact .inr ⟨r, c, hc, by rw [hrest r c hc]; exact h2⟩

/-! ## The whole draw -/

theorem spriteCovers_iff (px py : Byte) (sprite : List Byte) (r : Fin Config.displayH) (c : Fin Config.displayW) :
    spriteCovers px py sprite r c ↔ rowsCover px.toNat py.toNat sprite r c := by
  constructor
  · rintro ⟨k, hk, b, hb, h1, h2, h3⟩; exact ⟨k, hk, h2, b, hb, h1, h3⟩
  · rintro ⟨k, hk, h2, b, hb, h1, h3⟩; exact ⟨k, hk, b, hb, h1, h2, h3⟩

/-- `Surface.draw` on a sprite of at most 32 rows (DRW's has at most 15): a covered pixel toggles. -/
theorem draw_pixel_covered {px py : Byte} {sprite : List Byte} {f : Frame} (hlen : sprite.length ≤ 32)
    {r : Fin Config.displayH} {c : Fin Config.displayW} (h : spriteCovers px py sprite r c) :
    Frame.pixel (draw px py sprite f).1 r c = !Frame.pixel f r c :=
  ((drawRows_spec _ _ _ _ hlen).1 r c).1 ((spriteCovers_iff ..).mp h)

/-- A pixel that is not covered stays. -/
theorem draw_pixel_uncovered {px py : Byte} {sprite : List Byte} {f : Frame} (hlen : sprite.length ≤ 32)
    {r : Fin Config.displayH} {c : Fin Config.displayW} (h : ¬ spriteCovers px py sprite r c) :
    Frame.pixel (draw px py sprite f).1 r c = Frame.pixel f r c :=
  ((drawRows_spec _ _ _ _ hlen).1 r c).2 (fun e => h ((spriteCovers_iff ..).mpr e))

/-- The collision result: some covered pixel was set. -/
theorem draw_collision {px py : Byte} {sprite : List Byte} {f : Frame} (hlen : sprite.length ≤ 32) :
    (draw px py sprite f).2 = true ↔ ∃ r c, spriteCovers px py sprite r c ∧ Frame.pixel f r c = true := by
  simp only [draw, (drawRows_spec _ _ _ _ hlen).2, spriteCovers_iff, Bool.false_eq_true, false_or]

end Sys2Proof.Machine
end

