-- ==== Sys2Proof/Laws/Exec.lean ====
section
/-! SUPPORT. What each shared operation can answer, said once: later proofs cite these cases and do not unfold the meanings. -/

namespace Sys2Proof.Machine

/-! ## Fatal conditions -/

@[simp] theorem raise_eq (c : Condition) (s : State) : raise c s = .next (s.setRun (.halted (.fatal c))) := rfl

theorem halt_eq (s : State) (r : HaltReason) : s.halt r = s.setRun (.halted r) := rfl

theorem skipIf_eq (s : State) (c : Bool) : s.skipIf c = s.setPc (s.pc + (if c then 4 else 2)) := by
  cases c
  · rfl
  · simp only [State.skipIf, State.advance, State.setPc, if_true]
    congr 1
    rw [BitVec.add_assoc]; rfl

/-! ## Control transfer -/

theorem execCall_full {nnn : Addr12} {s : State} (h : stackDepth ≤ s.sp) : execCall nnn s = raise .stackOverflow s := by
  simp [execCall, h]

theorem execCall_room {nnn : Addr12} {s : State} (h : s.sp < stackDepth) :
    execCall nnn s = .next ((s.push s.pc).setPc (zext Config.pcW nnn)) := by
  have : ¬ stackDepth ≤ s.sp := by omega
  simp [execCall, this]

theorem execRet_empty {s : State} (h : s.stack = []) : execRet s = raise .stackUnderflow s := by
  simp [execRet, h]

theorem execRet_cons {s : State} {a : StackEntry} {rest : List StackEntry} (h : s.stack = a :: rest) :
    execRet s = .next ((s.setStack rest).setPc a).advance := by
  simp [execRet, h]

/-- Widening keeps the value. -/
theorem zext_toNat {n N : Nat} (h : n ≤ N) (v : BitVec n) : (zext N v).toNat = v.toNat := by
  rw [zext, BitVec.toNat_setWidth]
  exact Nat.mod_eq_of_lt (Nat.lt_of_lt_of_le v.isLt (Nat.pow_le_pow_right (by decide) h))

@[simp] theorem zext_pc_addr_toNat (nnn : Addr12) : (zext Config.pcW nnn).toNat = nnn.toNat := zext_toNat (by decide) nnn

@[simp] theorem zext_pc_reg_toNat (b : RegByte) : (zext Config.pcW b).toNat = b.toNat := zext_toNat (by decide) b

@[simp] theorem zext_index_addr_toNat (nnn : Addr12) : (zext Config.iW nnn).toNat = nnn.toNat := zext_toNat (by decide) nnn

@[simp] theorem zext_index_reg_toNat (b : RegByte) : (zext Config.iW b).toNat = b.toNat := zext_toNat (by decide) b

/-- The register-or-immediate SE, with the comparison as a proposition. -/
theorem skipIfEqual_eq (x : Reg) (o : Operand) (s : State) :
    skipIfEqual x o s = .next (s.setPc (s.pc + (if s.reg x = o.value s then 4 else 2))) := by
  rw [skipIfEqual, skipIf_eq]
  by_cases h : s.reg x = o.value s <;> simp [h]

/-- The register-or-immediate SNE, with the comparison as a proposition. -/
theorem skipIfNotEqual_eq (x : Reg) (o : Operand) (s : State) :
    skipIfNotEqual x o s = .next (s.setPc (s.pc + (if s.reg x ≠ o.value s then 4 else 2))) := by
  rw [skipIfNotEqual, skipIf_eq]
  by_cases h : s.reg x = o.value s <;> simp [h]

/-! ## Memory accesses -/

theorem storeAtIndex_fault {bytes : List Byte} {s : State} {a : Nat}
    (h : boundsFault s.dataAddress bytes.length = some a) :
    storeAtIndex bytes s = raise (.memoryBoundsFault a) s := by
  simp [storeAtIndex, h]

theorem storeAtIndex_ok {bytes : List Byte} {s : State} (h : boundsFault s.dataAddress bytes.length = none) :
    storeAtIndex bytes s = .next (s.setMem (Memory.storeBytes s.mem s.dataAddress bytes)).advance := by
  simp [storeAtIndex, h]

/-- A store whose bytes all fit writes exactly them. -/
theorem storeAtIndex_writes {bytes : List Byte} {s : State} (h : s.index.toNat + bytes.length ≤ memSize) :
    ∃ t, storeAtIndex bytes s = .next t ∧ WritesBytes s t s.index.toNat bytes :=
  ⟨_, storeAtIndex_ok (boundsFault_none h), fun k hk => Memory.read_storeBytes_in s.mem s.index.toNat k bytes hk,
    fun d hd => Memory.read_storeBytes_out s.mem s.index.toNat d bytes hd, rfl, rfl⟩

/-- Filling registers changes no other field. -/
theorem fillRegs_frame (s : State) (x : Reg) (a : Nat) : (s.fillRegs x a).setV s.v = s := by
  unfold State.fillRegs
  generalize Vector.ofFn _ = w
  rfl

theorem execLdVxI_fault {x : Reg} {s : State} {a : Nat} (h : boundsFault s.dataAddress (x.val + 1) = some a) :
    execLdVxI x s = raise (.memoryBoundsFault a) s := by
  simp [execLdVxI, h]

theorem execLdVxI_ok {x : Reg} {s : State} (h : boundsFault s.dataAddress (x.val + 1) = none) :
    execLdVxI x s = .next (s.fillRegs x s.dataAddress).advance := by
  simp [execLdVxI, h]

theorem execDrw_fault {x y : Reg} {n : Nibble} {s : State} {a : Nat}
    (h : boundsFault s.dataAddress n.toNat = some a) : execDrw x y n s = raise (.memoryBoundsFault a) s := by
  simp [execDrw, h]

/-- The sprite DRW reads and what drawing it answers. -/
def drwResult (x y : Reg) (n : Nibble) (s : State) : Frame × Bool :=
  draw (s.reg x) (s.reg y) (Memory.loadBytes s.mem s.dataAddress n.toNat) s.fb

theorem execDrw_ok {x y : Reg} {n : Nibble} {s : State} (h : boundsFault s.dataAddress n.toNat = none) :
    execDrw x y n s = .next ((((s.setFb (drwResult x y n s).1).setReg vf
      (collisionFlag (drwResult x y n s).2)).publishFrame).advance) := by
  simp [execDrw, h, drwResult]

@[simp] theorem regsUpTo_length (s : State) (x : Reg) : (s.regsUpTo x).length = x.val + 1 := by
  have := x.isLt
  simp only [State.regsUpTo, List.length_take, Vector.length_toList]; omega

theorem regsUpTo_getElem (s : State) (x : Reg) (k : Nat) (h : k < (s.regsUpTo x).length) (hk : k < 16) :
    (s.regsUpTo x)[k] = s.reg ⟨k, hk⟩ := by
  simp [State.regsUpTo, State.reg]

@[simp] theorem bcdDigits_length (b : Byte) : (bcdDigits b).length = 3 := rfl

/-! ## Glyphs -/

theorem execLdF_valid {x : Reg} {s : State} (h : (s.reg x).toNat ≤ 15) :
    execLdF x s = .next (s.setIndex (glyphAddress (s.reg x))).advance := by
  have : ¬ nGlyphs ≤ (s.reg x).toNat := by simp only [nGlyphs]; omega
  simp [execLdF, this]

theorem execLdF_invalid {x : Reg} {s : State} (h : 15 < (s.reg x).toNat) :
    execLdF x s = raise (.invalidSpriteIndex (s.reg x)) s := by
  have : nGlyphs ≤ (s.reg x).toNat := by simp only [nGlyphs]; omega
  simp [execLdF, this]

theorem glyphAddress_toNat {d : RegByte} (h : d.toNat ≤ 15) : (glyphAddress d).toNat = 5 * d.toNat := by
  simp only [glyphAddress, glyphBase, glyphBytes, BitVec.toNat_ofNat, two_pow_iW]; omega

/-! ## Keys -/

theorem keyCode_some {k : Byte} (h : k.toNat < 16) : keyCode k = some ⟨k.toNat, h⟩ := by simp [keyCode, h]

theorem keyCode_none {k : Byte} (h : 16 ≤ k.toNat) : keyCode k = none := by
  have : ¬ k.toNat < 16 := by omega
  simp [keyCode, this]

theorem skipOnKey_valid {x : Reg} {w : Bool} {s : State} (h : (s.reg x).toNat < 16) :
    skipOnKey x w s = .next (s.skipIf (s.keyDown ⟨(s.reg x).toNat, h⟩ == w)) := by
  simp [skipOnKey, keyCode_some h]

theorem skipOnKey_invalid {x : Reg} {w : Bool} {s : State} (h : 16 ≤ (s.reg x).toNat) :
    skipOnKey x w s = raise (.invalidKeyCode (s.reg x)) s := by
  simp [skipOnKey, keyCode_none h]

/-- The four things a pass of the key wait can do (42_display_input.md R146, R147). -/
theorem keyWaitPass_cases (x : Reg) (s : State) :
    (s.surfaceRunning = false ∧ keyWaitPass x s = .next (s.setRun (.halted .surfaceClosed))) ∨
    (s.surfaceRunning = true ∧ s.pollAnswer = none ∧ keyWaitPass x s = .next (s.setKeyWait (some x))) ∨
    (∃ k, s.surfaceRunning = true ∧ s.pollAnswer = some k ∧ 15 < k.toNat ∧
      keyWaitPass x s = .next (s.setRun (.halted (.fatal (.invalidKeyCode k))))) ∨
    (∃ k, s.surfaceRunning = true ∧ s.pollAnswer = some k ∧ k.toNat ≤ 15 ∧
      keyWaitPass x s = .next ((s.setReg x k).setKeyWait none).advance) := by
  unfold keyWaitPass State.isRunning State.pollPressedKey
  cases hr : s.surfaceRunning
  · exact .inl ⟨rfl, rfl⟩
  · cases hp : s.pollAnswer with
    | none => exact .inr (.inl ⟨rfl, rfl, rfl⟩)
    | some k =>
      by_cases hk : Config.nKeys ≤ k.toNat
      · exact .inr (.inr (.inl ⟨k, rfl, rfl, hk, by simp [hk]⟩))
      · exact .inr (.inr (.inr ⟨k, rfl, rfl, Nat.le_of_lt_succ (Nat.lt_of_not_le hk), by simp [hk]⟩))

/-- A pass of the key wait does not read the mark of the wait. -/
theorem keyWaitPass_hideWait (x : Reg) (s : State) (k : Option Reg) :
    onNext State.hideWait (keyWaitPass x (s.setKeyWait k)) = onNext State.hideWait (keyWaitPass x s) := by
  rcases keyWaitPass_cases x s with ⟨h, e⟩ | ⟨h, h2, e⟩ | ⟨c, h, h2, h3, e⟩ | ⟨c, h, h2, h3, e⟩ <;>
    rcases keyWaitPass_cases x (s.setKeyWait k) with
      ⟨g, e'⟩ | ⟨g, g2, e'⟩ | ⟨d, g, g2, g3, e'⟩ | ⟨d, g, g2, g3, e'⟩ <;>
    simp_all <;> first | omega | rfl

/-! ## Every meaning answers a next state -/

/-- `exec` never faults and never refuses. -/
theorem exec_next (i : Instr) (s : State) : ∃ t, exec i s = .next t := by
  cases i with
  | ret =>
    cases h : s.stack with
    | nil => exact ⟨_, execRet_empty h⟩
    | cons a rest => exact ⟨_, execRet_cons h⟩
  | call nnn =>
    by_cases h : stackDepth ≤ s.sp
    · exact ⟨_, execCall_full h⟩
    · exact ⟨_, execCall_room (by omega)⟩
  | drw x y n =>
    cases h : boundsFault s.dataAddress n.toNat with
    | none => exact ⟨_, execDrw_ok h⟩
    | some a => exact ⟨_, execDrw_fault h⟩
  | skp x =>
    by_cases h : (s.reg x).toNat < 16
    · exact ⟨_, skipOnKey_valid h⟩
    · exact ⟨_, skipOnKey_invalid (by omega)⟩
  | sknp x =>
    by_cases h : (s.reg x).toNat < 16
    · exact ⟨_, skipOnKey_valid h⟩
    · exact ⟨_, skipOnKey_invalid (by omega)⟩
  | ldVxK x =>
    rcases keyWaitPass_cases x s with ⟨-, h⟩ | ⟨-, -, h⟩ | ⟨k, -, -, -, h⟩ | ⟨k, -, -, -, h⟩ <;> exact ⟨_, h⟩
  | ldF x =>
    by_cases h : (s.reg x).toNat ≤ 15
    · exact ⟨_, execLdF_valid h⟩
    · exact ⟨_, execLdF_invalid (by omega)⟩
  | ldB x =>
    cases h : boundsFault s.dataAddress (bcdDigits (s.reg x)).length with
    | none => exact ⟨_, storeAtIndex_ok h⟩
    | some a => exact ⟨_, storeAtIndex_fault h⟩
  | ldIVx x =>
    cases h : boundsFault s.dataAddress (s.regsUpTo x).length with
    | none => exact ⟨_, storeAtIndex_ok h⟩
    | some a => exact ⟨_, storeAtIndex_fault h⟩
  | ldVxI x =>
    cases h : boundsFault s.dataAddress (x.val + 1) with
    | none => exact ⟨_, execLdVxI_ok h⟩
    | some a => exact ⟨_, execLdVxI_fault h⟩
  | _ => exact ⟨_, rfl⟩

/-! ## The engine and the other agents -/

theorem fetchBytes_ok {s : State} (h : s.pc.toNat + 1 < memSize) :
    s.fetchBytes = .ok [Memory.read s.mem s.pc.toNat, Memory.read s.mem (s.pc.toNat + 1)] := by
  simp [State.fetchBytes, boundsFault_none (show s.pc.toNat + 2 ≤ memSize by omega), Memory.loadBytes_two]

theorem fetchBytes_error {s : State} (h : memSize ≤ s.pc.toNat + 1) :
    s.fetchBytes = .error (max s.pc.toNat memSize) := by
  simp [State.fetchBytes, boundsFault_some (len := 2) (by omega) (show memSize < s.pc.toNat + 2 by omega)]

/-- The decoder on the fetched bytes is the decoder on the opcode at `PC`. -/
theorem decode_fetched (s : State) :
    decode [Memory.read s.mem s.pc.toNat, Memory.read s.mem (s.pc.toNat + 1)] =
      (match decodeWord s.opcodeAtPc with
        | .ok i => .ok (i, [])
        | .error e => .error e) := rfl

/-- A rejection of a whole word is by that word. -/
theorem decodeWord_error {op : Opcode} {e : Reject} (h : decodeWord op = .error e) : e = .illegal op := by
  unfold decodeWord decodeFamily8 decodeFamilyE decodeFamilyF at h
  repeat' split at h
  all_goals first
    | (injection h with h; exact h.symm)
    | cases h

/-- What a cycle that passes the halt check does (60_exceptions.md R181, R189). -/
theorem fetchDecodeExecute_cases (s : State) :
    (memSize ≤ s.pc.toNat + 1 ∧
      s.fetchDecodeExecute = raise (.memoryBoundsFault (max s.pc.toNat memSize)) s) ∨
    (s.pc.toNat + 1 < memSize ∧ decodeWord s.opcodeAtPc = .error (.illegal s.opcodeAtPc) ∧
      s.fetchDecodeExecute = raise (.decodeError s.opcodeAtPc) s) ∨
    (∃ i, s.pc.toNat + 1 < memSize ∧ decodeWord s.opcodeAtPc = .ok i ∧ s.fetchDecodeExecute = exec i s) := by
  by_cases h : memSize ≤ s.pc.toNat + 1
  · exact .inl ⟨h, by simp [State.fetchDecodeExecute, fetchBytes_error h]⟩
  · have hlt : s.pc.toNat + 1 < memSize := by omega
    cases hd : decodeWord s.opcodeAtPc with
    | ok i =>
      exact .inr (.inr ⟨i, hlt, rfl, by simp [State.fetchDecodeExecute, fetchBytes_ok hlt, decode_fetched, hd]⟩)
    | error e =>
      obtain rfl := decodeWord_error hd
      exact .inr (.inl ⟨hlt, rfl, by simp [State.fetchDecodeExecute, fetchBytes_ok hlt, decode_fetched, hd]⟩)

/-- Everything an engine step can be (60_exceptions.md R180 to R182; 42_display_input.md R146). -/
theorem engineStep_cases (s : State) :
    ((∃ r, s.run = .halted r) ∧ engineStep s = .next s) ∨
    (∃ x, s.run = .running ∧ s.keyWait = some x ∧ engineStep s = keyWaitPass x s) ∨
    (s.run = .running ∧ s.keyWait = none ∧ s.surfaceRunning = false ∧
      engineStep s = .next (s.setRun (.halted .surfaceClosed))) ∨
    (s.run = .running ∧ s.keyWait = none ∧ s.surfaceRunning = true ∧ memSize ≤ s.pc.toNat ∧
      engineStep s = .next (s.setRun (.halted .pcPastEnd))) ∨
    (s.run = .running ∧ s.keyWait = none ∧ s.surfaceRunning = true ∧ s.pc.toNat < memSize ∧
      engineStep s = s.fetchDecodeExecute) := by
  unfold engineStep State.cycle State.isRunning
  cases hr : s.run with
  | halted r => exact .inl ⟨⟨r, rfl⟩, rfl⟩
  | running =>
    cases hk : s.keyWait with
    | some x => exact .inr (.inl ⟨x, rfl, rfl, rfl⟩)
    | none =>
      cases hs : s.surfaceRunning
      · exact .inr (.inr (.inl ⟨rfl, rfl, rfl, rfl⟩))
      · by_cases hp : memSize ≤ s.pc.toNat
        · exact .inr (.inr (.inr (.inl ⟨rfl, rfl, rfl, hp, by simp [hp, halt_eq]⟩)))
        · exact .inr (.inr (.inr (.inr ⟨rfl, rfl, rfl, by omega, by simp [hp]⟩)))

theorem step_eq (s : State) : step s = agentStep s.mover s.afterChoice := rfl

theorem step_engine {s : State} (h : s.mover = .engine) : step s = engineStep s.afterChoice := by
  rw [step_eq, h]; rfl

/-- An engine that passes the halt check fetches. -/
theorem engineStep_ready {s : State} (hr : s.run = .running) (hk : s.keyWait = none) (hs : s.surfaceRunning = true)
    (hp : s.pc.toNat < memSize) : engineStep s = s.fetchDecodeExecute := by
  rcases engineStep_cases s with ⟨⟨r, h⟩, -⟩ | ⟨x, -, h, -⟩ | ⟨-, -, h, -⟩ | ⟨-, -, -, h, -⟩ | ⟨-, -, -, -, h⟩
  · simp [hr] at h
  · simp [hk] at h
  · simp [hs] at h
  · omega
  · exact h

theorem mover_cons {s : State} {a : Config.AgentStep} {l : List Config.AgentStep} (h : s.schedule = a :: l) :
    s.mover = a ∧ s.afterChoice = s.setSchedule l := by
  simp [State.mover, State.upcoming, State.afterChoice, h]

theorem round_ne_nil (s : State) : s.round ≠ [] := by simp [State.round]

/-- A round ends with the step that is due. -/
theorem round_getLast (s : State) : s.round.getLast? = some s.due := by simp [State.round]

theorem upcoming_ne_nil (s : State) : s.upcoming ≠ [] := by
  cases h : s.schedule <;> simp [State.upcoming, h, round_ne_nil]

/-- The steps that come next are the mover's, then those listed once it has moved (60_exceptions.md R184). -/
theorem upcoming_eq (s : State) : s.upcoming = s.mover :: s.afterChoice.schedule := by
  rw [State.afterChoice_schedule, State.mover]
  cases h : s.upcoming with
  | nil => exact absurd h (upcoming_ne_nil s)
  | cons a l => rfl

@[simp] theorem afterChoice_opcodeAtPc (s : State) : s.afterChoice.opcodeAtPc = s.opcodeAtPc := by
  simp [State.opcodeAtPc]

/-- A surface step leaves the engine's state and the timers alone. -/
theorem surfaceStep_engine (e : Config.SurfaceStep) (s : State) :
    SameEngineState s (surfaceStep e s) ∧ (surfaceStep e s).dt = s.dt ∧ (surfaceStep e s).st = s.st := by
  cases e <;> simp [surfaceStep, SameEngineState]

/-- Packaged induction: what holds at the start and is kept by every step holds after any number of steps. -/
theorem run_induction {P : State → Prop} (hstep : ∀ s t, P s → step s = .next t → P t) :
    ∀ (n : Nat) (s t : State), P s → Sys2Proof.core.run n s = .next t → P t := by
  intro n
  induction n with
  | zero => intro s t hs h; cases h; exact hs
  | succ n ih =>
    intro s t hs h
    simp only [Host.Core.run] at h
    cases hst : Sys2Proof.core.step s with
    | next u => rw [hst] at h; exact ih u t (hstep s u hs hst) h
    | fault e => rw [hst] at h; exact absurd h (by simp)
    | refused e => rw [hst] at h; exact absurd h (by simp)

/-- Packaged induction over everything a machine can reach. -/
theorem reachable_induction {P : State → Prop} (hboot : ∀ c s, boot c = .next s → P s)
    (hstep : ∀ s t, P s → step s = .next t → P t) : ∀ s, Reachable s → P s := by
  intro s h
  induction h with
  | boot c s h => exact hboot c s h
  | step s t _ h ih => exact hstep s t ih h

end Sys2Proof.Machine
end

