-- ==== Sys2Proof/Laws/PerInstr.lean ====
section
/-! SUPPORT. One lemma for each constructor of Instr: the family EncodesInItsRow, the encoded word carries the fixed bits of the
instruction's row of the opcode table (30_encoding.md R76). -/

namespace Sys2Proof.Laws.EncodesInItsRow

/-- The word of a well-formed instruction, masked as its row says, is the row's match value. -/
def Statement (i : Instr) : Prop := i.wf = true → encode i &&& i.rowMask = i.rowMatch

theorem cls : Statement (.cls) := by
  intro _; decide

theorem ret : Statement (.ret) := by
  intro _; decide

theorem sys (nnn : Addr12) : Statement (.sys nnn) := by
  intro _
  rw [encode, Instr.rowMask, mask_family, fieldF_wordNNN (by decide)]
  rfl

theorem jp (nnn : Addr12) : Statement (.jp nnn) := by
  intro _
  rw [encode, Instr.rowMask, mask_family, fieldF_wordNNN (by decide)]
  rfl

theorem call (nnn : Addr12) : Statement (.call nnn) := by
  intro _
  rw [encode, Instr.rowMask, mask_family, fieldF_wordNNN (by decide)]
  rfl

theorem seImm (x : Reg) (kk : Byte) : Statement (.seImm x kk) := by
  intro _
  rw [encode, Instr.rowMask, mask_family, fieldF_wordXKK (by decide)]
  rfl

theorem sneImm (x : Reg) (kk : Byte) : Statement (.sneImm x kk) := by
  intro _
  rw [encode, Instr.rowMask, mask_family, fieldF_wordXKK (by decide)]
  rfl

theorem seReg (x y : Reg) : Statement (.seReg x y) := by
  intro _
  rw [encode, Instr.rowMask, mask_family, fieldF_wordXYN (by decide)]
  rfl

theorem ldImm (x : Reg) (kk : Byte) : Statement (.ldImm x kk) := by
  intro _
  rw [encode, Instr.rowMask, mask_family, fieldF_wordXKK (by decide)]
  rfl

theorem addImm (x : Reg) (kk : Byte) : Statement (.addImm x kk) := by
  intro _
  rw [encode, Instr.rowMask, mask_family, fieldF_wordXKK (by decide)]
  rfl

theorem ldReg (x y : Reg) : Statement (.ldReg x y) := by
  intro _
  rw [encode, Instr.rowMask, mask_nibble, fieldF_wordXYN (by decide), fieldN_wordXYN (by decide)]
  rfl

theorem or (x y : Reg) : Statement (.or x y) := by
  intro _
  rw [encode, Instr.rowMask, mask_nibble, fieldF_wordXYN (by decide), fieldN_wordXYN (by decide)]
  rfl

theorem and (x y : Reg) : Statement (.and x y) := by
  intro _
  rw [encode, Instr.rowMask, mask_nibble, fieldF_wordXYN (by decide), fieldN_wordXYN (by decide)]
  rfl

theorem xor (x y : Reg) : Statement (.xor x y) := by
  intro _
  rw [encode, Instr.rowMask, mask_nibble, fieldF_wordXYN (by decide), fieldN_wordXYN (by decide)]
  rfl

theorem addReg (x y : Reg) : Statement (.addReg x y) := by
  intro _
  rw [encode, Instr.rowMask, mask_nibble, fieldF_wordXYN (by decide), fieldN_wordXYN (by decide)]
  rfl

theorem sub (x y : Reg) : Statement (.sub x y) := by
  intro _
  rw [encode, Instr.rowMask, mask_nibble, fieldF_wordXYN (by decide), fieldN_wordXYN (by decide)]
  rfl

theorem shr (x : Reg) : Statement (.shr x) := by
  intro _
  rw [encode, Instr.rowMask, mask_nibble, fieldF_wordXYN (by decide), fieldN_wordXYN (by decide)]
  rfl

theorem subn (x y : Reg) : Statement (.subn x y) := by
  intro _
  rw [encode, Instr.rowMask, mask_nibble, fieldF_wordXYN (by decide), fieldN_wordXYN (by decide)]
  rfl

theorem shl (x : Reg) : Statement (.shl x) := by
  intro _
  rw [encode, Instr.rowMask, mask_nibble, fieldF_wordXYN (by decide), fieldN_wordXYN (by decide)]
  rfl

theorem sneReg (x y : Reg) : Statement (.sneReg x y) := by
  intro _
  rw [encode, Instr.rowMask, mask_family, fieldF_wordXYN (by decide)]
  rfl

theorem ldI (nnn : Addr12) : Statement (.ldI nnn) := by
  intro _
  rw [encode, Instr.rowMask, mask_family, fieldF_wordNNN (by decide)]
  rfl

theorem jpV0 (nnn : Addr12) : Statement (.jpV0 nnn) := by
  intro _
  rw [encode, Instr.rowMask, mask_family, fieldF_wordNNN (by decide)]
  rfl

theorem rnd (x : Reg) (kk : Byte) : Statement (.rnd x kk) := by
  intro _
  rw [encode, Instr.rowMask, mask_family, fieldF_wordXKK (by decide)]
  rfl

theorem drw (x y : Reg) (n : Nibble) : Statement (.drw x y n) := by
  intro _
  rw [encode, Instr.rowMask, mask_family, fieldF_wordXYN (by decide)]
  rfl

theorem skp (x : Reg) : Statement (.skp x) := by
  intro _
  rw [encode, Instr.rowMask, mask_byte, fieldF_wordXKK (by decide), fieldKK_wordXKK (by decide)]
  rfl

theorem sknp (x : Reg) : Statement (.sknp x) := by
  intro _
  rw [encode, Instr.rowMask, mask_byte, fieldF_wordXKK (by decide), fieldKK_wordXKK (by decide)]
  rfl

theorem ldVxDt (x : Reg) : Statement (.ldVxDt x) := by
  intro _
  rw [encode, Instr.rowMask, mask_byte, fieldF_wordXKK (by decide), fieldKK_wordXKK (by decide)]
  rfl

theorem ldVxK (x : Reg) : Statement (.ldVxK x) := by
  intro _
  rw [encode, Instr.rowMask, mask_byte, fieldF_wordXKK (by decide), fieldKK_wordXKK (by decide)]
  rfl

theorem ldDtVx (x : Reg) : Statement (.ldDtVx x) := by
  intro _
  rw [encode, Instr.rowMask, mask_byte, fieldF_wordXKK (by decide), fieldKK_wordXKK (by decide)]
  rfl

theorem ldStVx (x : Reg) : Statement (.ldStVx x) := by
  intro _
  rw [encode, Instr.rowMask, mask_byte, fieldF_wordXKK (by decide), fieldKK_wordXKK (by decide)]
  rfl

theorem addI (x : Reg) : Statement (.addI x) := by
  intro _
  rw [encode, Instr.rowMask, mask_byte, fieldF_wordXKK (by decide), fieldKK_wordXKK (by decide)]
  rfl

theorem ldF (x : Reg) : Statement (.ldF x) := by
  intro _
  rw [encode, Instr.rowMask, mask_byte, fieldF_wordXKK (by decide), fieldKK_wordXKK (by decide)]
  rfl

theorem ldB (x : Reg) : Statement (.ldB x) := by
  intro _
  rw [encode, Instr.rowMask, mask_byte, fieldF_wordXKK (by decide), fieldKK_wordXKK (by decide)]
  rfl

theorem ldIVx (x : Reg) : Statement (.ldIVx x) := by
  intro _
  rw [encode, Instr.rowMask, mask_byte, fieldF_wordXKK (by decide), fieldKK_wordXKK (by decide)]
  rfl

theorem ldVxI (x : Reg) : Statement (.ldVxI x) := by
  intro _
  rw [encode, Instr.rowMask, mask_byte, fieldF_wordXKK (by decide), fieldKK_wordXKK (by decide)]
  rfl

end Sys2Proof.Laws.EncodesInItsRow
end

