-- ==== Sys2Proof/Tests/Slice0.lean ====
section
/-! SUPPORT. Tests: ill-formed terms, words written out from 30_encoding.md, the vectors of 95_test_vectors.md (each named in its
comment; all are hand-derived from the spec there), and a witness for the hypotheses of every obligation. -/

namespace Sys2Proof.Tests

open Sys2Proof Sys2Proof.Machine

/-! ## Helpers -/

/-- The next state of a result. -/
def after (r : Result) : Option State :=
  match r with
  | .next s => some s
  | .fault _ => none
  | .refused _ => none

/-- The reset state with some registers set. -/
def regs (l : List (Reg × Byte)) : State := l.foldl (fun s p => s.setReg p.1 p.2) State.reset

/-- The reset state with a call stack of `n` return addresses 0x204. -/
def deep (n : Nat) : State := State.reset.setStack (List.replicate n 0x204#16)

/-- The reset state with a word at `PC`, the engine about to move. -/
def placed (w : Nat) : State := State.reset.withFetchWord 16 w

/-- What an instruction leaves in some registers. -/
def regsAfter (i : Instr) (s : State) (l : List Reg) : Option (List Byte) :=
  (after (exec i s)).map (fun t => l.map t.reg)

/-- What an instruction leaves in `PC`. -/
def pcAfter (i : Instr) (s : State) : Option PcWord := (after (exec i s)).map (·.pc)

/-- What an instruction leaves in `RUN`, and in `PC`. -/
def runAfter (i : Instr) (s : State) : Option (RunState × PcWord) := (after (exec i s)).map (fun t => (t.run, t.pc))

/-- What an instruction leaves in some bytes of memory. -/
def bytesAfter (i : Instr) (s : State) (a n : Nat) : Option (List Byte) :=
  (after (exec i s)).map (fun t => Memory.loadBytes t.mem a n)

/-- What an instruction leaves in some pixels, and in `VF`. -/
def pixelsAfter (i : Instr) (s : State) (l : List (Fin 32 × Fin 64)) : Option (List Bool × Byte) :=
  (after (exec i s)).map (fun t => (l.map (fun p => Frame.pixel t.fb p.1 p.2), t.reg vf))

/-! ## WellFormed: a SYS operand that belongs to CLS or RET is refused (R77, R86) -/

theorem test_wf_refuses_sys_with_low_byte_E0 : (Instr.sys 0x0E0#12).wf = false ∧ (Instr.sys 0x1E0#12).wf = false := by decide

theorem test_wf_refuses_sys_with_low_byte_EE : (Instr.sys 0x0EE#12).wf = false ∧ (Instr.sys 0xFEE#12).wf = false := by decide

theorem test_wf_accepts_the_neighbours : (Instr.sys 0x0E1#12).wf = true ∧ (Instr.sys 0x0ED#12).wf = true := by decide

/-! ## Decoding: the words of 95_test_vectors.md 2.1, one for each row -/

theorem test_decode_family_0 : decodeTableWord 16 0x00E0 = some .cls ∧ decodeTableWord 16 0x00EE = some .ret ∧
    decodeTableWord 16 0x0123 = some (.sys 0x123#12) := by decide

theorem test_decode_jumps_and_calls : decodeTableWord 16 0x1234 = some (.jp 0x234#12) ∧
    decodeTableWord 16 0x2ABC = some (.call 0xABC#12) ∧ decodeTableWord 16 0xB123 = some (.jpV0 0x123#12) := by decide

theorem test_decode_skips : decodeTableWord 16 0x3A42 = some (.seImm 10 0x42#8) ∧
    decodeTableWord 16 0x4A42 = some (.sneImm 10 0x42#8) ∧ decodeTableWord 16 0x5120 = some (.seReg 1 2) ∧
    decodeTableWord 16 0x9120 = some (.sneReg 1 2) := by decide

theorem test_decode_immediates : decodeTableWord 16 0x6A42 = some (.ldImm 10 0x42#8) ∧
    decodeTableWord 16 0x7A42 = some (.addImm 10 0x42#8) ∧ decodeTableWord 16 0xA123 = some (.ldI 0x123#12) ∧
    decodeTableWord 16 0xC1F0 = some (.rnd 1 0xF0#8) := by decide

theorem test_decode_family_8 : decodeTableWord 16 0x8120 = some (.ldReg 1 2) ∧
    decodeTableWord 16 0x8121 = some (.or 1 2) ∧ decodeTableWord 16 0x8122 = some (.and 1 2) ∧
    decodeTableWord 16 0x8123 = some (.xor 1 2) ∧ decodeTableWord 16 0x8124 = some (.addReg 1 2) ∧
    decodeTableWord 16 0x8125 = some (.sub 1 2) ∧ decodeTableWord 16 0x8126 = some (.shr 1) ∧
    decodeTableWord 16 0x8127 = some (.subn 1 2) ∧ decodeTableWord 16 0x812E = some (.shl 1) := by decide

theorem test_decode_draw_and_keys : decodeTableWord 16 0xD123 = some (.drw 1 2 0x3#4) ∧
    decodeTableWord 16 0xE19E = some (.skp 1) ∧ decodeTableWord 16 0xE1A1 = some (.sknp 1) ∧
    decodeTableWord 16 0xF10A = some (.ldVxK 1) := by decide

theorem test_decode_family_F : decodeTableWord 16 0xF107 = some (.ldVxDt 1) ∧
    decodeTableWord 16 0xF115 = some (.ldDtVx 1) ∧ decodeTableWord 16 0xF118 = some (.ldStVx 1) ∧
    decodeTableWord 16 0xF11E = some (.addI 1) ∧ decodeTableWord 16 0xF129 = some (.ldF 1) ∧
    decodeTableWord 16 0xF133 = some (.ldB 1) ∧ decodeTableWord 16 0xF155 = some (.ldIVx 1) ∧
    decodeTableWord 16 0xF165 = some (.ldVxI 1) := by decide

/-- 95_test_vectors.md 2.2: ignored bits and boundaries between rows. -/
theorem test_decode_ignored_bits : decodeTableWord 16 0x0000 = some (.sys 0x000#12) ∧
    decodeTableWord 16 0x00ED = some (.sys 0x0ED#12) ∧ decodeTableWord 16 0x01E0 = some .cls ∧
    decodeTableWord 16 0x0FEE = some .ret ∧ decodeTableWord 16 0x512F = some (.seReg 1 2) ∧
    decodeTableWord 16 0x8ABE = some (.shl 10) ∧ decodeTableWord 16 0xD120 = some (.drw 1 2 0x0#4) ∧
    decodeTableWord 16 0xBFFF = some (.jpV0 0xFFF#12) ∧ decodeTableWord 16 0xFF65 = some (.ldVxI 15) := by decide

/-- 95_test_vectors.md 2.3: illegal words. -/
theorem test_decode_illegal : [0x8008, 0x8129, 0x812A, 0x812B, 0x812C, 0x812D, 0x812F, 0xE000, 0xE19F, 0xE1A0, 0xE1A2, 0xE10E,
    0xE1FF, 0xF000, 0xF106, 0xF108, 0xF11F, 0xF156, 0xF175, 0xF185, 0xFFFF].all
      (fun w => decodeTableWord 16 w == none) = true := by decide

/-- R70: a byte stream shorter than an opcode is rejected by name; a longer one leaves its rest. -/
theorem test_decode_stream : decode [] = .error .truncated ∧ decode [0x12#8] = .error .truncated ∧
    decode [0x12#8, 0x34#8, 0x56#8] = .ok (.jp 0x234#12, [0x56#8]) ∧
    decode [0xFF#8, 0xFF#8] = .error (.illegal 0xFFFF#16) := ⟨rfl, rfl, rfl, rfl⟩

/-! ## Control transfer (95_test_vectors.md 3.1) -/

/-- F1. -/
theorem test_sys_is_a_no_op : exec (.sys 0x123#12) State.reset = .next (State.reset.setPc 0x202#16) := rfl

/-- F2. -/
theorem test_jp : pcAfter (.jp 0x234#12) State.reset = some 0x234#16 := by decide

/-- F7, F8. -/
theorem test_jpV0 : pcAfter (.jpV0 0x300#12) (regs [(0, 0x10#8)]) = some 0x310#16 ∧
    pcAfter (.jpV0 0xFFF#12) (regs [(0, 0xFF#8)]) = some 0x10FE#16 := by decide

/-- F11: the 16th entry is the address of the CALL. -/
theorem test_call_pushes_its_own_address :
    (after (exec (.call 0x300#12) (deep 15))).map (fun t => (t.sp, t.stackEntry 15, t.pc)) =
      some (16, some 0x200#16, 0x300#16) := by decide

/-- F12. -/
theorem test_call_overflow : runAfter (.call 0x300#12) (deep 16) =
    some (.halted (.fatal .stackOverflow), 0x200#16) := by decide

/-- F15: last pushed, first popped; 2 is added. -/
theorem test_ret_pops_the_newest :
    (after (exec .ret (State.reset.setStack [0x20A#16, 0x204#16]))).map (fun t => (t.pc, t.sp, t.stackEntry 0)) =
      some (0x20C#16, 1, some 0x204#16) := by decide

/-- F14. -/
theorem test_ret_underflow : runAfter .ret State.reset = some (.halted (.fatal .stackUnderflow), 0x200#16) := by decide

/-- F16, F17. -/
theorem test_se_immediate : pcAfter (.seImm 10 0x42#8) (regs [(10, 0x42#8)]) = some 0x204#16 ∧
    pcAfter (.seImm 10 0x42#8) (regs [(10, 0x41#8)]) = some 0x202#16 := by decide

/-- F18, F19. -/
theorem test_sne_immediate : pcAfter (.sneImm 10 0x42#8) (regs [(10, 0x42#8)]) = some 0x202#16 ∧
    pcAfter (.sneImm 10 0x42#8) (regs [(10, 0x41#8)]) = some 0x204#16 := by decide

/-- F20; unequal registers: R108. -/
theorem test_se_register : pcAfter (.seReg 1 2) (regs [(1, 7#8), (2, 7#8)]) = some 0x204#16 ∧
    pcAfter (.seReg 1 2) (regs [(1, 7#8), (2, 8#8)]) = some 0x202#16 := by decide

/-- F22, F23. -/
theorem test_sne_register : pcAfter (.sneReg 1 2) (regs [(1, 7#8), (2, 8#8)]) = some 0x204#16 ∧
    pcAfter (.sneReg 3 3) (regs [(3, 9#8)]) = some 0x202#16 := by decide

/-! ## Arithmetic and logic (95_test_vectors.md 3.2) -/

/-- A1, A6: the flag is written last. -/
theorem test_add_immediate : regsAfter (.addImm 0 0x01#8) (regs [(0, 0xFF#8)]) [0, 15] = some [0x00#8, 1#8] ∧
    regsAfter (.addImm 15 0x01#8) (regs [(15, 0xFF#8)]) [15] = some [1#8] := by decide

/-- A10: the old `VF` is the operand. A11. -/
theorem test_add_register : regsAfter (.addReg 1 15) (regs [(1, 0x01#8), (15, 0xFF#8)]) [1, 15] = some [0x00#8, 1#8] ∧
    regsAfter (.addReg 15 1) (regs [(15, 2#8), (1, 3#8)]) [15, 1] = some [0#8, 3#8] := by decide

/-- A13, A14. -/
theorem test_sub : regsAfter (.sub 1 2) (regs [(1, 3#8), (2, 5#8)]) [1, 2, 15] = some [0xFE#8, 5#8, 0#8] ∧
    regsAfter (.sub 1 2) (regs [(1, 7#8), (2, 7#8)]) [1, 15] = some [0#8, 1#8] := by decide

/-- A19, and its value under the other reading of `SUBN_DEST`. -/
theorem test_subn : regsAfter (.subn 1 2) (regs [(1, 3#8), (2, 5#8)]) [2, 1, 15] = some [2#8, 3#8, 1#8] ∧
    (after (subnWith .destX 1 2 (regs [(1, 3#8), (2, 5#8)]))).map (fun t => [t.reg 1, t.reg 2, t.reg 15]) =
      some [2#8, 5#8, 1#8] := by decide

/-- A23: SUBN VF, V1. -/
theorem test_subn_with_vf : regsAfter (.subn 15 1) (regs [(15, 3#8), (1, 5#8)]) [1, 15] = some [2#8, 1#8] := by decide

/-- A24. -/
theorem test_or : regsAfter (.or 1 2) (regs [(1, 0x0C#8), (2, 0x0A#8), (15, 0xAB#8)]) [1, 15] =
    some [0x0E#8, 0xAB#8] := by decide

/-- A25. -/
theorem test_and : regsAfter (.and 1 2) (regs [(1, 0x0C#8), (2, 0x0A#8), (15, 0xAB#8)]) [1, 15] =
    some [0x08#8, 0xAB#8] := by decide

/-- A26. -/
theorem test_xor : regsAfter (.xor 1 2) (regs [(1, 0x0C#8), (2, 0x0A#8), (15, 0xAB#8)]) [1, 15] =
    some [0x06#8, 0xAB#8] := by decide

/-- A31, A33. -/
theorem test_shr : regsAfter (.shr 4) (regs [(4, 0xFF#8)]) [4, 15] = some [0x7F#8, 1#8] ∧
    regsAfter (.shr 15) (regs [(15, 2#8)]) [15] = some [0#8] := by decide

/-- A34, A37. -/
theorem test_shl : regsAfter (.shl 4) (regs [(4, 0x81#8)]) [4, 15] = some [0x02#8, 1#8] ∧
    regsAfter (.shl 4) (regs [(4, 0x40#8)]) [4, 15] = some [0x80#8, 0#8] := by decide

/-- A40, A41. -/
theorem test_add_index :
    (after (exec (.addI 3) ((regs [(3, 5#8)]).setIndex 0x0FFE#16))).map (fun t => (t.index, t.reg 15)) =
      some (0x1003#16, 0#8) ∧
    (after (exec (.addI 0) ((regs [(0, 1#8)]).setIndex 0xFFFF#16))).map (·.index) = some 0x0000#16 := by decide

/-- A43: whatever the draw. -/
theorem test_rnd_mask_zero : ∃ t, exec (.rnd 3 0x00#8) (regs [(3, 0x55#8)]) = .next t ∧ t.reg 3 = 0#8 :=
  ⟨_, rfl, by simp [State.reg, State.advance, State.setReg]⟩

/-! ## Display and keypad (95_test_vectors.md 3.3) -/

/-- X1, on a buffer with one pixel set. -/
theorem test_cls : pixelsAfter .cls (State.reset.setFb (Frame.flip blankFrame 31 63)) [(31, 63)] = some ([false], 0#8) ∧
    (after (exec .cls (State.reset.setFb (Frame.flip blankFrame 31 63)))).map (fun t => t.pending.isSome) = some true := by
  decide

/-- X5: rows wrap modulo 32, columns modulo 64; the pixels of rows 31 and 0 of the display. -/
theorem test_drw_wraps : pixelsAfter (.drw 0 1 0x5#4) (regs [(0, 63#8), (1, 31#8)])
    [(31, 63), (31, 0), (31, 1), (31, 2), (31, 3), (0, 63), (0, 0), (0, 1), (0, 2)] =
    some ([true, true, true, true, false, true, false, false, true], 0#8) := by decide

/-- X7: the sprite 0x80 on a set pixel (0, 0) unsets it and collides. X8 is the sprite 0x40: no collision. -/
theorem test_drw_collides :
    pixelsAfter (.drw 0 1 0x1#4)
      (((State.reset.setFb (Frame.flip blankFrame 0 0)).setMem [(0x300, 0x80#8)]).setIndex 0x300#16) [(0, 0), (0, 1)] =
      some ([false, false], 1#8) ∧
    pixelsAfter (.drw 0 1 0x1#4)
      (((State.reset.setFb (Frame.flip blankFrame 0 0)).setMem [(0x300, 0x40#8)]).setIndex 0x300#16) [(0, 0), (0, 1)] =
      some ([true, true], 0#8) := by decide

/-- X11. -/
theorem test_drw_out_of_memory : runAfter (.drw 0 0 0x5#4) (State.reset.setIndex 0xFFB#16) =
    some (.halted (.fatal (.memoryBoundsFault 0xFFF)), 0x200#16) := by decide

/-- X13, X18. -/
theorem test_skp : pcAfter (.skp 2) ((regs [(2, 5#8)]).setKeys (State.reset.keys.set 5 true)) = some 0x204#16 ∧
    runAfter (.skp 2) (regs [(2, 16#8)]) = some (.halted (.fatal (.invalidKeyCode 16#8)), 0x200#16) := by decide

/-- X15, X16. -/
theorem test_sknp : pcAfter (.sknp 2) ((regs [(2, 5#8)]).setKeys (State.reset.keys.set 5 true)) = some 0x202#16 ∧
    pcAfter (.sknp 2) (regs [(2, 5#8)]) = some 0x204#16 := by decide

/-- X20, its last pass; X22. -/
theorem test_key_wait_ends :
    (after (exec (.ldVxK 3) ((State.reset.setKeyWait (some 3)).setPollAnswer (some 7#8)))).map
      (fun t => (t.reg 3, t.pc, t.keyWait)) = some (7#8, 0x202#16, none) ∧
    runAfter (.ldVxK 3) (State.reset.setSurfaceRunning false) = some (.halted .surfaceClosed, 0x200#16) := by decide

/-- X20, a pass that polls None: only the mark of the wait is set, so the next engine step is another pass. -/
theorem test_key_wait_goes_on : exec (.ldVxK 3) State.reset = .next (State.reset.setKeyWait (some 3)) := rfl

/-! ## Loads and stores (95_test_vectors.md 3.4) -/

/-- L2. -/
theorem test_ld_immediate : regsAfter (.ldImm 15 0xAB#8) State.reset [15, 14] = some [0xAB#8, 0#8] := by decide

/-- L3. -/
theorem test_ld_register : regsAfter (.ldReg 14 15) (regs [(15, 1#8)]) [14, 15] = some [1#8, 1#8] := by decide

/-- L4. -/
theorem test_ld_index : (after (exec (.ldI 0xFFF#12) State.reset)).map (·.index) = some 0x0FFF#16 := by decide

/-- L5, L6, L7. -/
theorem test_timer_copies : regsAfter (.ldVxDt 1) (State.reset.setDt 0x2A#8) [1] = some [0x2A#8] ∧
    (after (exec (.ldDtVx 0) ((regs [(0, 3#8)]).setDt 200#8))).map (fun t => (t.dt, t.st)) = some (3#8, 0#8) ∧
    (after (exec (.ldStVx 0) (regs [(0, 0x10#8)]))).map (fun t => (t.dt, t.st)) = some (0#8, 0x10#8) := by decide

/-- L9, L10. -/
theorem test_ld_glyph : (after (exec (.ldF 0) (regs [(0, 0x0F#8)]))).map (·.index) = some 0x4B#16 ∧
    runAfter (.ldF 0) (regs [(0, 0x10#8)]) = some (.halted (.fatal (.invalidSpriteIndex 16#8)), 0x200#16) := by decide

/-- L13, L14: the last three bytes of memory. -/
theorem test_ld_bcd : bytesAfter (.ldB 1) ((regs [(1, 199#8)]).setIndex 0x300#16) 0x300 4 =
      some [1#8, 9#8, 9#8, 0#8] ∧
    bytesAfter (.ldB 1) ((regs [(1, 9#8)]).setIndex 0xFFC#16) 0xFFC 3 = some [0#8, 0#8, 9#8] := by decide

/-- L15. -/
theorem test_ld_bcd_out_of_memory : runAfter (.ldB 1) ((regs [(1, 9#8)]).setIndex 0xFFD#16) =
    some (.halted (.fatal (.memoryBoundsFault 0xFFF)), 0x200#16) := by decide

/-- L17, with the byte after left alone; L26: glyph memory is writable. -/
theorem test_register_dump :
    bytesAfter (.ldIVx 2) ((regs [(0, 1#8), (1, 2#8), (2, 3#8), (3, 4#8)]).setIndex 0x400#16) 0x400 4 =
      some [1#8, 2#8, 3#8, 0#8] ∧
    bytesAfter (.ldIVx 0) (regs [(0, 0xFF#8)]) 0 2 = some [0xFF#8, 0x90#8] := by decide

/-- L21; L24. -/
theorem test_register_fill :
    regsAfter (.ldVxI 2) (((regs [(3, 9#8)]).setMem [(0x301, 1#8), (0x302, 5#8)]).setIndex 0x300#16) [0, 1, 2, 3] =
      some [0#8, 1#8, 5#8, 9#8] ∧
    runAfter (.ldVxI 0) (State.reset.setIndex 0xFFF#16) =
      some (.halted (.fatal (.memoryBoundsFault 0xFFF)), 0x200#16) := by decide

/-! ## The cycle, the agents, the load (95_test_vectors.md 3.5) -/

/-- A word placed after reset is fetched and run. -/
theorem test_step_runs_a_placed_word : (after (step (placed 0x6A42))).map (fun t => (t.reg 10, t.pc)) =
    some (0x42#8, 0x202#16) := by decide

/-- T17. -/
theorem test_step_of_an_illegal_word : (after (step (placed 0xFFFF))).map (fun t => (t.run, t.pc)) =
    some (.halted (.fatal (.decodeError 0xFFFF#16)), 0x200#16) := by decide

/-- T11, T10, T12. -/
theorem test_halt_checks :
    (after (step ((placed 0).setPc 0xFFF#16))).map (·.run) = some (.halted .pcPastEnd) ∧
    (after (step (((placed 0).setPc 0xFFF#16).setSurfaceRunning false))).map (·.run) = some (.halted .surfaceClosed) ∧
    (after (step ((placed 0).setPc 0xFFE#16))).map (·.run) = some (.halted (.fatal (.memoryBoundsFault 0xFFF))) := by
  decide

/-- T1, T2, T3. -/
theorem test_ticks : [0#8, 1#8, 255#8].map tickValue = [0#8, 0#8, 254#8] := by decide

/-- T4. -/
theorem test_tick_of_the_sound_timer :
    (after (step (((State.reset.setDt 5#8).setSt 2#8).setSchedule [.tickSound]))).map (fun t => (t.dt, t.st)) =
      some (5#8, 1#8) := by decide

/-- R199 to R202: each surface step sets what it names. -/
theorem test_surface_steps :
    (after (agentStep (.surface (.setKey 5 true)) State.reset)).map (fun t => (t.keyDown 5, t.keyDown 6)) =
      some (true, false) ∧
    (after (agentStep (.surface (.setPoll (some 7#8))) State.reset)).map (·.pollPressedKey) = some (some 7#8) ∧
    (after (agentStep (.surface .close) State.reset)).map (·.isRunning) = some false ∧
    (after (agentStep (.surface .consumeFrame) (State.reset.setPending (some blankFrame)))).map
      (fun t => t.pending.isSome) = some false := by decide

/-- R184, R193: the engine and both timer processes come due in turn. -/
theorem test_every_agent_comes_due :
    [0, 1, 2, 3].map (fun n => (State.reset.setTurn n).due) = [.engine, .tickDelay, .tickSound, .engine] := by decide

/-- T14. -/
theorem test_boot : (after (boot (some [0x12#8, 0x00#8]))).map
    (fun t => (Memory.loadBytes t.mem 0x200 3, Memory.loadBytes t.mem 0 5, t.pc)) =
    some ([0x12#8, 0x00#8, 0x00#8], [0xF0#8, 0x90#8, 0x90#8, 0x90#8, 0xF0#8], 0x200#16) := by decide

/-! ## Witnesses: the hypotheses of each obligation are met, clause by clause, at boundary values -/

/-- The engine moves next, ready to fetch the words given, from 0x200 on. -/
def ready (bytes : List Byte) : State :=
  (State.reset.setMem (Memory.storeBytes [] 0x200 bytes)).setSchedule [.engine]

theorem ready_aboutToFetch (bytes : List Byte) : (ready bytes).aboutToFetch := ⟨rfl, rfl, rfl, rfl⟩

theorem witness_DecodeOfEncodeIsTheInstruction : (Instr.sys 0xFFF#12).wf = true ∧ Instr.ret.wf = true := by decide

theorem witness_EncodeOfDecodeIsTheWordButForIgnoredDigits : decodeWord 0x8ABE#16 = .ok (.shl 10) := rfl

theorem witness_IllegalWordsAreExactlyTheListed :
    decodeWord 0x8008#16 = .error (.illegal 0x8008#16) ∧ decodeWord 0xE0A2#16 = .error (.illegal 0xE0A2#16) ∧
    decodeWord 0xFFFF#16 = .error (.illegal 0xFFFF#16) := ⟨rfl, rfl, rfl⟩

theorem witness_DecoderAgreesWithTheMaskAndMatchTable :
    decodeWord 0xFF65#16 = .ok (.ldVxI 15) ∧ 0x01E0#16 &&& (Instr.sys 0x1E0#12).rowMask = (Instr.sys 0x1E0#12).rowMatch ∧
    0xFF65#16 &&& (Instr.ldVxI 15).rowMask = (Instr.ldVxI 15).rowMatch := ⟨rfl, by decide, by decide⟩

theorem witness_SourceEncodingsDecodeAsGiven :
    (0x1FFF#16).extractLsb' 12 4 = 0x1#4 ∧ (0xD000#16).extractLsb' 12 4 = 0xD#4 := by decide

/-- The last address an opcode fits at is 0xFFD. -/
theorem witness_StepRunsTheDecodedInstruction :
    (∃ s : State, s.aboutToFetch ∧ s.pc.toNat + 1 < memSize ∧
      decode [Memory.read s.mem s.pc.toNat, Memory.read s.mem (s.pc.toNat + 1)] = .ok (.jp 0x234#12, [])) ∧
    (∃ s : State, s.aboutToFetch ∧ s.pc.toNat + 2 = memSize ∧
      decode [Memory.read s.mem s.pc.toNat, Memory.read s.mem (s.pc.toNat + 1)] = .ok (.sys 0x000#12, [])) ∧
    (ready []).schedule = .engine :: [] ∧ State.reset.schedule = [] :=
  ⟨⟨ready [0x12, 0x34], ready_aboutToFetch _, by decide, rfl⟩,
    ⟨(ready []).setPc 0xFFD#16, ⟨rfl, rfl, rfl, rfl⟩, by decide, rfl⟩, rfl, rfl⟩

theorem witness_PlacedWordIsFetchedAndRun :
    State.reset.pc.toNat + 1 < memSize ∧ decodeTableWord 16 0xFF65 = some (.ldVxI 15) ∧
    (0x1FF ≠ State.reset.pc.toNat ∧ 0x1FF ≠ State.reset.pc.toNat + 1) := by decide

theorem witness_HaltChecksComeFirstSurfaceThenPc :
    ∃ s t : State, (s.mover = .engine ∧ s.run = .running ∧ s.keyWait = none ∧ s.surfaceRunning = false) ∧
      t.mover = .engine ∧ t.run = .running ∧ t.keyWait = none ∧ t.surfaceRunning = true ∧ memSize ≤ t.pc.toNat :=
  ⟨(ready []).setSurfaceRunning false, (ready []).setPc 0xFFF#16, ⟨rfl, rfl, rfl, rfl⟩, rfl, rfl, rfl, rfl, by decide⟩

theorem witness_FetchAndDecodeRaiseTheirConditions :
    (∃ s : State, s.aboutToFetch ∧ s.pc.toNat + 1 = memSize) ∧
    (∃ (s : State) (e : Reject), s.aboutToFetch ∧ s.pc.toNat + 1 < memSize ∧ decodeWord s.opcodeAtPc = .error e) :=
  ⟨⟨(ready []).setPc 0xFFE#16, ⟨rfl, rfl, rfl, rfl⟩, by decide⟩,
    ⟨ready [0xFF, 0xFF], .illegal 0xFFFF#16, ready_aboutToFetch _, by decide, rfl⟩⟩

theorem witness_HaltedEngineStaysHalted : ((ready []).setRun (.halted .pcPastEnd)).run = .halted .pcPastEnd := rfl

theorem witness_HaltingInstructionChangesOnlyRun :
    ∃ t, exec .ret State.reset = .next t ∧ t.run ≠ State.reset.run := ⟨_, rfl, by decide⟩

/-- One fatal end of each kind that an instruction can raise. -/
theorem witness_EveryFatalConditionHasItsListedCause :
    (after (exec (.call 0#12) (deep 16))).map (·.run) = some (.halted (.fatal .stackOverflow)) ∧
    (after (exec .ret (deep 0))).map (·.run) = some (.halted (.fatal .stackUnderflow)) ∧
    (after (exec (.skp 1) (regs [(1, 16#8)]))).map (·.run) = some (.halted (.fatal (.invalidKeyCode 16#8))) ∧
    (after (exec (.ldVxK 1) (State.reset.setPollAnswer (some 16#8)))).map (·.run) =
      some (.halted (.fatal (.invalidKeyCode 16#8))) ∧
    (after (exec (.ldF 1) (regs [(1, 16#8)]))).map (·.run) = some (.halted (.fatal (.invalidSpriteIndex 16#8))) ∧
    (after (exec (.ldVxI 15) (State.reset.setIndex 0xFF0#16))).map (·.run) =
      some (.halted (.fatal (.memoryBoundsFault 0xFFF))) := by decide

theorem witness_OtherAgentsLeaveTheEngineAlone : (0 : Key) ≠ 15 := by decide

theorem witness_RunningFlagOnceLoweredStaysLowered :
    (∃ t, Sys2Proof.core.run 1 ((ready []).setSurfaceRunning false) = .next t) ∧
    (∃ t, engineStep (ready [0x12, 0x34]) = .next t) := ⟨⟨_, rfl⟩, ⟨_, rfl⟩⟩

theorem witness_EveryStepKeepsTheInvariant : ∃ s t : State, s.Inv ∧ s.keyWait ≠ none ∧ step s = .next t := by
  refine ⟨((ready [0xF3, 0x0A]).setKeyWait (some 3)).setPollAnswer (some 7), _, ⟨?_, ?_, ?_, ?_, ?_, ?_⟩, by decide, rfl⟩
  · decide
  · decide
  · decide
  · exact fun a ha => absurd ha (List.not_mem_nil)
  · decide
  · intro x hx
    have e : some 3 = some x := hx
    cases e
    exact ⟨by decide, rfl⟩

theorem witness_LoadCopiesTheCartridgeOrFails :
    (List.replicate 3583 (0 : Byte)).length ≤ memSize - 0x200 ∧
    memSize - 0x200 < (List.replicate 3584 (0 : Byte)).length := by
  rw [List.length_replicate, List.length_replicate]; decide

theorem witness_CallPushesItsOwnAddress : (deep 0).sp < 16 ∧ (deep 15).sp < 16 ∧ (deep 16).sp = 16 := by decide

theorem witness_ReturnPopsAndAdvances : 0 < (deep 1).sp ∧ 0 < (deep 16).sp ∧ (deep 0).sp = 0 := by decide

theorem witness_SixteenNestedCallsThenOverflow :
    (List.replicate 16 (0x200#12 : Addr12)).length = 16 ∧ State.reset.sp = 0 := by decide

theorem witness_ReturnResumesAfterTheCall :
    ∃ t u : State, State.reset.sp < 16 ∧ exec (.call 0x300#12) State.reset = .next t ∧ u.stack = t.stack ∧ u.pc ≠ t.pc :=
  ⟨_, State.reset.setStack [0x200#16], by decide, rfl, rfl, by decide⟩

theorem witness_DrawTogglesCoveredPixelsAndReportsCollision :
    (0x0#4).toNat = 0 ∧ (State.reset.setIndex 0xFFA#16).index.toNat + (0x5#4).toNat ≤ memSize ∧
    spriteCovers 63 31 [0x80#8] 31 63 ∧ ¬ spriteCovers 63 31 [0x80#8] 31 0 ∧
    Frame.pixel (Frame.flip blankFrame 31 63) 31 63 = true := by
  refine ⟨by decide, by decide, ⟨0, by decide, 0, by decide, rfl, rfl, rfl⟩, ?_, by decide⟩
  rintro ⟨r, hr, b, hb, h1, -, h3⟩
  have : r = 0 := by simpa using hr
  subst this
  have miss : ∀ b, b < 8 → spriteBit 0x80#8 b = true → wrapCol ((63 : Byte).toNat + b) ≠ 0 := by decide
  exact miss b hb h1 h3

/-- Two draws of one sprite, whose first turns a pixel on, and one whose first does not. -/
theorem witness_DrawingTwiceRestoresTheBuffer :
    ∃ t u : State, State.reset.index.toNat + (0x1#4).toNat ≤ memSize ∧ u.index.toNat + (0x1#4).toNat ≤ memSize ∧
      exec (.drw 0 1 0x1#4) State.reset = .next t ∧ u.fb = t.fb ∧ u.reg 0 = State.reset.reg 0 ∧
      u.reg 1 = State.reset.reg 1 ∧
      (∀ k, k < (0x1#4).toNat → Memory.read u.mem (u.index.toNat + k) =
        Memory.read State.reset.mem (State.reset.index.toNat + k)) ∧
      (∃ row col, Frame.pixel State.reset.fb row col = false ∧ Frame.pixel t.fb row col = true) :=
  ⟨_, _, by decide, by decide, rfl, rfl, rfl, rfl, fun _ _ => rfl, 0, 0, by decide, by decide⟩

/-- The same with `n = 0`, wherever `I` points: the first draw turns no pixel on. -/
theorem witness_DrawingTwiceRestoresTheBuffer_empty_sprite :
    ∃ t : State, (0x0#4).toNat = 0 ∧ exec (.drw 0 1 0x0#4) (State.reset.setIndex 0xFFFF#16) = .next t ∧
      (∀ k, k < (0x0#4).toNat → Memory.read t.mem (t.index.toNat + k) =
        Memory.read State.reset.mem ((State.reset.setIndex 0xFFFF#16).index.toNat + k)) ∧
      ¬ ∃ row col, Frame.pixel (State.reset.setIndex 0xFFFF#16).fb row col = false ∧ Frame.pixel t.fb row col = true :=
  ⟨_, rfl, rfl, fun _ _ => rfl, fun ⟨_, _, h, g⟩ => Bool.false_ne_true (h.symm.trans g)⟩

/-- One pixel is set, and `I` points at a sprite row that covers only that pixel. -/
def onePixel : State :=
  ((State.reset.setFb (Frame.flip blankFrame 0 0)).setMem [(0x300, 0x80#8)]).setIndex 0x300#16

theorem onePixel_drawn : (drwResult 0 1 0x1#4 onePixel).1 = blankFrame := by decide

/-- The last clause with a sprite that only turns a pixel off: 0x80 on the one set pixel (0, 0), vector X7. -/
theorem witness_DrawingTwiceRestoresTheBuffer_unsets_only :
    ∃ s t : State, exec (.drw 0 1 0x1#4) s = .next t ∧ Frame.pixel s.fb 0 0 = true ∧ Frame.pixel t.fb 0 0 = false ∧
      t.index.toNat + (0x1#4).toNat ≤ memSize ∧
      Memory.read t.mem t.index.toNat = Memory.read s.mem s.index.toNat ∧
      ¬ ∃ row col, Frame.pixel s.fb row col = false ∧ Frame.pixel t.fb row col = true :=
  ⟨onePixel, _, rfl, by decide, by decide, by decide, rfl, fun ⟨row, col, _, g⟩ => by
    have e : Frame.pixel (drwResult 0 1 0x1#4 onePixel).1 row col = true := g
    rw [onePixel_drawn, blankFrame_pixel] at e
    cases e⟩

theorem witness_KeySkipsTestTheKeyOfTheRegister :
    ((regs [(2, 15#8)]).reg 2).toNat < 16 ∧ 15 < ((regs [(2, 16#8)]).reg 2).toNat := by decide

theorem witness_KeyWaitStoresTheKeyOrWaitsOrHalts :
    ((State.reset.setPollAnswer (some 15)).surfaceRunning = true ∧
      (State.reset.setPollAnswer (some 15)).pollAnswer = some 15 ∧ (15 : Byte).toNat ≤ 15) ∧
    (State.reset.surfaceRunning = true ∧ State.reset.pollAnswer = none) ∧
    (State.reset.setSurfaceRunning false).surfaceRunning = false ∧
    ((State.reset.setPollAnswer (some 16)).surfaceRunning = true ∧
      (State.reset.setPollAnswer (some 16)).pollAnswer = some 16 ∧ 15 < (16 : Byte).toNat) := by decide

theorem witness_WaitingEngineMakesOnePassAStep :
    ∃ s : State, s.mover = .engine ∧ s.run = .running ∧ s.keyWait = some 3 := ⟨(ready []).setKeyWait (some 3), rfl, rfl, rfl⟩

theorem witness_WaitingIsRefetchingTheSameInstruction :
    ∃ s : State, s.Inv ∧ s.mover = .engine ∧ s.run = .running ∧ s.keyWait = some 3 ∧ s.surfaceRunning = true := by
  refine ⟨(ready [0xF3, 0x0A]).setKeyWait (some 3), ⟨?_, ?_, ?_, ?_, ?_, ?_⟩, rfl, rfl, rfl, rfl⟩
  · decide
  · decide
  · decide
  · exact fun a ha => absurd ha (List.not_mem_nil)
  · decide
  · intro x hx
    have e : some 3 = some x := hx
    cases e
    exact ⟨by decide, rfl⟩

theorem witness_GlyphLoadPointsIndexAtTheDigit :
    ((regs [(0, 15#8)]).reg 0).toNat ≤ 15 ∧ 15 < ((regs [(0, 16#8)]).reg 0).toNat := by decide

theorem witness_DecimalDigitsAreStoredFromIndex : (State.reset.setIndex 0xFFC#16).index.toNat + 2 < memSize := by decide

theorem witness_RegisterDumpStoresFromIndex :
    (State.reset.setIndex 0xFEF#16).index.toNat + (15 : Reg).val < memSize := by decide

theorem witness_RegisterFillLoadsFromIndex :
    (State.reset.setIndex 0xFFE#16).index.toNat + (0 : Reg).val < memSize := by decide

theorem witness_FillAfterDumpRestoresTheRegisters :
    ∃ t u : State, (State.reset.setIndex 0xFEF#16).index.toNat + (15 : Reg).val < memSize ∧
      exec (.ldIVx 15) (State.reset.setIndex 0xFEF#16) = .next t ∧ u.mem = t.mem ∧
      u.index = (State.reset.setIndex 0xFEF#16).index ∧ u.reg 0 ≠ t.reg 0 :=
  ⟨State.reset.setIndex 0xFEF#16 |>.advance, ((State.reset.setIndex 0xFEF#16).setReg 0 7#8), by decide, rfl, rfl, rfl,
    by decide⟩

/-- Each clause at the first value that is out of range. -/
theorem witness_OutOfRangeAccessMovesNothing :
    (0 < (0x5#4).toNat ∧ memSize < (State.reset.setIndex 0xFFB#16).index.toNat + (0x5#4).toNat) ∧
    memSize ≤ (State.reset.setIndex 0xFFD#16).index.toNat + 2 ∧
    memSize ≤ (State.reset.setIndex 0xFFF#16).index.toNat + (0 : Reg).val := by decide

/-- P6: LD_I_Vx V1 stores 0x1208, a JP, at the address it goes on to. -/
theorem witness_StoredOpcodeIsFetchedAndRun :
    ∃ (s t u : State), s.index.toNat + (1 : Reg).val < memSize ∧
      decodeWord (joinBytes (s.reg 0) (s.reg 1)) = .ok (.jp 0x208#12) ∧ exec (.ldIVx 1) s = .next t ∧ u.mem = t.mem ∧
      u.pc.toNat = s.index.toNat + (0 : Reg).val ∧ u.aboutToFetch :=
  ⟨((regs [(0, 0x12#8), (1, 0x08#8)]).setIndex 0x208#16).setPc 0x206#16, _,
    (((regs [(0, 0x12#8), (1, 0x08#8)]).setMem [(0x208, 0x12#8), (0x209, 0x08#8)]).setPc 0x208#16).setSchedule [.engine],
    by decide, rfl, rfl, by decide, by decide, ⟨rfl, rfl, rfl, rfl⟩⟩

theorem witness_TicksRunEachTimerDownOnItsOwn :
    (∀ a ∈ [Config.AgentStep.tickSound, .tickDelay], a = .tickDelay ∨ a = .tickSound) ∧
    (State.reset.setSchedule [.tickSound, .tickDelay, .engine]).schedule = [.tickSound, .tickDelay] ++ [.engine] := by decide

/-- LD_DT_Vx raises `DT`. -/
theorem witness_OnlyAStoreRaisesATimer :
    ∃ t, step ((ready [0xF0, 0x15]).setReg 0 9#8) = .next t ∧ t.dt.toNat = 9 := ⟨_, rfl, by decide⟩

theorem witness_RegistersOutsideTheWritesColumnAreUnchanged :
    (∃ t, exec (.addImm 0 1#8) State.reset = .next t) ∧ (14 : Reg) ∉ (Instr.addImm 0 1#8).writes := ⟨⟨_, rfl⟩, by decide⟩

theorem witness_RegistersOutsideTheReadsColumnDoNotMatter :
    (15 : Reg) ∉ (Instr.addImm 0 1#8).reads ∧ (3 : Reg) ∉ (Instr.ldIVx 2).reads := by decide

theorem witness_OnlyTheListedInstructionsChangeEachField :
    (∃ t, exec (.ldI 5#12) State.reset = .next t ∧ t.index ≠ State.reset.index) ∧
    (∃ t, exec (.ldB 0) (State.reset.setIndex 0#16) = .next t ∧ t.mem ≠ State.reset.mem) ∧
    (∃ t, exec (.call 5#12) State.reset = .next t ∧ t.stack ≠ State.reset.stack) ∧
    (∃ t, exec (.ldDtVx 0) (regs [(0, 1#8)]) = .next t ∧ t.dt ≠ (regs [(0, 1#8)]).dt) ∧
    (∃ t, exec (.ldStVx 0) (regs [(0, 1#8)]) = .next t ∧ t.st ≠ (regs [(0, 1#8)]).st) ∧
    (∃ t, exec .cls State.reset = .next t ∧ t.pending ≠ State.reset.pending) ∧
    (∃ t, exec (.ldVxK 3) State.reset = .next t ∧ t.keyWait ≠ State.reset.keyWait) ∧
    (∃ t, exec (.rnd 3 0#8) State.reset = .next t ∧ t.draws ≠ State.reset.draws) := by
  refine ⟨⟨_, rfl, by decide⟩, ⟨_, rfl, by decide⟩, ⟨_, rfl, by decide⟩, ⟨_, rfl, by decide⟩, ⟨_, rfl, by decide⟩,
    ⟨_, rfl, ?_⟩, ⟨_, rfl, by decide⟩, ⟨_, rfl, ?_⟩⟩
  · exact fun h => Option.some_ne_none _ h
  · exact fun h => absurd (show (1 : Nat) = 0 from h) (by decide)

theorem witness_SoundTimerAndPendingFrameAreNeverRead :
    ∃ s s' : State, s.hideUnread = s'.hideUnread ∧ s ≠ s' :=
  ⟨State.reset, State.reset.setSt 1, rfl, fun h => absurd (congrArg State.st h) (by decide)⟩

theorem witness_EveryAgentMovesAgainAndTimersRunOut :
    Sys2Proof.core.run 0 State.reset = .next State.reset ∧ State.reset.run = .running := ⟨rfl, rfl⟩

end Sys2Proof.Tests
end

/-! # What one instruction can do -/

namespace Sys2Proof.Machine

@[simp] theorem mem_regsThrough {x z : Reg} : z ∈ regsThrough x ↔ z ≤ x := by
  simp [regsThrough]

/-- The ways an instruction can end, field by field: a halt that writes `RUN` alone, or the writes of its row of
spec/opcode_table.json with their guards. -/
inductive Effect (s : State) : Instr → State → Prop where
  | halt {i : Instr} (r : HaltReason) : Effect s i (s.setRun (.halted r))
  | advance {i : Instr} : Effect s i s.advance
  | skip {i : Instr} (taken : Bool) : Effect s i (s.skipIf taken)
  | jump {i : Instr} (a : PcWord) (bound : a.toNat ≤ maxPc) : Effect s i (s.setPc a)
  | call (nnn : Addr12) (room : s.sp < stackDepth) :
      Effect s (.call nnn) ((s.push s.pc).setPc (zext Config.pcW nnn))
  | ret (a : StackEntry) (rest : List StackEntry) (live : s.stack = a :: rest) :
      Effect s .ret ((s.setStack rest).setPc a).advance
  | writeReg {i : Instr} (x : Reg) (b : RegByte) (listed : x ∈ i.writes) : Effect s i (s.setReg x b).advance
  | writeResultThenFlag {i : Instr} (x : Reg) (result flag : RegByte) (listed : x ∈ i.writes) (flagListed : vf ∈ i.writes) :
      Effect s i (s.setResultThenFlag x result flag).advance
  | rnd (x : Reg) (kk b : Byte) : Effect s (.rnd x kk) ((s.setReg x b).setDraws (s.draws + 1)).advance
  | fillRegs (x : Reg) : Effect s (.ldVxI x) (s.fillRegs x s.dataAddress).advance
  | setIndex {i : Instr} (a : IndexWord) (writer : (∃ nnn, i = .ldI nnn) ∨ ∃ x, i = .addI x ∨ i = .ldF x) :
      Effect s i (s.setIndex a).advance
  | cls : Effect s .cls s.clearFrame.publishFrame.advance
  | drw (x y : Reg) (n : Nibble) (f : Frame) (flag : RegByte) :
      Effect s (.drw x y n) ((s.setFb f).setReg vf flag).publishFrame.advance
  | keepWaiting (x : Reg) : Effect s (.ldVxK x) (s.setKeyWait (some x))
  | endWait (x : Reg) (k : Byte) : Effect s (.ldVxK x) ((s.setReg x k).setKeyWait none).advance
  | storeDelay (x : Reg) : Effect s (.ldDtVx x) (s.storeDelay (s.reg x)).advance
  | storeSound (x : Reg) : Effect s (.ldStVx x) (s.storeSound (s.reg x)).advance
  | storeBytes {i : Instr} (bytes : List Byte) (fits : s.index.toNat + bytes.length ≤ memSize)
      (writer : ∃ x, i = .ldB x ∨ i = .ldIVx x) :
      Effect s i (s.setMem (Memory.storeBytes s.mem s.index.toNat bytes)).advance

/-- No jump target overflows `PC` (40_flow_control.md R104). -/
theorem jumpV0_target_le (nnn : Addr12) (b : RegByte) : (zext Config.pcW nnn + zext Config.pcW b).toNat ≤ maxPc := by
  have hn := nnn.isLt
  have hb := regByte_lt b
  rw [BitVec.toNat_add, zext_pc_addr_toNat, zext_pc_reg_toNat, two_pow_pcW, maxPc]
  omega

theorem skipOnKey_effect {i : Instr} (x : Reg) (wanted : Bool) (s : State) :
    ∃ t, skipOnKey x wanted s = .next t ∧ Effect s i t := by
  by_cases h : (s.reg x).toNat < 16
  · exact ⟨_, skipOnKey_valid h, .skip ..⟩
  · exact ⟨_, skipOnKey_invalid (by omega), .halt ..⟩

theorem storeAtIndex_effect {i : Instr} (bytes : List Byte) (nonempty : bytes.length ≠ 0)
    (writer : ∃ x, i = .ldB x ∨ i = .ldIVx x) (s : State) :
    ∃ t, storeAtIndex bytes s = .next t ∧ Effect s i t := by
  cases h : boundsFault s.dataAddress bytes.length with
  | some a => exact ⟨_, storeAtIndex_fault h, .halt ..⟩
  | none => exact ⟨_, storeAtIndex_ok h, .storeBytes _ ((boundsFault_eq_none.mp h).resolve_left nonempty) writer⟩

theorem keyWaitPass_effect (x : Reg) (s : State) : ∃ t, keyWaitPass x s = .next t ∧ Effect s (.ldVxK x) t := by
  rcases keyWaitPass_cases x s with ⟨-, h⟩ | ⟨-, -, h⟩ | ⟨k, -, -, -, h⟩ | ⟨k, -, -, -, h⟩
  · exact ⟨_, h, .halt ..⟩
  · exact ⟨_, h, .keepWaiting x⟩
  · exact ⟨_, h, .halt ..⟩
  · exact ⟨_, h, .endWait x k⟩

/-- Every instruction completes with one of the effects. -/
theorem exec_effect (i : Instr) (s : State) : ∃ t, exec i s = .next t ∧ Effect s i t := by
  cases i with
  | cls => exact ⟨_, rfl, .cls⟩
  | ret =>
    cases h : s.stack with
    | nil => exact ⟨_, execRet_empty h, .halt ..⟩
    | cons a rest => exact ⟨_, execRet_cons h, .ret a rest h⟩
  | sys nnn => exact ⟨_, rfl, .advance⟩
  | jp nnn =>
    have hn := nnn.isLt
    exact ⟨_, rfl, .jump _ (by rw [zext_pc_addr_toNat, maxPc]; omega)⟩
  | jpV0 nnn => exact ⟨_, rfl, .jump _ (jumpV0_target_le nnn (s.reg 0))⟩
  | call nnn =>
    by_cases h : stackDepth ≤ s.sp
    · exact ⟨_, execCall_full h, .halt ..⟩
    · exact ⟨_, execCall_room (by omega), .call nnn (by omega)⟩
  | seImm x kk => exact ⟨_, rfl, .skip ..⟩
  | sneImm x kk => exact ⟨_, rfl, .skip ..⟩
  | seReg x y => exact ⟨_, rfl, .skip ..⟩
  | sneReg x y => exact ⟨_, rfl, .skip ..⟩
  | skp x => exact skipOnKey_effect x true s
  | sknp x => exact skipOnKey_effect x false s
  | ldImm x kk => exact ⟨_, rfl, .writeReg x _ (by simp [Instr.writes])⟩
  | ldReg x y => exact ⟨_, rfl, .writeReg x _ (by simp [Instr.writes])⟩
  | or x y => exact ⟨_, rfl, .writeReg x _ (by simp [Instr.writes])⟩
  | and x y => exact ⟨_, rfl, .writeReg x _ (by simp [Instr.writes])⟩
  | xor x y => exact ⟨_, rfl, .writeReg x _ (by simp [Instr.writes])⟩
  | ldVxDt x => exact ⟨_, rfl, .writeReg x _ (by simp [Instr.writes])⟩
  | addImm x kk => exact ⟨_, rfl, .writeResultThenFlag x _ _ (by simp [Instr.writes]) (by simp [Instr.writes])⟩
  | addReg x y => exact ⟨_, rfl, .writeResultThenFlag x _ _ (by simp [Instr.writes]) (by simp [Instr.writes])⟩
  | sub x y => exact ⟨_, rfl, .writeResultThenFlag x _ _ (by simp [Instr.writes]) (by simp [Instr.writes])⟩
  | subn x y => exact ⟨_, rfl, .writeResultThenFlag y _ _ (by simp [Instr.writes]) (by simp [Instr.writes])⟩
  | shr x => exact ⟨_, rfl, .writeResultThenFlag x _ _ (by simp [Instr.writes]) (by simp [Instr.writes])⟩
  | shl x => exact ⟨_, rfl, .writeResultThenFlag x _ _ (by simp [Instr.writes]) (by simp [Instr.writes])⟩
  | rnd x kk => exact ⟨_, rfl, .rnd x kk _⟩
  | ldI nnn => exact ⟨_, rfl, .setIndex _ (.inl ⟨nnn, rfl⟩)⟩
  | addI x => exact ⟨_, rfl, .setIndex _ (.inr ⟨x, .inl rfl⟩)⟩
  | ldF x =>
    by_cases h : (s.reg x).toNat ≤ 15
    · exact ⟨_, execLdF_valid h, .setIndex _ (.inr ⟨x, .inr rfl⟩)⟩
    · exact ⟨_, execLdF_invalid (by omega), .halt ..⟩
  | drw x y n =>
    cases h : boundsFault s.dataAddress n.toNat with
    | some a => exact ⟨_, execDrw_fault h, .halt ..⟩
    | none => exact ⟨_, execDrw_ok h, .drw x y n ..⟩
  | ldVxK x => exact keyWaitPass_effect x s
  | ldDtVx x => exact ⟨_, rfl, .storeDelay x⟩
  | ldStVx x => exact ⟨_, rfl, .storeSound x⟩
  | ldB x => exact storeAtIndex_effect _ (by simp) ⟨x, .inl rfl⟩ s
  | ldIVx x => exact storeAtIndex_effect _ (by simp) ⟨x, .inr rfl⟩ s
  | ldVxI x =>
    cases h : boundsFault s.dataAddress (x.val + 1) with
    | some a => exact ⟨_, execLdVxI_fault h, .halt ..⟩
    | none => exact ⟨_, execLdVxI_ok h, .fillRegs x⟩

/-- What an instruction answered is one of its effects. -/
theorem Effect.of_exec {i : Instr} {s t : State} (h : exec i s = .next t) : Effect s i t := by
  obtain ⟨u, hu, effect⟩ := exec_effect i s
  cases hu.symm.trans h
  exact effect

theorem Effect.of_keyWaitPass {x : Reg} {s t : State} (h : keyWaitPass x s = .next t) : Effect s (.ldVxK x) t :=
  Effect.of_exec (i := .ldVxK x) h

end Sys2Proof.Machine

/-! # Every step keeps the invariant -/

namespace Sys2Proof.Machine

theorem opcodeAtPc_congr {s t : State} (hm : t.mem = s.mem) (hp : t.pc = s.pc) : t.opcodeAtPc = s.opcodeAtPc := by
  rw [State.opcodeAtPc, State.opcodeAtPc, hm, hp]

/-- The invariant speaks of memory, the call stack, `PC` and the mark of the wait alone. -/
theorem State.Inv.congr {s t : State} (inv : s.Inv) (hm : t.mem = s.mem) (hk : t.stack = s.stack) (hp : t.pc = s.pc)
    (hw : t.keyWait = s.keyWait) : t.Inv where
  memWf := hm ▸ inv.memWf
  memInRange := hm ▸ inv.memInRange
  stackAtMost := by rw [State.sp, hk]; exact inv.stackAtMost
  stackInRange := hk ▸ inv.stackInRange
  pcAtMost := hp ▸ inv.pcAtMost
  waiting := by rw [opcodeAtPc_congr hm hp, hp, hw]; exact inv.waiting

/-- Outside a key wait, `PC` may go anywhere within its bound. -/
theorem State.Inv.congr_idle {s t : State} (inv : s.Inv) (hm : t.mem = s.mem) (hk : t.stack = s.stack)
    (hp : t.pc.toNat ≤ maxPc) (hw : t.keyWait = none) : t.Inv where
  memWf := hm ▸ inv.memWf
  memInRange := hm ▸ inv.memInRange
  stackAtMost := by rw [State.sp, hk]; exact inv.stackAtMost
  stackInRange := hk ▸ inv.stackInRange
  pcAtMost := hp
  waiting := by simp [hw]

/-- A small addition to a program address overflows nothing. -/
theorem pc_add_le_maxPc {a d : PcWord} (ha : a.toNat < memSize) (hd : d.toNat ≤ 4) : (a + d).toNat ≤ maxPc := by
  rw [BitVec.toNat_add, two_pow_pcW, maxPc]
  rw [memSize] at ha
  omega

/-- A store that fits keeps memory canonical and inside the address space. -/
theorem State.Inv.store {s t : State} (inv : s.Inv) {a : Nat} {bytes : List Byte} (fits : a + bytes.length ≤ memSize)
    (hm : t.mem = Memory.storeBytes s.mem a bytes) (hk : t.stack = s.stack) (hp : t.pc.toNat ≤ maxPc)
    (hw : t.keyWait = none) : t.Inv where
  memWf := hm ▸ Memory.wf_storeBytes inv.memWf a bytes
  memInRange := by
    intro c hc
    rw [hm] at hc
    rcases Memory.mem_storeBytes hc with old | ⟨-, below⟩
    · exact inv.memInRange c old
    · omega
  stackAtMost := by rw [State.sp, hk]; exact inv.stackAtMost
  stackInRange := hk ▸ inv.stackInRange
  pcAtMost := hp
  waiting := by simp [hw]

/-- A CALL with room pushes an address that exists. -/
theorem State.Inv.call {s : State} (inv : s.Inv) (nnn : Addr12) (room : s.sp < stackDepth) (idle : s.keyWait = none)
    (inMem : s.pc.toNat < memSize) : ((s.push s.pc).setPc (zext Config.pcW nnn)).Inv where
  memWf := inv.memWf
  memInRange := inv.memInRange
  stackAtMost := by simpa using room
  stackInRange := by simpa using ⟨inMem, inv.stackInRange⟩
  pcAtMost := by
    have := nnn.isLt
    rw [State.setPc_pc, zext_pc_addr_toNat, maxPc]; omega
  waiting := by simp [idle]

/-- A RET pops an address that exists, so the advance behind it overflows nothing. -/
theorem State.Inv.ret {s : State} (inv : s.Inv) {a : StackEntry} {rest : List StackEntry} (live : s.stack = a :: rest)
    (idle : s.keyWait = none) : ((s.setStack rest).setPc a).advance.Inv where
  memWf := inv.memWf
  memInRange := inv.memInRange
  stackAtMost := by
    have := inv.stackAtMost
    rw [State.sp, live, List.length_cons] at this
    exact Nat.le_of_succ_le this
  stackInRange b hb := inv.stackInRange b (by rw [live]; exact List.mem_cons_of_mem a hb)
  pcAtMost := pc_add_le_maxPc (inv.stackInRange a (by simp [live])) (by decide)
  waiting := by simp [idle]

/-- The mark of the wait is right where `PC` addresses that LD_Vx_K. -/
theorem State.Inv.keepWaiting {s : State} (inv : s.Inv) {x : Reg} (inMem : s.pc.toNat + 1 < memSize)
    (decoded : decodeWord s.opcodeAtPc = .ok (.ldVxK x)) : (s.setKeyWait (some x)).Inv where
  memWf := inv.memWf
  memInRange := inv.memInRange
  stackAtMost := inv.stackAtMost
  stackInRange := inv.stackInRange
  pcAtMost := inv.pcAtMost
  waiting y hy := by
    obtain rfl : x = y := Option.some.inj hy
    exact ⟨inMem, decoded⟩

/-- The instruction at `PC` keeps the invariant of an engine that does not wait. -/
theorem Effect.keeps_inv {i : Instr} {s t : State} (effect : Effect s i t) (inv : s.Inv) (idle : s.keyWait = none)
    (inMem : s.pc.toNat + 1 < memSize) (decoded : decodeWord s.opcodeAtPc = .ok i) : t.Inv := by
  have inMem' : s.pc.toNat < memSize := by omega
  have advanced : (s.pc + 2).toNat ≤ maxPc := pc_add_le_maxPc inMem' (by decide)
  cases effect with
  | halt r => exact inv.congr rfl rfl rfl rfl
  | jump a bound => exact inv.congr_idle rfl rfl bound idle
  | skip taken =>
    rw [skipIf_eq]
    exact inv.congr_idle rfl rfl (pc_add_le_maxPc inMem' (by cases taken <;> decide)) idle
  | call nnn room => exact inv.call nnn room idle inMem'
  | ret a rest live => exact inv.ret live idle
  | keepWaiting x => exact inv.keepWaiting inMem decoded
  | endWait x k => exact inv.congr_idle rfl rfl advanced rfl
  | storeBytes bytes fits writer => exact inv.store fits rfl rfl advanced idle
  | fillRegs x => exact inv.congr_idle (by simp) (by simp) (by simpa using advanced) (by simpa)
  | _ => exact inv.congr_idle rfl rfl advanced idle

theorem keyWaitPass_keeps_inv {s t : State} {x : Reg} (inv : s.Inv) (waits : s.keyWait = some x)
    (h : keyWaitPass x s = .next t) : t.Inv := by
  obtain ⟨inMem, decoded⟩ := inv.waiting x waits
  rcases keyWaitPass_cases x s with ⟨-, e⟩ | ⟨-, -, e⟩ | ⟨k, -, -, -, e⟩ | ⟨k, -, -, -, e⟩ <;> cases e.symm.trans h
  · exact inv.congr rfl rfl rfl rfl
  · exact inv.keepWaiting inMem decoded
  · exact inv.congr rfl rfl rfl rfl
  · exact inv.congr_idle rfl rfl (pc_add_le_maxPc (Nat.lt_of_succ_lt inMem) (by decide)) rfl

theorem fetchDecodeExecute_keeps_inv {s t : State} (inv : s.Inv) (idle : s.keyWait = none)
    (h : s.fetchDecodeExecute = .next t) : t.Inv := by
  rcases fetchDecodeExecute_cases s with ⟨-, e⟩ | ⟨-, -, e⟩ | ⟨i, inMem, decoded, e⟩
  · cases e.symm.trans h
    exact inv.congr rfl rfl rfl rfl
  · cases e.symm.trans h
    exact inv.congr rfl rfl rfl rfl
  · exact (Effect.of_exec (e.symm.trans h)).keeps_inv inv idle inMem decoded

theorem engineStep_keeps_inv {s t : State} (inv : s.Inv) (h : engineStep s = .next t) : t.Inv := by
  rcases engineStep_cases s with ⟨-, e⟩ | ⟨x, -, waits, e⟩ | ⟨-, -, -, e⟩ | ⟨-, -, -, -, e⟩ | ⟨-, idle, -, -, e⟩
  · cases e.symm.trans h
    exact inv
  · exact keyWaitPass_keeps_inv inv waits (e.symm.trans h)
  · cases e.symm.trans h
    exact inv.congr rfl rfl rfl rfl
  · cases e.symm.trans h
    exact inv.congr rfl rfl rfl rfl
  · exact fetchDecodeExecute_keeps_inv inv idle (e.symm.trans h)

theorem agentStep_keeps_inv {a : Config.AgentStep} {s t : State} (inv : s.Inv) (h : agentStep a s = .next t) : t.Inv := by
  cases a with
  | engine => exact engineStep_keeps_inv inv h
  | tickDelay => cases h; exact inv.congr rfl rfl rfl rfl
  | tickSound => cases h; exact inv.congr rfl rfl rfl rfl
  | surface e =>
    cases h
    obtain ⟨⟨-, -, hp, hk, hm, -, hw⟩, -, -⟩ := surfaceStep_engine e s
    exact inv.congr hm hk hp hw

theorem afterChoice_keeps_inv {s : State} (inv : s.Inv) : s.afterChoice.Inv :=
  inv.congr (by simp) (by simp) (by simp) (by simp)

/-- Settles O17: the choice of the mover touches nothing the invariant speaks of, and each agent's step keeps it. -/
theorem everyStepKeepsTheInvariant : Obligations.EveryStepKeepsTheInvariant :=
  fun _ _ inv h => agentStep_keeps_inv (afterChoice_keeps_inv inv) h

end Sys2Proof.Machine

/-! # Registers and timers: what an instruction writes -/

namespace Sys2Proof.Machine

/-- Settles O56: each effect writes only the registers that its constructor names, and those are listed. -/
theorem registersOutsideTheWritesColumnAreUnchanged : Obligations.RegistersOutsideTheWritesColumnAreUnchanged := by
  intro i s t h z unlisted
  cases Effect.of_exec h with
  | writeReg x b listed => simpa using State.setReg_reg_ne s x z b (fun e => unlisted (e ▸ listed))
  | writeResultThenFlag x result flag listed flagListed =>
    have notResult : z ≠ x := fun e => unlisted (e ▸ listed)
    have notFlag : z ≠ vf := fun e => unlisted (e ▸ flagListed)
    simp [State.setResultThenFlag_reg, notResult, notFlag]
  | rnd x kk b => simpa using State.setReg_reg_ne s x z b (by simpa [Instr.writes] using unlisted)
  | fillRegs x =>
    have above : ¬ z ≤ x := by simpa [Instr.writes] using unlisted
    simp [State.fillRegs_reg, above]
  | drw x y n f flag => simpa using State.setReg_reg_ne (s.setFb f) vf z flag (by simpa [Instr.writes] using unlisted)
  | endWait x k => simpa using State.setReg_reg_ne s x z k (by simpa [Instr.writes] using unlisted)
  | skip taken => exact State.skipIf_reg s taken z
  | _ => rfl

/-- `DT` changes only under LD_DT_Vx, which stores its register (10_state.md R30). -/
theorem Effect.dt_cases {i : Instr} {s t : State} (effect : Effect s i t) :
    t.dt = s.dt ∨ ∃ x, i = .ldDtVx x ∧ t.dt = s.reg x := by
  cases effect with
  | storeDelay x => exact .inr ⟨x, rfl, rfl⟩
  | skip taken => exact .inl (State.skipIf_dt s taken)
  | fillRegs x => exact .inl (by simp)
  | _ => exact .inl rfl

/-- `ST` changes only under LD_ST_Vx, which stores its register (10_state.md R30). -/
theorem Effect.st_cases {i : Instr} {s t : State} (effect : Effect s i t) :
    t.st = s.st ∨ ∃ x, i = .ldStVx x ∧ t.st = s.reg x := by
  cases effect with
  | storeSound x => exact .inr ⟨x, rfl, rfl⟩
  | skip taken => exact .inl (State.skipIf_st s taken)
  | fillRegs x => exact .inl (by simp)
  | _ => exact .inl rfl

theorem keyWaitPass_timers {x : Reg} {s t : State} (h : keyWaitPass x s = .next t) : t.dt = s.dt ∧ t.st = s.st := by
  have effect := Effect.of_keyWaitPass h
  exact ⟨by simpa using effect.dt_cases, by simpa using effect.st_cases⟩

/-- An engine step either leaves both timers as they are or is a cycle that runs the instruction at `PC`. -/
theorem engineStep_timers_or_runs {s t : State} (h : engineStep s = .next t) :
    (t.dt = s.dt ∧ t.st = s.st) ∨
    ((s.run = .running ∧ s.keyWait = none ∧ s.surfaceRunning = true) ∧
      ∃ i, decodeWord s.opcodeAtPc = .ok i ∧ Effect s i t) := by
  rcases engineStep_cases s with
    ⟨-, e⟩ | ⟨x, -, -, e⟩ | ⟨-, -, -, e⟩ | ⟨-, -, -, -, e⟩ | ⟨running, idle, surfaceRuns, -, e⟩
  · cases e.symm.trans h; exact .inl ⟨rfl, rfl⟩
  · exact .inl (keyWaitPass_timers (e.symm.trans h))
  · cases e.symm.trans h; exact .inl ⟨rfl, rfl⟩
  · cases e.symm.trans h; exact .inl ⟨rfl, rfl⟩
  · rcases fetchDecodeExecute_cases s with ⟨-, e'⟩ | ⟨-, -, e'⟩ | ⟨i, -, decoded, e'⟩
    · cases e'.symm.trans (e.symm.trans h); exact .inl ⟨rfl, rfl⟩
    · cases e'.symm.trans (e.symm.trans h); exact .inl ⟨rfl, rfl⟩
    · exact .inr ⟨⟨running, idle, surfaceRuns⟩, i, decoded, Effect.of_exec (e'.symm.trans (e.symm.trans h))⟩

theorem tickValue_le (b : TimerByte) : (tickValue b).toNat ≤ b.toNat := by
  unfold tickValue
  split
  · simp
  · rename_i nonzero
    suffices pred_le : ∀ b : BitVec 8, b ≠ 0 → (b - 1).toNat ≤ b.toNat from pred_le b nonzero
    intro b nonzero
    bv_omega

/-- Settles O55: a tick and a surface step raise no timer, and an engine step that changes one has run its store. -/
theorem onlyAStoreRaisesATimer : Obligations.OnlyAStoreRaisesATimer := by
  intro s t h
  cases hm : s.mover with
  | tickDelay =>
    rw [step_eq, hm] at h; cases h
    exact ⟨.inl (by simpa using tickValue_le s.dt), .inl (by simp)⟩
  | tickSound =>
    rw [step_eq, hm] at h; cases h
    exact ⟨.inl (by simp), .inl (by simpa using tickValue_le s.st)⟩
  | surface e =>
    rw [step_eq, hm] at h; cases h
    obtain ⟨-, hd, hs⟩ := surfaceStep_engine e s.afterChoice
    exact ⟨.inl (by simp [hd]), .inl (by simp [hs])⟩
  | engine =>
    rw [step_engine hm] at h
    rcases engineStep_timers_or_runs h with ⟨hd, hs⟩ | ⟨⟨running, idle, surfaceRuns⟩, i, decoded, effect⟩
    · exact ⟨.inl (by simp [hd]), .inl (by simp [hs])⟩
    · have ready : s.aboutToFetch := ⟨hm, by simpa using running, by simpa using idle, by simpa using surfaceRuns⟩
      rw [afterChoice_opcodeAtPc] at decoded
      constructor
      · rcases effect.dt_cases with same | ⟨x, rfl, stored⟩
        · exact .inl (by simp [same])
        · exact .inr ⟨ready, x, decoded, by simpa using stored⟩
      · rcases effect.st_cases with same | ⟨x, rfl, stored⟩
        · exact .inl (by simp [same])
        · exact .inr ⟨ready, x, decoded, by simpa using stored⟩

end Sys2Proof.Machine

/-! # Nested calls -/

namespace Sys2Proof.Machine

/-- Meanings one after another: the first, then the others on what it left. -/
theorem execAll_cons_next {i : Instr} {is : List Instr} {s t : State} (h : exec i s = .next t) :
    execAll (i :: is) s = execAll is t := by
  simp [execAll, h]

/-- CALLs that find room all succeed, and their return addresses lie on top of what the stack held. -/
theorem execAll_calls_next (targets : List Addr12) (s : State) (room : s.sp + targets.length ≤ stackDepth) :
    ∃ t pushed, execAll (targets.map Instr.call) s = .next t ∧ pushed.length = targets.length ∧
      t.stack = pushed ++ s.stack := by
  induction targets generalizing s with
  | nil => exact ⟨s, [], rfl, rfl, rfl⟩
  | cons nnn targets ih =>
    rw [List.length_cons] at room
    have first : exec (.call nnn) s = .next _ := execCall_room (by omega)
    obtain ⟨t, pushed, run, len, stack⟩ := ih ((s.push s.pc).setPc (zext Config.pcW nnn)) (by rw [State.setPc_sp, State.push_sp]; omega)
    exact ⟨t, pushed ++ [s.pc], (execAll_cons_next first).trans run, by simp [len], by simp [stack]⟩

/-- Settles O26: the first CALL puts its address at the bottom, the other fifteen fill the stack above it. -/
theorem sixteenNestedCallsThenOverflow : Obligations.SixteenNestedCallsThenOverflow := by
  intro targets s count empty
  cases targets with
  | nil => simp at count
  | cons nnn targets =>
    rw [List.length_cons] at count
    have bare : s.stack = [] := List.length_eq_zero_iff.mp empty
    have first : exec (.call nnn) s = .next _ := execCall_room (by rw [empty]; decide)
    obtain ⟨t, pushed, run, len, stack⟩ :=
      execAll_calls_next targets ((s.push s.pc).setPc (zext Config.pcW nnn)) (by rw [State.setPc_sp, State.push_sp, empty, stackDepth]; omega)
    have full : t.stack = pushed ++ [s.pc] := by simpa [bare] using stack
    have depth : t.sp = 16 := by rw [State.sp, full, List.length_append, len]; exact count
    exact ⟨t, (execAll_cons_next first).trans run, depth, by simp [State.stackEntry, full],
      fun target => execCall_full (nnn := target) (by rw [depth]; decide)⟩

end Sys2Proof.Machine

/-! # The other agents, and the engine inside its wait -/

namespace Sys2Proof.Machine

theorem setKeys_keyDown (s : State) (code other : Key) (down : Bool) :
    (s.setKeys (s.keys.set code down)).keyDown other = if other = code then down else s.keyDown other := by
  by_cases h : other = code
  · simp [State.keyDown, h]
  · have h' : ¬ (code : Nat) = other := fun e => h (Fin.ext e.symm)
    simp [State.keyDown, h, Vector.getElem_set_ne _ _ h']

/-- Settles O15: each of these steps is one named update, and `surfaceStep_engine` says what no surface step touches. -/
theorem otherAgentsLeaveTheEngineAlone : Obligations.OtherAgentsLeaveTheEngineAlone := by
  intro s
  refine ⟨⟨_, rfl, rfl⟩, ⟨_, rfl, rfl⟩, fun e => ⟨_, rfl, surfaceStep_engine e s⟩, fun code down => ⟨_, rfl, ?_, ?_, rfl⟩,
    fun answer => ⟨_, rfl, rfl, rfl⟩, ⟨_, rfl, rfl, rfl⟩, ⟨_, rfl, rfl, rfl⟩⟩
  · simp [surfaceStep, setKeys_keyDown]
  · intro other different
    simp [surfaceStep, setKeys_keyDown, different]

/-- The choice of the mover does not read the mark of the wait. -/
theorem setKeyWait_mover (s : State) (k : Option Reg) : (s.setKeyWait k).mover = s.mover := rfl

theorem setKeyWait_afterChoice (s : State) (k : Option Reg) :
    (s.setKeyWait k).afterChoice = s.afterChoice.setKeyWait k := by
  cases h : s.schedule <;> simp [State.afterChoice, h] <;> rfl

/-- An engine step inside the wait is one more pass. -/
theorem engineStep_waiting {s : State} {x : Reg} (running : s.run = .running) (waits : s.keyWait = some x) :
    engineStep s = keyWaitPass x s := by
  simp [engineStep, running, waits]

/-- An engine about to fetch, with both bytes of an instruction at `PC`, runs it. -/
theorem engineStep_runs {s : State} {i : Instr} (running : s.run = .running) (idle : s.keyWait = none)
    (surfaceRuns : s.surfaceRunning = true) (inMem : s.pc.toNat + 1 < memSize) (decoded : decodeWord s.opcodeAtPc = .ok i) :
    engineStep s = exec i s := by
  rw [engineStep_ready running idle surfaceRuns (by omega)]
  rcases fetchDecodeExecute_cases s with ⟨h, -⟩ | ⟨-, h, -⟩ | ⟨j, -, h, e⟩
  · omega
  · simp [decoded] at h
  · obtain rfl : i = j := by simpa [decoded] using h
    exact e

/-- Settles O43: without the mark, the engine fetches the LD_Vx_K that the invariant says is at `PC`, and makes the same pass. -/
theorem waitingIsRefetchingTheSameInstruction : Obligations.WaitingIsRefetchingTheSameInstruction := by
  intro s x inv moves running waits surfaceRuns
  obtain ⟨inMem, decoded⟩ := inv.waiting x waits
  have waiting : step s = keyWaitPass x s.afterChoice := by
    rw [step_engine moves, engineStep_waiting (by simpa) (by simpa)]
  have refetching : step (s.setKeyWait none) = keyWaitPass x (s.afterChoice.setKeyWait none) := by
    rw [step_engine ((setKeyWait_mover s none).trans moves), setKeyWait_afterChoice]
    exact engineStep_runs (i := .ldVxK x) (by simpa) rfl (by simpa) (by simpa) (by simpa [State.opcodeAtPc] using decoded)
  rw [waiting, refetching, keyWaitPass_hideWait]

end Sys2Proof.Machine

/-! # What an instruction reads -/

namespace Sys2Proof.Machine

/-! ## A pass of the key wait, case by case (42_display_input.md R146, R147) -/

theorem keyWaitPass_stopped {x : Reg} {s : State} (stopped : s.surfaceRunning = false) :
    keyWaitPass x s = .next (s.setRun (.halted .surfaceClosed)) := by
  simp [keyWaitPass, State.isRunning, stopped, halt_eq]

theorem keyWaitPass_noKey {x : Reg} {s : State} (runs : s.surfaceRunning = true) (noKey : s.pollAnswer = none) :
    keyWaitPass x s = .next (s.setKeyWait (some x)) := by
  simp [keyWaitPass, State.isRunning, State.pollPressedKey, runs, noKey]

theorem keyWaitPass_invalidKey {x : Reg} {s : State} {k : Byte} (runs : s.surfaceRunning = true)
    (key : s.pollAnswer = some k) (invalid : 15 < k.toNat) :
    keyWaitPass x s = .next (s.setRun (.halted (.fatal (.invalidKeyCode k)))) := by
  have high : Config.nKeys ≤ k.toNat := invalid
  simp [keyWaitPass, State.isRunning, State.pollPressedKey, runs, key, high]

theorem keyWaitPass_key {x : Reg} {s : State} {k : Byte} (runs : s.surfaceRunning = true) (key : s.pollAnswer = some k)
    (valid : k.toNat ≤ 15) : keyWaitPass x s = .next ((s.setReg x k).setKeyWait none).advance := by
  have low : ¬ Config.nKeys ≤ k.toNat := Nat.not_le.mpr (Nat.lt_succ_of_le valid)
  simp [keyWaitPass, State.isRunning, State.pollPressedKey, runs, key, low]

/-! ## Outcomes that agree but for one register -/

/-- Two outcomes that agree but for register `z`. -/
def SameOutcomeBut (z : Reg) (r r' : Result) : Prop := onNext (State.hideReg z) r = onNext (State.hideReg z) r'

/-- It is enough to compare the other registers and the state without registers. -/
theorem SameOutcomeBut.next {z : Reg} {t u : State} (regs : ∀ y, y ≠ z → t.reg y = u.reg y) (rest : t.setV u.v = u) :
    SameOutcomeBut z (.next t) (.next u) := by
  have sameV : (t.hideReg z).v = (u.hideReg z).v := by
    apply Vector.ext
    intro k hk
    have := regs ⟨k, hk⟩
    by_cases hz : k = z.val
    · simp [State.hideReg, hz]
    · have other : (⟨k, hk⟩ : Reg) ≠ z := fun e => hz (congrArg Fin.val e)
      simpa [State.hideReg, Vector.getElem_set, Ne.symm hz, State.reg] using this other
  have same : t.hideReg z = u.hideReg z := by
    calc t.hideReg z = (t.setV u.v).setV (t.hideReg z).v := rfl
      _ = u.setV (u.hideReg z).v := by rw [rest, sameV]
      _ = u.hideReg z := rfl
  exact congrArg Host.Outcome.next same

/-- An update that leaves `z` as it found it carries a difference there through. -/
theorem SameOutcomeBut.of_setReg {z : Reg} {b : RegByte} {t t' : State} (h : t' = t.setReg z b) :
    SameOutcomeBut z (.next t') (.next t) := by
  subst h
  exact .next (fun y hy => State.setReg_reg_ne t z y b hy) rfl

section
variable {z : Reg} (b : RegByte) (s : State)

theorem setReg_reg_unread {x : Reg} (unread : z ≠ x) : (s.setReg z b).reg x = s.reg x :=
  State.setReg_reg_ne s z x b (Ne.symm unread)

theorem raise_sameBut (c : Condition) : SameOutcomeBut z (raise c (s.setReg z b)) (raise c s) :=
  .of_setReg (b := b) rfl

theorem writeReg_sameBut (x : Reg) (c : RegByte) :
    SameOutcomeBut z (.next ((s.setReg z b).setReg x c).advance) (.next (s.setReg x c).advance) :=
  .next (fun y hy => by simp [State.setReg_reg, hy]) rfl

theorem writeResultThenFlag_sameBut (x : Reg) (c flag : RegByte) :
    SameOutcomeBut z (.next ((s.setReg z b).setResultThenFlag x c flag).advance)
      (.next (s.setResultThenFlag x c flag).advance) :=
  .next (fun y hy => by simp [State.setResultThenFlag_reg, State.setReg_reg, hy]) rfl

theorem skipIf_sameBut (taken : Bool) : SameOutcomeBut z (.next ((s.setReg z b).skipIf taken)) (.next (s.skipIf taken)) :=
  .of_setReg (b := b) (by rw [skipIf_eq, skipIf_eq]; rfl)

theorem addInto_sameBut {x : Reg} {o : Operand} (unread : z ≠ x) (same : o.value (s.setReg z b) = o.value s) :
    SameOutcomeBut z (addInto x o (s.setReg z b)) (addInto x o s) := by
  rw [addInto, same, setReg_reg_unread b s unread]
  exact writeResultThenFlag_sameBut b s x _ _

theorem subInto_sameBut {dest x y : Reg} (unread : z ≠ x) (unread' : z ≠ y) :
    SameOutcomeBut z (subInto dest x y (s.setReg z b)) (subInto dest x y s) := by
  rw [subInto, setReg_reg_unread b s unread, setReg_reg_unread b s unread']
  exact writeResultThenFlag_sameBut b s dest _ _

theorem skipIfEqual_sameBut {x : Reg} {o : Operand} (unread : z ≠ x) (same : o.value (s.setReg z b) = o.value s) :
    SameOutcomeBut z (skipIfEqual x o (s.setReg z b)) (skipIfEqual x o s) := by
  rw [skipIfEqual, same, setReg_reg_unread b s unread]
  exact skipIf_sameBut b s _

theorem skipIfNotEqual_sameBut {x : Reg} {o : Operand} (unread : z ≠ x) (same : o.value (s.setReg z b) = o.value s) :
    SameOutcomeBut z (skipIfNotEqual x o (s.setReg z b)) (skipIfNotEqual x o s) := by
  rw [skipIfNotEqual, same, setReg_reg_unread b s unread]
  exact skipIf_sameBut b s _

theorem skipOnKey_sameBut {x : Reg} (unread : z ≠ x) (wanted : Bool) :
    SameOutcomeBut z (skipOnKey x wanted (s.setReg z b)) (skipOnKey x wanted s) := by
  rw [skipOnKey, setReg_reg_unread b s unread, skipOnKey]
  cases keyCode (s.reg x) with
  | none => exact raise_sameBut b s _
  | some code => exact skipIf_sameBut b s _

theorem storeAtIndex_sameBut (bytes : List Byte) :
    SameOutcomeBut z (storeAtIndex bytes (s.setReg z b)) (storeAtIndex bytes s) := by
  cases h : boundsFault s.dataAddress bytes.length with
  | some a => rw [storeAtIndex_fault h, storeAtIndex_fault (s := s.setReg z b) h]; exact raise_sameBut b s _
  | none =>
    rw [storeAtIndex_ok h, storeAtIndex_ok (s := s.setReg z b) h]
    exact .of_setReg (b := b) rfl

theorem keyWaitPass_sameBut (x : Reg) : SameOutcomeBut z (keyWaitPass x (s.setReg z b)) (keyWaitPass x s) := by
  rcases keyWaitPass_cases x s with ⟨stopped, e⟩ | ⟨runs, noKey, e⟩ | ⟨k, runs, key, invalid, e⟩ | ⟨k, runs, key, valid, e⟩
  · rw [e, keyWaitPass_stopped (s := s.setReg z b) stopped]
    exact .of_setReg (b := b) rfl
  · rw [e, keyWaitPass_noKey (s := s.setReg z b) runs noKey]
    exact .of_setReg (b := b) rfl
  · rw [e, keyWaitPass_invalidKey (s := s.setReg z b) runs key invalid]
    exact .of_setReg (b := b) rfl
  · rw [e, keyWaitPass_key (s := s.setReg z b) runs key valid]
    exact .next (fun y hy => by simp [State.setReg_reg, hy]) rfl

theorem execLdF_sameBut {x : Reg} (unread : z ≠ x) : SameOutcomeBut z (execLdF x (s.setReg z b)) (execLdF x s) := by
  rw [execLdF, setReg_reg_unread b s unread, execLdF]
  split
  · exact raise_sameBut b s _
  · exact .of_setReg (b := b) rfl

theorem execDrw_sameBut {x y : Reg} (n : Nibble) (unread : z ≠ x) (unread' : z ≠ y) :
    SameOutcomeBut z (execDrw x y n (s.setReg z b)) (execDrw x y n s) := by
  cases h : boundsFault s.dataAddress n.toNat with
  | some a => rw [execDrw_fault h, execDrw_fault (s := s.setReg z b) h]; exact raise_sameBut b s _
  | none =>
    have sameDraw : drwResult x y n (s.setReg z b) = drwResult x y n s := by
      simp [drwResult, setReg_reg_unread b s unread, setReg_reg_unread b s unread', State.dataAddress]
    rw [execDrw_ok h, execDrw_ok (s := s.setReg z b) h, sameDraw]
    exact .next (fun y hy => by simp [State.setReg_reg, hy]) rfl

theorem execLdVxI_sameBut (x : Reg) : SameOutcomeBut z (execLdVxI x (s.setReg z b)) (execLdVxI x s) := by
  cases h : boundsFault s.dataAddress (x.val + 1) with
  | some a => rw [execLdVxI_fault h, execLdVxI_fault (s := s.setReg z b) h]; exact raise_sameBut b s _
  | none =>
    rw [execLdVxI_ok h, execLdVxI_ok (s := s.setReg z b) h]
    refine .next (fun y hy => by simp [State.setReg_reg, hy, State.fillRegs_reg, State.dataAddress]) ?_
    unfold State.fillRegs
    generalize Vector.ofFn _ = w
    generalize Vector.ofFn _ = w'
    rfl

theorem execRet_sameBut : SameOutcomeBut z (execRet (s.setReg z b)) (execRet s) := by
  cases h : s.stack with
  | nil => rw [execRet_empty h, execRet_empty (s := s.setReg z b) h]; exact raise_sameBut b s _
  | cons a rest =>
    rw [execRet_cons h, execRet_cons (s := s.setReg z b) h]
    exact .of_setReg (b := b) rfl

theorem execCall_sameBut (nnn : Addr12) : SameOutcomeBut z (execCall nnn (s.setReg z b)) (execCall nnn s) := by
  by_cases h : stackDepth ≤ s.sp
  · rw [execCall_full h, execCall_full (s := s.setReg z b) h]; exact raise_sameBut b s _
  · rw [execCall_room (s := s) (by omega), execCall_room (s := s.setReg z b) (by rw [State.setReg_sp]; omega)]
    exact .of_setReg (b := b) rfl

theorem regsUpTo_unread {x : Reg} (unread : ¬ z ≤ x) : (s.setReg z b).regsUpTo x = s.regsUpTo x := by
  refine List.ext_getElem (by simp) fun k hk hk' => ?_
  have below : k < x.val + 1 := by simpa using hk'
  have inRange : k < 16 := lt_of_lt_of_le below x.isLt
  have other : (⟨k, inRange⟩ : Reg) ≠ z := fun e => unread (e ▸ Nat.lt_succ_iff.mp below)
  rw [regsUpTo_getElem _ _ _ _ inRange, regsUpTo_getElem _ _ _ _ inRange, State.setReg_reg_ne _ _ _ _ other]

end

/-! ## All instructions -/

/-- Settles O57: each meaning does to the state with another value in an unread register what it does to the state. -/
theorem registersOutsideTheReadsColumnDoNotMatter : Obligations.RegistersOutsideTheReadsColumnDoNotMatter := by
  intro i s z b unlisted
  change SameOutcomeBut z (exec i (s.setReg z b)) (exec i s)
  cases i <;> simp only [Instr.reads, List.mem_cons, List.not_mem_nil, or_false, not_or, not_false_eq_true,
    mem_regsThrough] at unlisted
  case cls => exact .of_setReg (b := b) rfl
  case ret => exact execRet_sameBut b s
  case sys => exact .of_setReg (b := b) rfl
  case jp => exact .of_setReg (b := b) rfl
  case jpV0 nnn =>
    simp only [exec, execJpV0, setReg_reg_unread b s unlisted]
    exact .of_setReg (b := b) rfl
  case call nnn => exact execCall_sameBut b s nnn
  case seImm => exact skipIfEqual_sameBut b s unlisted rfl
  case sneImm => exact skipIfNotEqual_sameBut b s unlisted rfl
  case seReg => exact skipIfEqual_sameBut b s unlisted.1 (setReg_reg_unread b s unlisted.2)
  case sneReg => exact skipIfNotEqual_sameBut b s unlisted.1 (setReg_reg_unread b s unlisted.2)
  case ldImm x kk => exact writeReg_sameBut b s x kk
  case ldReg x y =>
    simp only [exec, execLdReg, copyInto, Operand.value, setReg_reg_unread b s unlisted]
    exact writeReg_sameBut b s x _
  case addImm => exact addInto_sameBut b s unlisted rfl
  case addReg => exact addInto_sameBut b s unlisted.1 (setReg_reg_unread b s unlisted.2)
  case sub => exact subInto_sameBut b s unlisted.1 unlisted.2
  case subn => exact subInto_sameBut b s unlisted.2 unlisted.1
  case or x y =>
    simp only [exec, execOr, writeNoFlag, setReg_reg_unread b s unlisted.1, setReg_reg_unread b s unlisted.2]
    exact writeReg_sameBut b s x _
  case and x y =>
    simp only [exec, execAnd, writeNoFlag, setReg_reg_unread b s unlisted.1, setReg_reg_unread b s unlisted.2]
    exact writeReg_sameBut b s x _
  case xor x y =>
    simp only [exec, execXor, writeNoFlag, setReg_reg_unread b s unlisted.1, setReg_reg_unread b s unlisted.2]
    exact writeReg_sameBut b s x _
  case shr x =>
    simp only [exec, execShr, setReg_reg_unread b s unlisted]
    exact writeResultThenFlag_sameBut b s x _ _
  case shl x =>
    simp only [exec, execShl, setReg_reg_unread b s unlisted]
    exact writeResultThenFlag_sameBut b s x _ _
  case ldI => exact .of_setReg (b := b) rfl
  case rnd => exact .next (fun y hy => by simp [State.setReg_reg, hy]) rfl
  case drw n => exact execDrw_sameBut b s n unlisted.1 unlisted.2
  case skp => exact skipOnKey_sameBut b s unlisted true
  case sknp => exact skipOnKey_sameBut b s unlisted false
  case ldVxDt x => exact writeReg_sameBut b s x s.dt
  case ldVxK x => exact keyWaitPass_sameBut b s x
  case ldDtVx =>
    simp only [exec, execLdDtVx, setReg_reg_unread b s unlisted]
    exact .of_setReg (b := b) rfl
  case ldStVx =>
    simp only [exec, execLdStVx, setReg_reg_unread b s unlisted]
    exact .of_setReg (b := b) rfl
  case addI =>
    simp only [exec, execAddI, setReg_reg_unread b s unlisted]
    exact .of_setReg (b := b) rfl
  case ldF => exact execLdF_sameBut b s unlisted
  case ldB =>
    simp only [exec, execLdB, setReg_reg_unread b s unlisted]
    exact storeAtIndex_sameBut b s _
  case ldIVx =>
    simp only [exec, execLdIVx, regsUpTo_unread b s unlisted]
    exact storeAtIndex_sameBut b s _
  case ldVxI x => exact execLdVxI_sameBut b s x

end Sys2Proof.Machine

/-! # Memory: the fetch, and accesses that leave it -/

namespace Sys2Proof.Machine

/-! ## The engine's fetch -/

/-- An engine about to fetch, with `PC` in memory, passes the halt check. -/
theorem step_fetches {s : State} (ready : s.aboutToFetch) (inMem : s.pc.toNat < memSize) :
    step s = s.afterChoice.fetchDecodeExecute := by
  obtain ⟨moves, running, idle, surfaceRuns⟩ := ready
  rw [step_engine moves]
  exact engineStep_ready (by simpa) (by simpa) (by simpa) (by simpa)

/-- `engineStep_runs` for the whole machine: the choice of the mover comes before the instruction. -/
theorem step_runs {s : State} {i : Instr} (ready : s.aboutToFetch) (inMem : s.pc.toNat + 1 < memSize)
    (decoded : decodeWord s.opcodeAtPc = .ok i) : step s = exec i s.afterChoice := by
  obtain ⟨moves, running, idle, surfaceRuns⟩ := ready
  rw [step_engine moves]
  exact engineStep_runs (by simpa) (by simpa) (by simpa) (by simpa) (by simpa)

theorem fetchDecodeExecute_pastMemory {s : State} (out : memSize ≤ s.pc.toNat + 1) :
    s.fetchDecodeExecute = raise (.memoryBoundsFault (max s.pc.toNat memSize)) s := by
  rcases fetchDecodeExecute_cases s with ⟨-, raised⟩ | ⟨inMem, -, -⟩ | ⟨i, inMem, -, -⟩
  · exact raised
  · omega
  · omega

theorem fetchDecodeExecute_illegal {s : State} {e : Reject} (inMem : s.pc.toNat + 1 < memSize)
    (rejected : decodeWord s.opcodeAtPc = .error e) :
    s.fetchDecodeExecute = raise (.decodeError s.opcodeAtPc) s := by
  rcases fetchDecodeExecute_cases s with ⟨out, -⟩ | ⟨-, -, raised⟩ | ⟨i, -, decoded, -⟩
  · omega
  · exact raised
  · simp [rejected] at decoded

/-- Settles O10: past the halt check, the fetch at the last address and the decoder's rejection each raise their condition. -/
theorem fetchAndDecodeRaiseTheirConditions : Obligations.FetchAndDecodeRaiseTheirConditions := by
  intro s ready
  constructor
  · intro atLast
    have lowest : max s.pc.toNat memSize = memSize := by omega
    rw [step_fetches ready (by omega), fetchDecodeExecute_pastMemory (by simp [atLast]), raise_eq, State.afterChoice_pc,
      lowest]
  · intro e inMem rejected
    rw [step_fetches ready (by omega), fetchDecodeExecute_illegal (e := e) (by simpa) (by simpa), raise_eq,
      afterChoice_opcodeAtPc]

/-! ## Data accesses that leave memory (20_memory.md R56) -/

/-- The range check of a data access that leaves memory. -/
theorem boundsFault_dataAddress {s : State} {len : Nat} (nonempty : 0 < len) (out : memSize < s.index.toNat + len) :
    boundsFault s.dataAddress len = some (max s.index.toNat memSize) :=
  boundsFault_some nonempty out

/-- Settles O51: each of the four instructions checks its whole range before it moves a byte. -/
theorem outOfRangeAccessMovesNothing : Obligations.OutOfRangeAccessMovesNothing := by
  intro s x y n
  refine ⟨fun nonempty out => ?drw, fun out => ?ldB, fun out => ⟨?ldIVx, ?ldVxI⟩⟩
  case drw => exact execDrw_fault (boundsFault_dataAddress nonempty out)
  case ldB => exact storeAtIndex_fault (boundsFault_dataAddress (by simp) (by simp; omega))
  case ldIVx => exact storeAtIndex_fault (boundsFault_dataAddress (by simp) (by simp; omega))
  case ldVxI => exact execLdVxI_fault (boundsFault_dataAddress (by omega) (by omega))

/-! ## Stored code (20_memory.md R66) -/

/-- Behind an LD_I_Vx that fits, byte `k` of the store reads as `V[k]`. -/
theorem read_of_execLdIVx {s t : State} {x : Reg} (fits : s.index.toNat + x.val < memSize)
    (h : exec (.ldIVx x) s = .next t) (k : Reg) (listed : k ≤ x) :
    Memory.read t.mem (s.index.toNat + k.val) = s.reg k := by
  have stored : k.val < (s.regsUpTo x).length := by rw [regsUpTo_length]; exact Nat.lt_succ_of_le listed
  obtain ⟨u, answer, bytes, -⟩ := storeAtIndex_writes (s := s) (bytes := s.regsUpTo x) (by rw [regsUpTo_length]; omega)
  cases answer.symm.trans h
  rw [bytes k.val stored, regsUpTo_getElem s x k.val stored k.isLt]

/-- Settles O52: the two bytes the fetch reads are the two registers that LD_I_Vx stored there. -/
theorem storedOpcodeIsFetchedAndRun : Obligations.StoredOpcodeIsFetchedAndRun := by
  intro s t u x k below i fits decoded stored sameMem atStored ready
  have high : Memory.read u.mem u.pc.toNat = s.reg k := by
    rw [sameMem, atStored]
    exact read_of_execLdIVx fits stored k (Nat.le_of_succ_le below)
  have low : Memory.read u.mem (u.pc.toNat + 1) = s.reg ⟨k.val + 1, by omega⟩ := by
    rw [sameMem, atStored, Nat.add_assoc]
    exact read_of_execLdIVx fits stored ⟨k.val + 1, by omega⟩ below
  exact step_runs ready (by omega) (by rw [State.opcodeAtPc, high, low]; exact decoded)

end Sys2Proof.Machine

/-! # The decoder and the encoder -/

namespace Sys2Proof.Machine

/-! ## Encoded words decode to their instruction (30_encoding.md R73, R88) -/

/-- Decoding undoes encoding: each format's fields read back what its word was assembled from, and the keys lead to the row. -/
theorem decodeWord_encode {i : Instr} (wf : i.wf = true) : decodeWord (encode i) = .ok i := by
  cases i
  case cls | ret => rfl
  case sys nnn =>
    simp only [Instr.wf, Bool.and_eq_true, bne_iff_ne] at wf
    obtain ⟨notCls, notRet⟩ := wf
    simp [encode, decodeWord_f0, decodeFamily0, fieldF_wordNNN, fieldKK_wordNNN, fieldNNN_wordNNN, notCls, notRet]
  case jp | call | ldI | jpV0 => simp [encode, decodeWord, fieldF_wordNNN, fieldNNN_wordNNN]
  case seImm | sneImm | ldImm | addImm | rnd =>
    simp [encode, decodeWord, fieldF_wordXKK, fieldX_wordXKK, fieldKK_wordXKK]
  case seReg | sneReg | drw =>
    simp [encode, decodeWord, fieldF_wordXYN, fieldX_wordXYN, fieldY_wordXYN, fieldN_wordXYN]
  case ldReg | or | and | xor | addReg | sub | shr | subn | shl =>
    simp [encode, decodeWord_f8, decodeFamily8, fieldF_wordXYN, fieldX_wordXYN, fieldY_wordXYN, fieldN_wordXYN]
  case skp | sknp =>
    simp [encode, decodeWord_fE, decodeFamilyE, fieldF_wordXKK, fieldX_wordXKK, fieldKK_wordXKK]
  case ldVxDt | ldVxK | ldDtVx | ldStVx | addI | ldF | ldB | ldIVx | ldVxI =>
    simp [encode, decodeWord_fF, decodeFamilyF, fieldF_wordXKK, fieldX_wordXKK, fieldKK_wordXKK]

/-- Settles O1: the word by the round trip of each format, the stream by its two bytes being the two halves of that word. -/
theorem decodeOfEncodeIsTheInstruction : Obligations.DecodeOfEncodeIsTheInstruction := by
  intro i wf
  have word := decodeWord_encode wf
  exact ⟨word, fun rest => by rw [encodeBytes, decode_splitWord, word]⟩

/-! ## The rows of the decoder (30_encoding.md R75 to R84) -/

/-- The keys that lead the decoder to each row of R76, and the operands it takes from the word there. -/
inductive DecodesTo (op : Opcode) : Instr → Prop where
  | cls (f : fieldF op = 0x0#4) (k : fieldKK op = 0xE0#8) : DecodesTo op .cls
  | ret (f : fieldF op = 0x0#4) (k : fieldKK op = 0xEE#8) : DecodesTo op .ret
  | sys (f : fieldF op = 0x0#4) (notCls : fieldKK op ≠ 0xE0#8) (notRet : fieldKK op ≠ 0xEE#8) :
      DecodesTo op (.sys (fieldNNN op))
  | jp (f : fieldF op = 0x1#4) : DecodesTo op (.jp (fieldNNN op))
  | call (f : fieldF op = 0x2#4) : DecodesTo op (.call (fieldNNN op))
  | seImm (f : fieldF op = 0x3#4) : DecodesTo op (.seImm (fieldX op) (fieldKK op))
  | sneImm (f : fieldF op = 0x4#4) : DecodesTo op (.sneImm (fieldX op) (fieldKK op))
  | seReg (f : fieldF op = 0x5#4) : DecodesTo op (.seReg (fieldX op) (fieldY op))
  | ldImm (f : fieldF op = 0x6#4) : DecodesTo op (.ldImm (fieldX op) (fieldKK op))
  | addImm (f : fieldF op = 0x7#4) : DecodesTo op (.addImm (fieldX op) (fieldKK op))
  | ldReg (f : fieldF op = 0x8#4) (n : fieldN op = 0x0#4) : DecodesTo op (.ldReg (fieldX op) (fieldY op))
  | or (f : fieldF op = 0x8#4) (n : fieldN op = 0x1#4) : DecodesTo op (.or (fieldX op) (fieldY op))
  | and (f : fieldF op = 0x8#4) (n : fieldN op = 0x2#4) : DecodesTo op (.and (fieldX op) (fieldY op))
  | xor (f : fieldF op = 0x8#4) (n : fieldN op = 0x3#4) : DecodesTo op (.xor (fieldX op) (fieldY op))
  | addReg (f : fieldF op = 0x8#4) (n : fieldN op = 0x4#4) : DecodesTo op (.addReg (fieldX op) (fieldY op))
  | sub (f : fieldF op = 0x8#4) (n : fieldN op = 0x5#4) : DecodesTo op (.sub (fieldX op) (fieldY op))
  | shr (f : fieldF op = 0x8#4) (n : fieldN op = 0x6#4) : DecodesTo op (.shr (fieldX op))
  | subn (f : fieldF op = 0x8#4) (n : fieldN op = 0x7#4) : DecodesTo op (.subn (fieldX op) (fieldY op))
  | shl (f : fieldF op = 0x8#4) (n : fieldN op = 0xE#4) : DecodesTo op (.shl (fieldX op))
  | sneReg (f : fieldF op = 0x9#4) : DecodesTo op (.sneReg (fieldX op) (fieldY op))
  | ldI (f : fieldF op = 0xA#4) : DecodesTo op (.ldI (fieldNNN op))
  | jpV0 (f : fieldF op = 0xB#4) : DecodesTo op (.jpV0 (fieldNNN op))
  | rnd (f : fieldF op = 0xC#4) : DecodesTo op (.rnd (fieldX op) (fieldKK op))
  | drw (f : fieldF op = 0xD#4) : DecodesTo op (.drw (fieldX op) (fieldY op) (fieldN op))
  | skp (f : fieldF op = 0xE#4) (k : fieldKK op = 0x9E#8) : DecodesTo op (.skp (fieldX op))
  | sknp (f : fieldF op = 0xE#4) (k : fieldKK op = 0xA1#8) : DecodesTo op (.sknp (fieldX op))
  | ldVxDt (f : fieldF op = 0xF#4) (k : fieldKK op = 0x07#8) : DecodesTo op (.ldVxDt (fieldX op))
  | ldVxK (f : fieldF op = 0xF#4) (k : fieldKK op = 0x0A#8) : DecodesTo op (.ldVxK (fieldX op))
  | ldDtVx (f : fieldF op = 0xF#4) (k : fieldKK op = 0x15#8) : DecodesTo op (.ldDtVx (fieldX op))
  | ldStVx (f : fieldF op = 0xF#4) (k : fieldKK op = 0x18#8) : DecodesTo op (.ldStVx (fieldX op))
  | addI (f : fieldF op = 0xF#4) (k : fieldKK op = 0x1E#8) : DecodesTo op (.addI (fieldX op))
  | ldF (f : fieldF op = 0xF#4) (k : fieldKK op = 0x29#8) : DecodesTo op (.ldF (fieldX op))
  | ldB (f : fieldF op = 0xF#4) (k : fieldKK op = 0x33#8) : DecodesTo op (.ldB (fieldX op))
  | ldIVx (f : fieldF op = 0xF#4) (k : fieldKK op = 0x55#8) : DecodesTo op (.ldIVx (fieldX op))
  | ldVxI (f : fieldF op = 0xF#4) (k : fieldKK op = 0x65#8) : DecodesTo op (.ldVxI (fieldX op))

section
variable {op : Opcode} {i : Instr}

theorem DecodesTo.decodeWord_eq (h : DecodesTo op i) : decodeWord op = .ok i := by
  cases h
  case cls f k | ret f k => simp [decodeWord_f0 f, decodeFamily0, k]
  case sys f notCls notRet => simp [decodeWord_f0 f, decodeFamily0, notCls, notRet]
  case jp f | call f | seImm f | sneImm f | seReg f | ldImm f | addImm f | sneReg f | ldI f | jpV0 f | rnd f | drw f =>
    simp [decodeWord, f]
  case ldReg f n | or f n | and f n | xor f n | addReg f n | sub f n | shr f n | subn f n | shl f n =>
    simp [decodeWord_f8 f, decodeFamily8, n]
  case skp f k | sknp f k => simp [decodeWord_fE f, decodeFamilyE, k]
  case ldVxDt f k | ldVxK f k | ldDtVx f k | ldStVx f k | addI f k | ldF f k | ldB f k | ldIVx f k | ldVxI f k =>
    simp [decodeWord_fF f, decodeFamilyF, k]

theorem DecodesTo.of_decodeFamily0 (f : fieldF op = 0x0#4) : DecodesTo op (decodeFamily0 op) := by
  unfold decodeFamily0
  split
  · exact .cls f ‹_›
  split
  · exact .ret f ‹_›
  · exact .sys f ‹_› ‹_›

theorem DecodesTo.of_decodeFamily8 (f : fieldF op = 0x8#4) (h : decodeFamily8 op = .ok i) : DecodesTo op i := by
  unfold decodeFamily8 at h
  split at h <;> cases h
  · exact .ldReg f ‹_›
  · exact .or f ‹_›
  · exact .and f ‹_›
  · exact .xor f ‹_›
  · exact .addReg f ‹_›
  · exact .sub f ‹_›
  · exact .shr f ‹_›
  · exact .subn f ‹_›
  · exact .shl f ‹_›

theorem DecodesTo.of_decodeFamilyE (f : fieldF op = 0xE#4) (h : decodeFamilyE op = .ok i) : DecodesTo op i := by
  unfold decodeFamilyE at h
  repeat' split at h
  all_goals cases h
  · exact .skp f ‹_›
  · exact .sknp f ‹_›

theorem DecodesTo.of_decodeFamilyF (f : fieldF op = 0xF#4) (h : decodeFamilyF op = .ok i) : DecodesTo op i := by
  unfold decodeFamilyF at h
  repeat' split at h
  all_goals cases h
  · exact .ldVxDt f ‹_›
  · exact .ldVxK f ‹_›
  · exact .ldDtVx f ‹_›
  · exact .ldStVx f ‹_›
  · exact .addI f ‹_›
  · exact .ldF f ‹_›
  · exact .ldB f ‹_›
  · exact .ldIVx f ‹_›
  · exact .ldVxI f ‹_›

theorem DecodesTo.of_decodeWord (h : decodeWord op = .ok i) : DecodesTo op i := by
  rcases nibble_cases (fieldF op) with f | f | f | f | f | f | f | f | f | f | f | f | f | f | f | f
  · cases (decodeWord_f0 f).symm.trans h; exact of_decodeFamily0 f
  · cases (decodeWord_f1 f).symm.trans h; exact .jp f
  · cases (decodeWord_f2 f).symm.trans h; exact .call f
  · cases (decodeWord_f3 f).symm.trans h; exact .seImm f
  · cases (decodeWord_f4 f).symm.trans h; exact .sneImm f
  · cases (decodeWord_f5 f).symm.trans h; exact .seReg f
  · cases (decodeWord_f6 f).symm.trans h; exact .ldImm f
  · cases (decodeWord_f7 f).symm.trans h; exact .addImm f
  · exact of_decodeFamily8 f ((decodeWord_f8 f).symm.trans h)
  · cases (decodeWord_f9 f).symm.trans h; exact .sneReg f
  · cases (decodeWord_fA f).symm.trans h; exact .ldI f
  · cases (decodeWord_fB f).symm.trans h; exact .jpV0 f
  · cases (decodeWord_fC f).symm.trans h; exact .rnd f
  · cases (decodeWord_fD f).symm.trans h; exact .drw f
  · exact of_decodeFamilyE f ((decodeWord_fE f).symm.trans h)
  · exact of_decodeFamilyF f ((decodeWord_fF f).symm.trans h)

/-! ## Decoded words encode back (30_encoding.md R77, R80, R81, R88) -/

theorem wordNNN_kept {f : Nat} (hf : f < 16) (h : fieldF op = BitVec.ofNat 4 f) :
    wordNNN f (fieldNNN op) = op &&& ~~~ (0 : Opcode) := by
  rw [op_of_nnn hf h, keep_all]

theorem wordXKK_kept {f : Nat} {kk : Byte} (hf : f < 16) (h : fieldF op = BitVec.ofNat 4 f) (hk : fieldKK op = kk) :
    wordXKK f (fieldX op) kk = op &&& ~~~ (0 : Opcode) := by
  rw [← hk, op_of_kk hf h, keep_all]

theorem wordXYN_kept {f : Nat} {n : Nibble} (hf : f < 16) (h : fieldF op = BitVec.ofNat 4 f) (hn : fieldN op = n) :
    wordXYN f (fieldX op) (fieldY op) n = op &&& ~~~ (0 : Opcode) := by
  rw [← hn, op_of_xyn hf h, keep_all]

/-- The low byte of a word's address field is the word's own: the second key of family 0. -/
theorem sysLowByte_fieldNNN : sysLowByte (fieldNNN op) = fieldKK op := by
  apply BitVec.eq_of_toNat_eq
  rw [sysLowByte_toNat, fieldNNN_toNat, fieldKK_toNat]
  omega

theorem DecodesTo.wf (h : DecodesTo op i) : i.wf = true := by
  cases h
  case sys f notCls notRet => simp [Instr.wf, sysLowByte_fieldNNN, notCls, notRet]
  all_goals rfl

theorem DecodesTo.encode_eq (h : DecodesTo op i) : encode i = op &&& ~~~ i.ignoredBits := by
  cases h
  case cls f k | ret f k => exact clear_x op _ f k
  case sys f _ _ => exact wordNNN_kept (by decide) f
  case jp f | call f | ldI f | jpV0 f => exact wordNNN_kept (by decide) f
  case seImm f | sneImm f | ldImm f | addImm f | rnd f => exact wordXKK_kept (by decide) f rfl
  case seReg f => exact clear_n op 0x5#4 f
  case sneReg f => exact clear_n op 0x9#4 f
  case shr f n => exact clear_y op 0x8#4 0x6#4 f n
  case shl f n => exact clear_y op 0x8#4 0xE#4 f n
  case drw f => exact wordXYN_kept (by decide) f rfl
  case ldReg f n | or f n | and f n | xor f n | addReg f n | sub f n | subn f n => exact wordXYN_kept (by decide) f n
  case skp f k | sknp f k | ldVxDt f k | ldVxK f k | ldDtVx f k | ldStVx f k | addI f k | ldF f k | ldB f k | ldIVx f k
      | ldVxI f k =>
    exact wordXKK_kept (by decide) f k

end

/-- Settles O2: row by row, assembling the operands of the row gives its word without the ignored digits. -/
theorem encodeOfDecodeIsTheWordButForIgnoredDigits : Obligations.EncodeOfDecodeIsTheWordButForIgnoredDigits := by
  intro op i decoded
  have row := DecodesTo.of_decodeWord decoded
  exact ⟨row.wf, row.encode_eq⟩

/-! ## The illegal words (30_encoding.md R85) -/

section
variable {op : Opcode}

theorem decodeFamily8_rejects_iff : (∃ e, decodeFamily8 op = .error e) ↔
    fieldN op ∈ [0x8#4, 0x9#4, 0xA#4, 0xB#4, 0xC#4, 0xD#4, 0xF#4] := by
  rcases nibble_cases (fieldN op) with n | n | n | n | n | n | n | n | n | n | n | n | n | n | n | n <;>
    simp [decodeFamily8, n]

theorem decodeFamilyE_rejects_iff : (∃ e, decodeFamilyE op = .error e) ↔ fieldKK op ∉ [0x9E#8, 0xA1#8] := by
  unfold decodeFamilyE
  repeat' split
  all_goals simp [*]

theorem decodeFamilyF_rejects_iff : (∃ e, decodeFamilyF op = .error e) ↔
    fieldKK op ∉ [0x07#8, 0x0A#8, 0x15#8, 0x18#8, 0x1E#8, 0x29#8, 0x33#8, 0x55#8, 0x65#8] := by
  unfold decodeFamilyF
  repeat' split
  all_goals simp [*]

/-- Outside families 8, E and F the second key rejects nothing. -/
theorem decodeWord_rejects_iff : (∃ e, decodeWord op = .error e) ↔
    (fieldF op = 0x8#4 ∧ ∃ e, decodeFamily8 op = .error e) ∨ (fieldF op = 0xE#4 ∧ ∃ e, decodeFamilyE op = .error e) ∨
      (fieldF op = 0xF#4 ∧ ∃ e, decodeFamilyF op = .error e) := by
  rcases nibble_cases (fieldF op) with f | f | f | f | f | f | f | f | f | f | f | f | f | f | f | f <;>
    simp [decodeWord, f]

end

/-- Settles O3: families 8, E and F are the only ones that reject, each by its second key. -/
theorem illegalWordsAreExactlyTheListed : Obligations.IllegalWordsAreExactlyTheListed := by
  intro op
  refine ⟨fun e => decodeWord_error, ?_⟩
  rw [decodeWord_rejects_iff, decodeFamily8_rejects_iff, decodeFamilyE_rejects_iff, decodeFamilyF_rejects_iff]

/-! ## The mask and match table (30_encoding.md R76) -/

theorem DecodesTo.selects {op : Opcode} {i : Instr} (h : DecodesTo op i) : op &&& i.rowMask = i.rowMatch := by
  cases h
  case cls f k | ret f k => exact (mask_byte_eq _ _ (by rfl)).mpr ⟨f, k⟩
  case sys f _ _ => exact (mask_family_eq _ (by rfl)).mpr f
  case jp f | call f | seImm f | sneImm f | seReg f | ldImm f | addImm f | sneReg f | ldI f | jpV0 f | rnd f | drw f =>
    exact (mask_family_eq _ (by rfl)).mpr f
  case ldReg f n | or f n | and f n | xor f n | addReg f n | sub f n | shr f n | subn f n | shl f n =>
    exact (mask_nibble_eq _ _ (by rfl)).mpr ⟨f, n⟩
  case skp f k | sknp f k | ldVxDt f k | ldVxK f k | ldDtVx f k | ldStVx f k | addI f k | ldF f k | ldB f k | ldIVx f k
      | ldVxI f k =>
    exact (mask_byte_eq _ _ (by rfl)).mpr ⟨f, k⟩

/-- A word that selects a row has the row's keys, so the dispatch leads there; CLS and RET are asked for before SYS. -/
theorem DecodesTo.exists_of_selects {op : Opcode} {j : Instr} (selects : op &&& j.rowMask = j.rowMatch) :
    ∃ i, DecodesTo op i ∧
      ((i.rowMask = j.rowMask ∧ i.rowMatch = j.rowMatch) ∨ ((i = .cls ∨ i = .ret) ∧ ∃ nnn, j = .sys nnn)) := by
  cases j
  case cls => exact ⟨_, ((mask_byte_eq _ _ (by rfl)).mp selects).elim .cls, .inl ⟨rfl, rfl⟩⟩
  case ret => exact ⟨_, ((mask_byte_eq _ _ (by rfl)).mp selects).elim .ret, .inl ⟨rfl, rfl⟩⟩
  case sys nnn =>
    have f : fieldF op = 0x0#4 := (mask_family_eq _ (by rfl)).mp selects
    by_cases clsKey : fieldKK op = 0xE0#8
    · exact ⟨_, .cls f clsKey, .inr ⟨.inl rfl, nnn, rfl⟩⟩
    by_cases retKey : fieldKK op = 0xEE#8
    · exact ⟨_, .ret f retKey, .inr ⟨.inr rfl, nnn, rfl⟩⟩
    · exact ⟨_, .sys f clsKey retKey, .inl ⟨rfl, rfl⟩⟩
  case jp => exact ⟨_, .jp ((mask_family_eq _ (by rfl)).mp selects), .inl ⟨rfl, rfl⟩⟩
  case call => exact ⟨_, .call ((mask_family_eq _ (by rfl)).mp selects), .inl ⟨rfl, rfl⟩⟩
  case seImm => exact ⟨_, .seImm ((mask_family_eq _ (by rfl)).mp selects), .inl ⟨rfl, rfl⟩⟩
  case sneImm => exact ⟨_, .sneImm ((mask_family_eq _ (by rfl)).mp selects), .inl ⟨rfl, rfl⟩⟩
  case seReg => exact ⟨_, .seReg ((mask_family_eq _ (by rfl)).mp selects), .inl ⟨rfl, rfl⟩⟩
  case ldImm => exact ⟨_, .ldImm ((mask_family_eq _ (by rfl)).mp selects), .inl ⟨rfl, rfl⟩⟩
  case addImm => exact ⟨_, .addImm ((mask_family_eq _ (by rfl)).mp selects), .inl ⟨rfl, rfl⟩⟩
  case sneReg => exact ⟨_, .sneReg ((mask_family_eq _ (by rfl)).mp selects), .inl ⟨rfl, rfl⟩⟩
  case ldI => exact ⟨_, .ldI ((mask_family_eq _ (by rfl)).mp selects), .inl ⟨rfl, rfl⟩⟩
  case jpV0 => exact ⟨_, .jpV0 ((mask_family_eq _ (by rfl)).mp selects), .inl ⟨rfl, rfl⟩⟩
  case rnd => exact ⟨_, .rnd ((mask_family_eq _ (by rfl)).mp selects), .inl ⟨rfl, rfl⟩⟩
  case drw => exact ⟨_, .drw ((mask_family_eq _ (by rfl)).mp selects), .inl ⟨rfl, rfl⟩⟩
  case ldReg => exact ⟨_, ((mask_nibble_eq _ _ (by rfl)).mp selects).elim .ldReg, .inl ⟨rfl, rfl⟩⟩
  case or => exact ⟨_, ((mask_nibble_eq _ _ (by rfl)).mp selects).elim .or, .inl ⟨rfl, rfl⟩⟩
  case and => exact ⟨_, ((mask_nibble_eq _ _ (by rfl)).mp selects).elim .and, .inl ⟨rfl, rfl⟩⟩
  case xor => exact ⟨_, ((mask_nibble_eq _ _ (by rfl)).mp selects).elim .xor, .inl ⟨rfl, rfl⟩⟩
  case addReg => exact ⟨_, ((mask_nibble_eq _ _ (by rfl)).mp selects).elim .addReg, .inl ⟨rfl, rfl⟩⟩
  case sub => exact ⟨_, ((mask_nibble_eq _ _ (by rfl)).mp selects).elim .sub, .inl ⟨rfl, rfl⟩⟩
  case shr => exact ⟨_, ((mask_nibble_eq _ _ (by rfl)).mp selects).elim .shr, .inl ⟨rfl, rfl⟩⟩
  case subn => exact ⟨_, ((mask_nibble_eq _ _ (by rfl)).mp selects).elim .subn, .inl ⟨rfl, rfl⟩⟩
  case shl => exact ⟨_, ((mask_nibble_eq _ _ (by rfl)).mp selects).elim .shl, .inl ⟨rfl, rfl⟩⟩
  case skp => exact ⟨_, ((mask_byte_eq _ _ (by rfl)).mp selects).elim .skp, .inl ⟨rfl, rfl⟩⟩
  case sknp => exact ⟨_, ((mask_byte_eq _ _ (by rfl)).mp selects).elim .sknp, .inl ⟨rfl, rfl⟩⟩
  case ldVxDt => exact ⟨_, ((mask_byte_eq _ _ (by rfl)).mp selects).elim .ldVxDt, .inl ⟨rfl, rfl⟩⟩
  case ldVxK => exact ⟨_, ((mask_byte_eq _ _ (by rfl)).mp selects).elim .ldVxK, .inl ⟨rfl, rfl⟩⟩
  case ldDtVx => exact ⟨_, ((mask_byte_eq _ _ (by rfl)).mp selects).elim .ldDtVx, .inl ⟨rfl, rfl⟩⟩
  case ldStVx => exact ⟨_, ((mask_byte_eq _ _ (by rfl)).mp selects).elim .ldStVx, .inl ⟨rfl, rfl⟩⟩
  case addI => exact ⟨_, ((mask_byte_eq _ _ (by rfl)).mp selects).elim .addI, .inl ⟨rfl, rfl⟩⟩
  case ldF => exact ⟨_, ((mask_byte_eq _ _ (by rfl)).mp selects).elim .ldF, .inl ⟨rfl, rfl⟩⟩
  case ldB => exact ⟨_, ((mask_byte_eq _ _ (by rfl)).mp selects).elim .ldB, .inl ⟨rfl, rfl⟩⟩
  case ldIVx => exact ⟨_, ((mask_byte_eq _ _ (by rfl)).mp selects).elim .ldIVx, .inl ⟨rfl, rfl⟩⟩
  case ldVxI => exact ⟨_, ((mask_byte_eq _ _ (by rfl)).mp selects).elim .ldVxI, .inl ⟨rfl, rfl⟩⟩

/-- Settles O4: every row of the decoder is selected by its keys, and a selected row's keys lead the dispatch to it. -/
theorem decoderAgreesWithTheMaskAndMatchTable : Obligations.DecoderAgreesWithTheMaskAndMatchTable := by
  refine ⟨fun op i decoded => (DecodesTo.of_decodeWord decoded).selects, fun op j selects => ?_⟩
  obtain ⟨i, row, agrees⟩ := DecodesTo.exists_of_selects selects
  exact ⟨i, row.decodeWord_eq, agrees⟩

/-! ## Words written out (30_encoding.md R71, R77 to R84) -/

/-- Settles O5: families 1 and D take their operands from the word's digits. -/
theorem sourceEncodingsDecodeAsGiven : Obligations.SourceEncodingsDecodeAsGiven := by
  exact ⟨decodeWord_f1 (by rfl), decodeWord_fD (by rfl), fun _ => decodeWord_f1, fun _ => decodeWord_fD⟩

/-- Settles O6: the decoder evaluated on each of the words. -/
theorem wordsOfEveryFamilyDecode : Obligations.WordsOfEveryFamilyDecode := by
  unfold Obligations.WordsOfEveryFamilyDecode
  and_intros <;> rfl

end Sys2Proof.Machine

/-! # Flow control: which fields an instruction changes -/

namespace Sys2Proof.Machine

/-- An effect that writes `RUN` writes nothing else. -/
theorem Effect.run_cases {i : Instr} {s t : State} (effect : Effect s i t) : t.run = s.run ∨ t = s.setRun t.run := by
  cases effect with
  | halt r => exact .inr rfl
  | skip taken => exact .inl (State.skipIf_run s taken)
  | fillRegs x => exact .inl (by simp)
  | _ => exact .inl rfl

/-- Settles O13: an effect that writes `RUN` is a halt, which writes `RUN` alone. -/
theorem haltingInstructionChangesOnlyRun : Obligations.HaltingInstructionChangesOnlyRun :=
  fun _ _ _ h halted => (Effect.of_exec h).run_cases.resolve_left halted

/-- `I` changes only under LD_I, ADD_I and LD_F (10_state.md R27). -/
theorem Effect.index_cases {i : Instr} {s t : State} (effect : Effect s i t) :
    t.index = s.index ∨ (∃ nnn, i = .ldI nnn) ∨ ∃ x, i = .addI x ∨ i = .ldF x := by
  cases effect with
  | setIndex a writer => exact .inr writer
  | skip taken => exact .inl (State.skipIf_index s taken)
  | fillRegs x => exact .inl (by simp)
  | _ => exact .inl rfl

/-- Memory changes only under LD_B and LD_I_Vx (20_memory.md R55). -/
theorem Effect.mem_cases {i : Instr} {s t : State} (effect : Effect s i t) :
    t.mem = s.mem ∨ ∃ x, i = .ldB x ∨ i = .ldIVx x := by
  cases effect with
  | storeBytes bytes fits writer => exact .inr writer
  | skip taken => exact .inl (State.skipIf_mem s taken)
  | fillRegs x => exact .inl (by simp)
  | _ => exact .inl rfl

/-- The call stack changes only under RET and CALL. -/
theorem Effect.stack_cases {i : Instr} {s t : State} (effect : Effect s i t) :
    t.stack = s.stack ∨ i = .ret ∨ ∃ nnn, i = .call nnn := by
  cases effect with
  | ret a rest live => exact .inr (.inl rfl)
  | call nnn room => exact .inr (.inr ⟨nnn, rfl⟩)
  | skip taken => exact .inl (State.skipIf_stack s taken)
  | fillRegs x => exact .inl (by simp)
  | _ => exact .inl rfl

/-- The pixel buffer and the pending frame change only under CLS and DRW. -/
theorem Effect.display_cases {i : Instr} {s t : State} (effect : Effect s i t) :
    (t.fb = s.fb ∧ t.pending = s.pending) ∨ i = .cls ∨ ∃ x y n, i = .drw x y n := by
  cases effect with
  | cls => exact .inr (.inl rfl)
  | drw x y n f flag => exact .inr (.inr ⟨x, y, n, rfl⟩)
  | skip taken => exact .inl ⟨State.skipIf_fb s taken, State.skipIf_pending s taken⟩
  | fillRegs x => exact .inl (by simp)
  | _ => exact .inl ⟨rfl, rfl⟩

/-- The mark of the wait changes only under LD_Vx_K. -/
theorem Effect.keyWait_cases {i : Instr} {s t : State} (effect : Effect s i t) :
    t.keyWait = s.keyWait ∨ ∃ x, i = .ldVxK x := by
  cases effect with
  | keepWaiting x => exact .inr ⟨x, rfl⟩
  | endWait x k => exact .inr ⟨x, rfl⟩
  | skip taken => exact .inl (State.skipIf_keyWait s taken)
  | fillRegs x => exact .inl (by simp)
  | _ => exact .inl rfl

/-- Only RND draws. -/
theorem Effect.draws_cases {i : Instr} {s t : State} (effect : Effect s i t) :
    t.draws = s.draws ∨ ∃ x kk, i = .rnd x kk := by
  cases effect with
  | rnd x kk b => exact .inr ⟨x, kk, rfl⟩
  | skip taken => exact .inl (State.skipIf_draws s taken)
  | fillRegs x => exact .inl (by simp)
  | _ => exact .inl rfl

/-- No instruction writes the surface's inputs or the schedule. -/
theorem Effect.inputs_unchanged {i : Instr} {s t : State} (effect : Effect s i t) :
    t.keys = s.keys ∧ t.surfaceRunning = s.surfaceRunning ∧ t.pollAnswer = s.pollAnswer ∧
      t.schedule = s.schedule ∧ t.turn = s.turn := by
  cases effect with
  | skip taken => simp
  | fillRegs x => simp
  | _ => exact ⟨rfl, rfl, rfl, rfl, rfl⟩

/-- Settles O58: field by field, what the effects say of it. -/
theorem onlyTheListedInstructionsChangeEachField : Obligations.OnlyTheListedInstructionsChangeEachField := by
  intro i s t h
  have effect := Effect.of_exec h
  refine ⟨effect.index_cases.resolve_left, effect.mem_cases.resolve_left, effect.stack_cases.resolve_left, fun changed => ?_,
    fun changed => ?_, fun changed => effect.display_cases.resolve_left ?_, effect.keyWait_cases.resolve_left,
    effect.draws_cases.resolve_left, effect.inputs_unchanged⟩
  · obtain ⟨x, stores, -⟩ := effect.dt_cases.resolve_left changed
    exact ⟨x, stores⟩
  · obtain ⟨x, stores, -⟩ := effect.st_cases.resolve_left changed
    exact ⟨x, stores⟩
  · rintro ⟨sameBuffer, samePending⟩
    exact changed.elim (· sameBuffer) (· samePending)

end Sys2Proof.Machine

/-! # Flow control: jumps, calls and skips (40_flow_control.md) -/

namespace Sys2Proof.Machine

/-- Settles O21: SYS is the common advance alone (R101). -/
theorem sysIsANoOp : Obligations.SysIsANoOp := fun _ _ => rfl

/-- Settles O22: the zero-extension keeps the address (R103). -/
theorem jumpGoesToItsAddress : Obligations.JumpGoesToItsAddress :=
  fun nnn _ => ⟨_, rfl, zext_pc_addr_toNat nnn, rfl⟩

/-- A 12-bit address plus a register's value does not wrap `PC` (R104). -/
theorem jumpV0_target_toNat (nnn : Addr12) (b : RegByte) :
    (zext Config.pcW nnn + zext Config.pcW b).toNat = nnn.toNat + b.toNat := by
  have hn := nnn.isLt
  have hb := regByte_lt b
  rw [BitVec.toNat_add, zext_pc_addr_toNat, zext_pc_reg_toNat, two_pow_pcW]
  omega

/-- Settles O23: the sum of the target formula does not wrap. -/
theorem jumpV0AddsRegisterZero : Obligations.JumpV0AddsRegisterZero :=
  fun nnn s => ⟨_, rfl, jumpV0_target_toNat nnn (s.reg 0), rfl⟩

theorem sp_of_stack_cons {s t : State} {a : StackEntry} (pushed : t.stack = a :: s.stack) : t.sp = s.sp + 1 := by
  rw [State.sp, pushed, List.length_cons, State.sp]

/-- The newest entry stands at the top of the stack, counted from the oldest (10_state.md R28). -/
theorem stackEntry_top {s t : State} {a : StackEntry} (pushed : t.stack = a :: s.stack) : t.stackEntry s.sp = some a := by
  simp [State.stackEntry, State.sp, pushed]

/-- The entries below the newest keep their places. -/
theorem stackEntry_below {s t : State} {a : StackEntry} (pushed : t.stack = a :: s.stack) {k : Nat} (below : k < s.sp) :
    t.stackEntry k = s.stackEntry k := by
  rw [State.stackEntry, State.stackEntry, pushed, List.reverse_cons]
  exact List.getElem?_append_left (by simpa [State.sp] using below)

/-- Settles O24: CALL's stack is the old one under the address of the CALL. -/
theorem callPushesItsOwnAddress : Obligations.CallPushesItsOwnAddress := by
  refine fun nnn s => ⟨fun room => ?_, fun full => execCall_full (nnn := nnn) (by rw [full, stackDepth])⟩
  have pushed : ((s.push s.pc).setPc (zext Config.pcW nnn)).stack = s.pc :: s.stack := rfl
  exact ⟨_, execCall_room room, sp_of_stack_cons pushed, stackEntry_top pushed, fun _ => stackEntry_below pushed,
    zext_pc_addr_toNat nnn, rfl⟩

/-- Settles O25: the old stack is RET's under the entry it pops. -/
theorem returnPopsAndAdvances : Obligations.ReturnPopsAndAdvances := by
  refine fun s => ⟨fun live => ?_, fun empty => execRet_empty (List.length_eq_zero_iff.mp empty)⟩
  obtain ⟨a, rest, stack⟩ := List.exists_cons_of_length_pos live
  have popped : s.stack = a :: ((s.setStack rest).setPc a).advance.stack := stack
  have depth : s.sp - 1 = ((s.setStack rest).setPc a).advance.sp := by rw [sp_of_stack_cons popped, Nat.add_sub_cancel]
  rw [depth]
  exact ⟨_, a, execRet_cons stack, stackEntry_top popped, rfl, rfl, fun _ below => (stackEntry_below popped below).symm, rfl⟩

/-- Settles O27: the RET finds the address of the CALL on top, over the stack from before the CALL. -/
theorem returnResumesAfterTheCall : Obligations.ReturnResumesAfterTheCall := by
  intro nnn s t u room call restored
  cases (execCall_room room).symm.trans call
  exact ⟨_, execRet_cons restored, rfl, rfl⟩

/-- Settles O28: the four compares are SE and SNE at a register or an immediate (R106). -/
theorem compareAndSkipAddsFourOrTwo : Obligations.CompareAndSkipAddsFourOrTwo :=
  fun s x y kk => ⟨skipIfEqual_eq x (.ofImm kk) s, skipIfEqual_eq x (.ofReg y) s,
    skipIfNotEqual_eq x (.ofImm kk) s, skipIfNotEqual_eq x (.ofReg y) s⟩

end Sys2Proof.Machine

/-! # Arithmetic and logic: results and flags (41_arithmetic_logic.md) -/

namespace Sys2Proof.Machine

/-! ## Writing registers and advancing -/

/-- One register write and the advance are all that `WritesReg` allows. -/
theorem setReg_advance_writesReg (s : State) (x : Reg) (b : Byte) : WritesReg s (s.setReg x b).advance x b :=
  ⟨State.setReg_reg_self s x b, fun z other => State.setReg_reg_ne s x z b other, rfl, rfl⟩

/-- `VF` is written last, so it ends as the flag where it is the result register too (R121). -/
theorem setResultThenFlag_advance_writes (s : State) (x : Reg) (result flag : Byte) :
    WritesResultAndFlag s (s.setResultThenFlag x result flag).advance x result flag := by
  refine ⟨State.setResultThenFlag_vf s x result flag, fun notFlag => ?_, fun z other notFlag => ?_, rfl, rfl⟩
  · simp [State.setResultThenFlag_reg, notFlag]
  · simp [State.setResultThenFlag_reg, other, notFlag]

/-! ## Byte arithmetic as arithmetic on numbers (R122, R125, R130, R131) -/

theorem flagByte_decide (p : Prop) [Decidable p] : flagByte (decide p) = if p then 1 else 0 := by
  simp [flagByte]

theorem flagByte_getLsbD (a : Byte) (k : Nat) : flagByte (a.getLsbD k) = BitVec.ofNat 8 (a.toNat / 2 ^ k % 2) := by
  rw [BitVec.getLsbD, Nat.testBit_eq_decide_div_mod_eq, flagByte_decide]
  rcases Nat.mod_two_eq_zero_or_one (a.toNat / 2 ^ k) with h | h <;> simp [h]

theorem add_eq_ofNat (a b : Byte) : a + b = BitVec.ofNat 8 ((a.toNat + b.toNat) % 256) :=
  BitVec.eq_of_toNat_eq (by simp)

theorem sub_eq_ofNat (a b : Byte) : a - b = BitVec.ofNat 8 ((256 + a.toNat - b.toNat) % 256) := by
  apply BitVec.eq_of_toNat_eq
  have := regByte_lt b
  rw [BitVec.toNat_sub, BitVec.toNat_ofNat]
  omega

theorem ushiftRight_one_eq_ofNat (a : Byte) : a >>> 1 = BitVec.ofNat 8 (a.toNat / 2) := by
  apply BitVec.eq_of_toNat_eq
  have := regByte_lt a
  rw [BitVec.toNat_ushiftRight, Nat.shiftRight_eq_div_pow, BitVec.toNat_ofNat]
  omega

theorem shiftLeft_one_eq_ofNat (a : Byte) : a <<< 1 = BitVec.ofNat 8 (a.toNat * 2 % 256) :=
  BitVec.eq_of_toNat_eq (by simp [Nat.shiftLeft_eq])

theorem carryFlag_eq (a b : Byte) : carryFlag a b = if a.toNat + b.toNat > 255 then 1 else 0 := flagByte_decide _

theorem noBorrowFlag_eq (a b : Byte) : noBorrowFlag a b = if a.toNat ≥ b.toNat then 1 else 0 := flagByte_decide _

theorem shrFlag_eq_ofNat (a : Byte) : shrFlag a = BitVec.ofNat 8 (a.toNat % 2) := by
  rw [shrFlag, flagByte_getLsbD, Nat.pow_zero, Nat.div_one]

theorem shlFlag_eq_ofNat (a : Byte) : shlFlag a = BitVec.ofNat 8 (a.toNat / 128) := by
  have bit : a.toNat / 2 ^ 7 % 2 = a.toNat / 128 := by have := regByte_lt a; omega
  rw [shlFlag, flagByte_getLsbD, bit]

/-! ## What the shared operations write -/

/-- ADD, whichever its operand kind (R122, R123). -/
theorem addInto_writes (x : Reg) (o : Operand) (s : State) : ∃ t, addInto x o s = .next t ∧
    WritesResultAndFlag s t x (BitVec.ofNat 8 (((s.reg x).toNat + (o.value s).toNat) % 256))
      (if (s.reg x).toNat + (o.value s).toNat > 255 then 1 else 0) := by
  rw [← add_eq_ofNat, ← carryFlag_eq]
  exact ⟨_, rfl, setResultThenFlag_advance_writes ..⟩

/-- SUB(a, b), whichever register receives the difference (R125, R126). -/
theorem subInto_writes (dest a b : Reg) (s : State) : ∃ t, subInto dest a b s = .next t ∧
    WritesResultAndFlag s t dest (BitVec.ofNat 8 ((256 + (s.reg a).toNat - (s.reg b).toNat) % 256))
      (if (s.reg a).toNat ≥ (s.reg b).toNat then 1 else 0) := by
  rw [← sub_eq_ofNat, ← noBorrowFlag_eq]
  exact ⟨_, rfl, setResultThenFlag_advance_writes ..⟩

theorem writeNoFlag_writesReg (x : Reg) (b : Byte) (s : State) : ∃ t, writeNoFlag x b s = .next t ∧ WritesReg s t x b :=
  ⟨_, rfl, setReg_advance_writesReg s x b⟩

/-! ## The instructions -/

/-- Settles O29: both forms are ADD at an immediate or a register (30_encoding.md R90). -/
theorem addWritesSumThenCarry : Obligations.AddWritesSumThenCarry :=
  fun s x y kk => ⟨addInto_writes x (.ofImm kk) s, addInto_writes x (.ofReg y) s⟩

/-- Settles O30: SUB's destination is its first operand. -/
theorem subWritesDifferenceThenNoBorrow : Obligations.SubWritesDifferenceThenNoBorrow :=
  fun s x y => subInto_writes x x y s

/-- Settles O31: under `SUBN_DEST = V[y]` both are SUB(y, x) into `V[y]`. -/
theorem subnIsSubWithOperandsSwapped : Obligations.SubnIsSubWithOperandsSwapped :=
  fun s x y => ⟨rfl, subInto_writes y y x s⟩

/-- Settles O32: under either reading SUBN is SUB(y, x) into the register the reading names. -/
theorem subnReadingsDifferOnlyInDestination : Obligations.SubnReadingsDifferOnlyInDestination := by
  intro s x y d
  cases d with
  | destY => exact subInto_writes y y x s
  | destX => exact subInto_writes x y x s

/-- Settles O33: the three differ only in the byte they write. -/
theorem logicWritesBitwiseResultWithoutFlag : Obligations.LogicWritesBitwiseResultWithoutFlag :=
  fun s x _ => ⟨writeNoFlag_writesReg x _ s, writeNoFlag_writesReg x _ s, writeNoFlag_writesReg x _ s⟩

/-- Settles O34: the flag is the old bit 0 or bit 7, that is the remainder by 2 or the quotient by 128. -/
theorem shiftsMoveOneBitIntoTheFlag : Obligations.ShiftsMoveOneBitIntoTheFlag := by
  intro s x
  rw [← ushiftRight_one_eq_ofNat, ← shrFlag_eq_ofNat, ← shiftLeft_one_eq_ofNat, ← shlFlag_eq_ofNat]
  exact ⟨⟨_, rfl, setResultThenFlag_advance_writes ..⟩, ⟨_, rfl, setResultThenFlag_advance_writes ..⟩⟩

/-- The zero-extended register adds to `I` as a number, modulo 65536 (R124, decision D10). -/
theorem index_add_reg_toNat (a : IndexWord) (b : RegByte) :
    (a + zext Config.iW b).toNat = (a.toNat + b.toNat) % 65536 := by
  rw [BitVec.toNat_add, zext_index_reg_toNat, two_pow_iW]

/-- Settles O35: `I` and `PC` are the only fields ADD_I writes. -/
theorem addIndexWrapsAtSixteenBits : Obligations.AddIndexWrapsAtSixteenBits :=
  fun s x => ⟨_, rfl, index_add_reg_toNat s.index (s.reg x), rfl, rfl⟩

/-- No bit of a byte masked by `kk` lies outside `kk`. -/
theorem masked_and_not_mask (b kk : Byte) : b &&& kk &&& ~~~ kk = 0 := by
  rw [BitVec.and_assoc, BitVec.and_not_self]
  exact BitVec.and_zero

/-- Settles O36, for whatever byte the free draw gives. -/
theorem randomByteIsMaskedByTheImmediate : Obligations.RandomByteIsMaskedByTheImmediate := by
  intro s x kk
  obtain ⟨written, others, -⟩ := setReg_advance_writesReg s x (Config.freeRandomByte s.draws &&& kk)
  refine ⟨_, rfl, written, ?_, others, rfl, rfl, rfl⟩
  exact (congrArg (· &&& ~~~ kk) written).trans (masked_and_not_mask _ kk)

end Sys2Proof.Machine

/-! # Display and keypad (42_display_input.md) -/

namespace Sys2Proof.Machine

/-! ## The display -/

/-- A flag byte carries the proposition that its truth value decides. -/
theorem flagByte_of_iff {b : Bool} {p : Prop} (h : b = true ↔ p) :
    (p → flagByte b = 1) ∧ (¬ p → flagByte b = 0) := by
  cases b with
  | true => exact ⟨fun _ => rfl, fun fails => absurd (h.mp rfl) fails⟩
  | false => exact ⟨fun holds => absurd (h.mpr holds) Bool.false_ne_true, fun _ => rfl⟩

/-- The sprite of a DRW fits the display's rows, so that no two of its rows share one. -/
theorem drwSprite_length_le (m : Memory) (a : Nat) (n : Nibble) : (Memory.loadBytes m a n.toNat).length ≤ 32 := by
  have := n.isLt
  rw [Memory.loadBytes_length]
  omega

/-- A DRW whose sprite bytes exist completes with the drawn buffer, the collision and the published frame (R142). -/
theorem exec_drw_draws {s : State} (x y : Reg) {n : Nibble} (fits : n.toNat = 0 ∨ s.index.toNat + n.toNat ≤ memSize) :
    ∃ t, exec (.drw x y n) s = .next t ∧ t.fb = (drwResult x y n s).1 ∧
      t.reg vf = collisionFlag (drwResult x y n s).2 ∧ (∀ z, z ≠ vf → t.reg z = s.reg z) ∧ t.pending = some t.fb ∧
      t.pc = s.pc + 2 ∧ (((t.setV s.v).setFb s.fb).setPending s.pending).setPc s.pc = s :=
  ⟨_, execDrw_ok (boundsFault_eq_none.mpr fits), rfl, State.setReg_reg_self ..,
    fun z other => State.setReg_reg_ne _ vf z _ other, rfl, rfl, rfl⟩

/-- Settles O37: the buffer and its pending copy are the blank frame. -/
theorem clearScreenUnsetsEveryPixelAndPublishes : Obligations.ClearScreenUnsetsEveryPixelAndPublishes :=
  fun _ => ⟨_, rfl, blankFrame_pixel, rfl, rfl, rfl⟩

/-- Settles O38: `draw` says pixel by pixel what becomes of the buffer, and the rest is DRW's own. -/
theorem drawTogglesCoveredPixelsAndReportsCollision : Obligations.DrawTogglesCoveredPixelsAndReportsCollision := by
  intro s x y n fits
  obtain ⟨t, run, buffer, flag, others, published, advanced, frame⟩ := exec_drw_draws x y fits
  have short := drwSprite_length_le s.mem s.index.toNat n
  obtain ⟨collides, misses⟩ := flagByte_of_iff (draw_collision (px := s.reg x) (py := s.reg y) (f := s.fb) short)
  refine ⟨t, Memory.loadBytes s.mem s.index.toNat n.toNat, run, rfl, fun row col covered => ?_, fun row col uncovered => ?_,
    fun hit => flag.trans (collides hit), fun miss => flag.trans (misses miss), others, published, advanced, frame⟩
  · rw [buffer]; exact draw_pixel_covered short covered
  · rw [buffer]; exact draw_pixel_uncovered short uncovered

/-- Equal bytes load as equal lists, wherever they lie. -/
theorem Memory.loadBytes_congr {m m' : Memory} {a a' n : Nat}
    (same : ∀ k, k < n → Memory.read m' (a' + k) = Memory.read m (a + k)) :
    Memory.loadBytes m' a' n = Memory.loadBytes m a n :=
  List.map_congr_left fun k listed => same k (List.mem_range.mp listed)

section
variable {px py : Byte} {sprite : List Byte} {f : Frame} (short : sprite.length ≤ 32)
include short

/-- Drawing is its own inverse: a pixel toggles twice or never. -/
theorem draw_draw_fb : (draw px py sprite (draw px py sprite f).1).1 = f := by
  refine Frame.ext_pixel fun r c => ?_
  by_cases covered : spriteCovers px py sprite r c
  · rw [draw_pixel_covered short covered, draw_pixel_covered short covered, Bool.not_not]
  · rw [draw_pixel_uncovered short covered, draw_pixel_uncovered short covered]

/-- The second draw collides with exactly the pixels that the first one turned on. -/
theorem draw_draw_collision : (draw px py sprite (draw px py sprite f).1).2 = true ↔
    ∃ r c, Frame.pixel f r c = false ∧ Frame.pixel (draw px py sprite f).1 r c = true := by
  rw [draw_collision short]
  refine exists_congr fun r => exists_congr fun c => ?_
  by_cases covered : spriteCovers px py sprite r c
  · simp [draw_pixel_covered short covered, covered]
  · simp [draw_pixel_uncovered short covered, covered]

end

/-- Settles O39: the second DRW draws the same sprite at the same place on the buffer that the first one left. -/
theorem drawingTwiceRestoresTheBuffer : Obligations.DrawingTwiceRestoresTheBuffer := by
  intro s t u x y x' y' n fits fits' first buffer sameX sameY sameBytes
  obtain ⟨t', run, drawn, -⟩ := exec_drw_draws x y fits
  cases run.symm.trans first
  obtain ⟨w, run', drawn', flag', -⟩ := exec_drw_draws x' y' fits'
  have short := drwSprite_length_le s.mem s.index.toNat n
  have again : drwResult x' y' n u =
      draw (s.reg x) (s.reg y) (Memory.loadBytes s.mem s.index.toNat n.toNat) (drwResult x y n s).1 := by
    rw [drwResult, sameX, sameY, buffer, drawn, State.dataAddress, Memory.loadBytes_congr sameBytes]
  obtain ⟨collides, misses⟩ :=
    flagByte_of_iff (draw_draw_collision (px := s.reg x) (py := s.reg y) (f := s.fb) short)
  rw [again] at drawn' flag'
  rw [drawn]
  exact ⟨w, run', drawn'.trans (draw_draw_fb short), fun lit => flag'.trans (collides lit),
    fun dark => flag'.trans (misses dark)⟩

/-! ## The keypad -/

/-- Settles O40: the two skips differ only in the key state they want. -/
theorem keySkipsTestTheKeyOfTheRegister : Obligations.KeySkipsTestTheKeyOfTheRegister := by
  refine fun s x => ⟨fun valid => ?_, fun invalid => ⟨skipOnKey_invalid invalid, skipOnKey_invalid invalid⟩⟩
  have skips (wanted : Bool) : skipOnKey x wanted s =
      .next (s.setPc (s.pc + if s.keys[(s.reg x).toNat] == wanted then 4 else 2)) := by
    rw [skipOnKey_valid valid, skipIf_eq]; rfl
  refine ⟨(skips true).trans ?_, (skips false).trans ?_⟩ <;> cases s.keys[(s.reg x).toNat] <;> rfl

/-- Settles O41: the four outcomes of a pass. -/
theorem keyWaitStoresTheKeyOrWaitsOrHalts : Obligations.KeyWaitStoresTheKeyOrWaitsOrHalts :=
  fun s x => ⟨fun k runs key valid => ⟨_, keyWaitPass_key runs key valid, State.setReg_reg_self s x k,
      fun z other => State.setReg_reg_ne s x z k other, rfl, rfl, rfl⟩,
    keyWaitPass_noKey, keyWaitPass_stopped, fun _ => keyWaitPass_invalidKey⟩

/-- Settles O42: the choice of the mover touches neither `RUN` nor the mark of the wait. -/
theorem waitingEngineMakesOnePassAStep : Obligations.WaitingEngineMakesOnePassAStep := by
  intro s x moves running waits
  rw [step_engine moves]
  exact engineStep_waiting (by rw [State.afterChoice_run, running]) (by rw [State.afterChoice_keyWait, waits])

end Sys2Proof.Machine

/-! # Loads and stores (43_load_store.md) -/

namespace Sys2Proof.Machine

/-! ## Copies into registers, timers and `I` -/

/-- LD, whichever its operand kind (R160, R161). -/
theorem copyInto_writesReg (x : Reg) (o : Operand) (s : State) :
    ∃ t, copyInto x o s = .next t ∧ WritesReg s t x (o.value s) :=
  ⟨_, rfl, setReg_advance_writesReg s x (o.value s)⟩

/-- Settles O44: both LD forms are one copy, and LD_I's zero-extension keeps the address (R162). -/
theorem loadsCopyImmediateRegisterAndIndex : Obligations.LoadsCopyImmediateRegisterAndIndex :=
  fun s x y kk nnn => ⟨copyInto_writesReg x (.ofImm kk) s, copyInto_writesReg x (.ofReg y) s,
    _, rfl, zext_index_addr_toNat nnn, rfl, rfl⟩

/-- Settles O45: one register write, one write of `DT`, one of `ST`. -/
theorem timerCopiesMoveOneByte : Obligations.TimerCopiesMoveOneByte :=
  fun s x => ⟨⟨_, rfl, setReg_advance_writesReg s x s.dt⟩, ⟨_, rfl, rfl, rfl, rfl⟩, _, rfl, rfl, rfl, rfl⟩

/-- Settles O46: LD_F on a digit, and on a value that is none. -/
theorem glyphLoadPointsIndexAtTheDigit : Obligations.GlyphLoadPointsIndexAtTheDigit :=
  fun _ _ => ⟨fun digit => ⟨_, execLdF_valid digit, glyphAddress_toNat digit, rfl, rfl⟩, execLdF_invalid⟩

/-! ## Memory -/

/-- Settles O47: LD_B is the store of the three digits. -/
theorem decimalDigitsAreStoredFromIndex : Obligations.DecimalDigitsAreStoredFromIndex :=
  fun s x fits => storeAtIndex_writes (bytes := bcdDigits (s.reg x)) (by rw [bcdDigits_length]; omega)

/-- Byte `k` of the dump list is `V[k]` (R168). -/
theorem regsUpTo_getD (s : State) {x k : Reg} (listed : k ≤ x) : (s.regsUpTo x).getD k.val 0 = s.reg k := by
  have inList : k.val < (s.regsUpTo x).length := by rw [regsUpTo_length]; exact Nat.lt_succ_of_le listed
  rw [List.getD_eq_getElem _ _ inList]
  exact regsUpTo_getElem s x k.val inList k.isLt

/-- Settles O48: LD_I_Vx is the store of the list of `V[0]` to `V[x]`. -/
theorem registerDumpStoresFromIndex : Obligations.RegisterDumpStoresFromIndex := by
  intro s x fits
  obtain ⟨t, run, bytes⟩ := storeAtIndex_writes (s := s) (bytes := s.regsUpTo x) (by rw [regsUpTo_length]; omega)
  exact ⟨t, s.regsUpTo x, run, regsUpTo_length s x, fun _ => regsUpTo_getD s, bytes⟩

/-- Settles O49: a fill that fits reads memory up to `V[x]` and leaves the registers above. -/
theorem registerFillLoadsFromIndex : Obligations.RegisterFillLoadsFromIndex := by
  intro s x fits
  have filled (k : Reg) : (s.fillRegs x s.dataAddress).advance.reg k =
      if k ≤ x then Memory.read s.mem (s.index.toNat + k.val) else s.reg k := by
    rw [State.advance_reg, State.fillRegs_reg, State.dataAddress]
  refine ⟨_, execLdVxI_ok (boundsFault_none fits), fun k listed => ?_, fun k above => ?_, by simp, ?_⟩
  · rw [filled, if_pos listed]
  · rw [filled, if_neg (not_le_of_gt above)]
  · exact fillRegs_frame s x s.dataAddress

/-- Settles O50: the fill reads, from the same addresses, the bytes that the dump stored there. -/
theorem fillAfterDumpRestoresTheRegisters : Obligations.FillAfterDumpRestoresTheRegisters := by
  intro s t u x fits dumped sameMem sameIndex
  obtain ⟨w, run, loaded, kept, -⟩ := registerFillLoadsFromIndex u x (by rw [sameIndex]; exact fits)
  refine ⟨w, run, fun k listed => ?_, kept⟩
  rw [loaded k listed, sameMem, sameIndex]
  exact read_of_execLdIVx fits dumped k listed

end Sys2Proof.Machine

/-! # Runs of steps, and the engine's cycle (60_exceptions.md) -/

namespace Sys2Proof.Machine

/-! ## Every run has a last state -/

/-- An engine step leaves the state as it is or has an effect of one instruction: a halt, which any of them can have, a pass of
the key wait, or what the instruction at `PC` does. -/
theorem engineStep_effect (s : State) : ∃ t, engineStep s = .next t ∧ (t = s ∨ ∃ i, Effect s i t) := by
  have halts (r : HaltReason) : ∃ i, Effect s i (s.setRun (.halted r)) := ⟨.cls, .halt r⟩
  rcases engineStep_cases s with ⟨-, e⟩ | ⟨x, -, -, e⟩ | ⟨-, -, -, e⟩ | ⟨-, -, -, -, e⟩ | ⟨-, -, -, -, e⟩
  · exact ⟨_, e, .inl rfl⟩
  · obtain ⟨t, pass, effect⟩ := keyWaitPass_effect x s
    exact ⟨t, e.trans pass, .inr ⟨_, effect⟩⟩
  · exact ⟨_, e, .inr (halts _)⟩
  · exact ⟨_, e, .inr (halts _)⟩
  · rcases fetchDecodeExecute_cases s with ⟨-, e'⟩ | ⟨-, -, e'⟩ | ⟨i, -, -, e'⟩
    · exact ⟨_, e.trans e', .inr (halts _)⟩
    · exact ⟨_, e.trans e', .inr (halts _)⟩
    · obtain ⟨t, done, effect⟩ := exec_effect i s
      exact ⟨t, e.trans (e'.trans done), .inr ⟨i, effect⟩⟩

/-- The engine never writes the surface's inputs or the schedule. -/
theorem engineStep_inputs {s t : State} (h : engineStep s = .next t) :
    t.keys = s.keys ∧ t.surfaceRunning = s.surfaceRunning ∧ t.pollAnswer = s.pollAnswer ∧
      t.schedule = s.schedule ∧ t.turn = s.turn := by
  obtain ⟨u, done, same | ⟨i, effect⟩⟩ := engineStep_effect s <;> cases done.symm.trans h
  · cases same; exact ⟨rfl, rfl, rfl, rfl, rfl⟩
  · exact effect.inputs_unchanged

theorem step_next (s : State) : ∃ t, step s = .next t := by
  rw [step_eq]
  cases s.mover with
  | engine =>
    obtain ⟨t, done, -⟩ := engineStep_effect s.afterChoice
    exact ⟨t, done⟩
  | _ => exact ⟨_, rfl⟩

/-- A run takes its first step first. -/
theorem run_succ {s u : State} (first : step s = .next u) (n : Nat) :
    Sys2Proof.core.run (n + 1) s = Sys2Proof.core.run n u := by
  have first' : Sys2Proof.core.step s = .next u := first
  simp only [Host.Core.run, first']

theorem run_next (n : Nat) (s : State) : ∃ t, Sys2Proof.core.run n s = .next t := by
  induction n generalizing s with
  | zero => exact ⟨s, rfl⟩
  | succ n ih =>
    obtain ⟨u, first⟩ := step_next s
    rw [run_succ first]
    exact ih u

/-! ## The choice of the mover, the halt check and the fetch -/

/-- A new round is its head, which moves, and the rest, which is then listed (60_exceptions.md R184; log 11). -/
theorem round_of_schedule_nil {s : State} (exhausted : s.schedule = []) :
    s.round = s.mover :: s.round.tail ∧ s.afterChoice = (s.setTurn (s.turn + 1)).setSchedule s.round.tail := by
  have steps : s.upcoming = s.round := by simp [State.upcoming, exhausted]
  have listed : s.afterChoice = (s.setTurn (s.turn + 1)).setSchedule s.round.tail := by simp [State.afterChoice, exhausted]
  have head := upcoming_eq s
  rw [steps, listed, State.setSchedule_schedule] at head
  exact ⟨head, listed⟩

/-- The decoder on the two bytes at `PC` is the decoder on their word. -/
theorem decodeWord_of_decode_fetched {s : State} {i : Instr} {rest : List Byte}
    (h : decode [Memory.read s.mem s.pc.toNat, Memory.read s.mem (s.pc.toNat + 1)] = .ok (i, rest)) :
    decodeWord s.opcodeAtPc = .ok i := by
  cases decoded : decodeWord s.opcodeAtPc with
  | ok j =>
    rw [decode_fetched, decoded] at h
    cases h; rfl
  | error e =>
    rw [decode_fetched, decoded] at h
    cases h

/-- Settles O7: `step_runs` on the bytes at `PC`, and the two branches of the choice of the mover. -/
theorem stepRunsTheDecodedInstruction : Obligations.StepRunsTheDecodedInstruction :=
  ⟨fun _ _ _ ready inMem decoded => step_runs ready inMem (decodeWord_of_decode_fetched decoded), fun _ _ _ => mover_cons,
    fun _ exhausted => ⟨_, round_of_schedule_nil exhausted⟩⟩

/-- A halted engine takes no step (60_exceptions.md R180). -/
theorem engineStep_halted {s : State} {r : HaltReason} (halted : s.run = .halted r) : engineStep s = .next s := by
  simp [engineStep, halted]

theorem engineStep_surfaceClosed {s : State} (running : s.run = .running) (idle : s.keyWait = none)
    (closed : s.surfaceRunning = false) : engineStep s = .next (s.setRun (.halted .surfaceClosed)) := by
  simp [engineStep, State.cycle, State.isRunning, running, idle, closed, halt_eq]

theorem engineStep_pcPastEnd {s : State} (running : s.run = .running) (idle : s.keyWait = none)
    (surfaceRuns : s.surfaceRunning = true) (out : memSize ≤ s.pc.toNat) :
    engineStep s = .next (s.setRun (.halted .pcPastEnd)) := by
  simp [engineStep, State.cycle, State.isRunning, running, idle, surfaceRuns, out, halt_eq]

/-- Settles O9: the choice of the mover changes nothing the halt check looks at. -/
theorem haltChecksComeFirstSurfaceThenPc : Obligations.HaltChecksComeFirstSurfaceThenPc := by
  intro s moves running idle
  rw [step_engine moves]
  exact ⟨fun closed => engineStep_surfaceClosed (by simpa) (by simpa) (by simpa),
    fun surfaceRuns out => engineStep_pcPastEnd (by simpa) (by simpa) (by simpa) (by simpa)⟩

/-- Two bytes that exist and decode are executed. -/
theorem fetchDecodeExecute_runs {s : State} {i : Instr} (inMem : s.pc.toNat + 1 < memSize)
    (decoded : decodeWord s.opcodeAtPc = .ok i) : s.fetchDecodeExecute = exec i s := by
  rcases fetchDecodeExecute_cases s with ⟨out, -⟩ | ⟨-, rejected, -⟩ | ⟨j, -, decoded', e⟩
  · omega
  · cases decoded.symm.trans rejected
  · cases decoded.symm.trans decoded'
    exact e

/-! ## A placed word (log 20) -/

/-- The word of a table entry: its value in `nbits` bits. -/
theorem decodeWord_of_decodeTableWord {nbits w : Nat} {i : Instr} (h : decodeTableWord nbits w = some i) :
    decodeWord (BitVec.ofNat Config.opcodeW (w % 2 ^ nbits)) = .ok i := by
  have word := decode_splitWord (BitVec.ofNat Config.opcodeW (w % 2 ^ nbits)) []
  rw [List.append_nil] at word
  rw [decodeTableWord, word] at h
  cases decoded : decodeWord (BitVec.ofNat Config.opcodeW (w % 2 ^ nbits)) with
  | ok j => simpa [decoded] using h
  | error e => simp [decoded] at h

/-- A word stored high byte first is the word its two bytes read back as (20_memory.md R52). -/
theorem joinBytes_read_storeBytes_splitWord (m : Memory) (a : Nat) (op : Opcode) :
    joinBytes (Memory.read (Memory.storeBytes m a (splitWord op)) a)
      (Memory.read (Memory.storeBytes m a (splitWord op)) (a + 1)) = op := by
  have high := Memory.read_storeBytes_in m a 0 (splitWord op) (by simp [splitWord])
  have low := Memory.read_storeBytes_in m a 1 (splitWord op) (by simp [splitWord])
  rw [Nat.add_zero] at high
  rw [high, low]
  exact joinBytes_halves op

theorem withFetchWord_opcodeAtPc (s : State) (nbits w : Nat) :
    (s.withFetchWord nbits w).opcodeAtPc = BitVec.ofNat Config.opcodeW (w % 2 ^ nbits) :=
  joinBytes_read_storeBytes_splitWord ..

/-- Settles O8: the engine's turn heads the schedule, and what it fetches is the word stored at `PC`. -/
theorem placedWordIsFetchedAndRun : Obligations.PlacedWordIsFetchedAndRun := by
  intro s w i inMem decoded
  obtain ⟨moves, listed⟩ := mover_cons (s := s.withFetchWord 16 w) rfl
  constructor
  · have ready : (s.withFetchWord 16 w).aboutToFetch := ⟨moves, rfl, rfl, rfl⟩
    rw [step_runs ready inMem (by rw [withFetchWord_opcodeAtPc]; exact decodeWord_of_decodeTableWord decoded), listed]
  · intro d notHigh notLow
    refine Memory.read_storeBytes_out s.mem s.pc.toNat d _ ?_
    simp only [splitWord, List.length_cons, List.length_nil]
    omega

/-! ## What no step undoes -/

theorem SameEngineState.trans {s t u : State} (first : SameEngineState s t) (second : SameEngineState t u) :
    SameEngineState s u := by
  obtain ⟨hv, hi, hp, hk, hm, hr, hw⟩ := first
  obtain ⟨hv', hi', hp', hk', hm', hr', hw'⟩ := second
  exact ⟨hv'.trans hv, hi'.trans hi, hp'.trans hp, hk'.trans hk, hm'.trans hm, hr'.trans hr, hw'.trans hw⟩

theorem SameEngineState.run_eq {s t : State} (same : SameEngineState s t) : t.run = s.run := by
  obtain ⟨-, -, -, -, -, sameRun, -⟩ := same
  exact sameRun

theorem afterChoice_sameEngineState (s : State) : SameEngineState s s.afterChoice := by
  simp [SameEngineState]

/-- A halted engine does nothing, and the other agents leave its state alone. -/
theorem step_halted_sameEngineState {s t : State} {r : HaltReason} (halted : s.run = .halted r) (h : step s = .next t) :
    SameEngineState s t := by
  refine (afterChoice_sameEngineState s).trans ?_
  rw [step_eq] at h
  cases moves : s.mover with
  | engine =>
    have stutter : engineStep s.afterChoice = .next s.afterChoice := engineStep_halted (by simpa)
    rw [moves] at h
    cases stutter.symm.trans h
    simp [SameEngineState]
  | tickDelay => rw [moves] at h; cases h; simp [SameEngineState]
  | tickSound => rw [moves] at h; cases h; simp [SameEngineState]
  | surface e => rw [moves] at h; cases h; exact (surfaceStep_engine e s.afterChoice).1

/-- Settles O12: every step keeps the state of a halted engine, its reason to halt among it. -/
theorem haltedEngineStaysHalted : Obligations.HaltedEngineStaysHalted := by
  intro n s r halted
  obtain ⟨t, run⟩ := run_next n s
  have same : SameEngineState s t := by
    refine run_induction (P := SameEngineState s) (fun u w same next => ?_) n s t ?_ run
    · exact same.trans (step_halted_sameEngineState (same.run_eq.trans halted) next)
    · simp [SameEngineState]
  exact ⟨t, run, same, same.run_eq.trans halted⟩

/-- No step raises the running flag: of the surface's steps only the closing one writes it. -/
theorem step_keeps_surfaceStopped {s t : State} (stopped : s.surfaceRunning = false) (h : step s = .next t) :
    t.surfaceRunning = false := by
  rw [step_eq] at h
  cases moves : s.mover with
  | engine =>
    rw [moves] at h
    obtain ⟨-, same, -⟩ := engineStep_inputs h
    simpa [stopped] using same
  | tickDelay => rw [moves] at h; cases h; simpa
  | tickSound => rw [moves] at h; cases h; simpa
  | surface e =>
    rw [moves] at h
    cases h
    cases e <;> simp [surfaceStep, stopped]

/-- Settles O16: `step_keeps_surfaceStopped` along the run; the engine never writes the flag. -/
theorem runningFlagOnceLoweredStaysLowered : Obligations.RunningFlagOnceLoweredStaysLowered := by
  refine ⟨run_induction (P := fun s => s.surfaceRunning = false) fun s t => step_keeps_surfaceStopped, fun s t h => ?_⟩
  obtain ⟨-, same, -⟩ := engineStep_inputs h
  exact same

end Sys2Proof.Machine

/-! # The causes of fatal conditions (60_exceptions.md R185) -/

namespace Sys2Proof.Machine

/-- Instruction `i` raises `c` in state `s`: the table of R185, a line for each instruction that can. -/
inductive Raises (s : State) : Instr → Condition → Prop where
  | call (nnn : Addr12) (full : 16 ≤ s.sp) : Raises s (.call nnn) .stackOverflow
  | ret (empty : s.sp = 0) : Raises s .ret .stackUnderflow
  | skp (x : Reg) (invalid : 15 < (s.reg x).toNat) : Raises s (.skp x) (.invalidKeyCode (s.reg x))
  | sknp (x : Reg) (invalid : 15 < (s.reg x).toNat) : Raises s (.sknp x) (.invalidKeyCode (s.reg x))
  | ldVxK (x : Reg) (k : Byte) (polled : s.pollAnswer = some k) (invalid : 15 < k.toNat) :
      Raises s (.ldVxK x) (.invalidKeyCode k)
  | ldF (x : Reg) (invalid : 15 < (s.reg x).toNat) : Raises s (.ldF x) (.invalidSpriteIndex (s.reg x))
  | access {i : Instr} (len : Nat) (out : memSize < s.index.toNat + len)
      (accesses : (∃ x y n, i = .drw x y n ∧ len = n.toNat ∧ 0 < len) ∨ (∃ x, i = .ldB x ∧ len = 3) ∨
        ∃ x, (i = .ldIVx x ∨ i = .ldVxI x) ∧ len = x.val + 1) :
      Raises s i (.memoryBoundsFault (max s.index.toNat memSize))

/-- An instruction halts the engine for a fatal condition only where R185's table has it. -/
def HaltsAsListed (s : State) (i : Instr) (t : State) : Prop :=
  ∀ c, t.run = .halted (.fatal c) → s.run = .running → Raises s i c

section
variable {s t : State} {i : Instr} {c : Condition}

/-- A state that is still RUNNING raised nothing. -/
theorem HaltsAsListed.of_sameRun (same : t.run = s.run) : HaltsAsListed s i t := by
  intro c halted running
  rw [same, running] at halted
  cases halted

theorem HaltsAsListed.of_raise (raises : Raises s i c) : HaltsAsListed s i (s.setRun (.halted (.fatal c))) := by
  intro d halted _
  cases halted
  exact raises

theorem skipOnKey_haltsAsListed {x : Reg} (wanted : Bool)
    (raises : 15 < (s.reg x).toNat → Raises s i (.invalidKeyCode (s.reg x))) (h : skipOnKey x wanted s = .next t) :
    HaltsAsListed s i t := by
  by_cases valid : (s.reg x).toNat < 16
  · cases (skipOnKey_valid valid).symm.trans h
    exact .of_sameRun (State.skipIf_run ..)
  · cases (skipOnKey_invalid (Nat.le_of_not_lt valid)).symm.trans h
    exact .of_raise (raises (Nat.le_of_not_lt valid))

theorem storeAtIndex_haltsAsListed {bytes : List Byte}
    (raises : memSize < s.index.toNat + bytes.length → Raises s i (.memoryBoundsFault (max s.index.toNat memSize)))
    (h : storeAtIndex bytes s = .next t) : HaltsAsListed s i t := by
  cases check : boundsFault s.dataAddress bytes.length with
  | none =>
    cases (storeAtIndex_ok check).symm.trans h
    exact .of_sameRun rfl
  | some a =>
    cases (storeAtIndex_fault check).symm.trans h
    obtain ⟨-, out, rfl⟩ := boundsFault_eq_some.mp check
    exact .of_raise (raises out)

theorem keyWaitPass_haltsAsListed {x : Reg} (h : keyWaitPass x s = .next t) : HaltsAsListed s (.ldVxK x) t := by
  rcases keyWaitPass_cases x s with ⟨-, e⟩ | ⟨-, -, e⟩ | ⟨k, -, polled, invalid, e⟩ | ⟨k, -, -, -, e⟩ <;>
    cases e.symm.trans h
  · intro c halted; cases halted
  · exact .of_sameRun rfl
  · exact .of_raise (.ldVxK x k polled invalid)
  · exact .of_sameRun rfl

theorem exec_haltsAsListed (h : exec i s = .next t) : HaltsAsListed s i t := by
  cases i
  case call nnn =>
    by_cases full : stackDepth ≤ s.sp
    · cases (execCall_full full).symm.trans h
      exact .of_raise (.call nnn full)
    · cases (execCall_room (Nat.lt_of_not_le full)).symm.trans h
      exact .of_sameRun rfl
  case ret =>
    cases stack : s.stack with
    | nil =>
      cases (execRet_empty stack).symm.trans h
      exact .of_raise (.ret (by rw [State.sp, stack]; rfl))
    | cons a rest =>
      cases (execRet_cons stack).symm.trans h
      exact .of_sameRun rfl
  case skp x => exact skipOnKey_haltsAsListed true (.skp x) h
  case sknp x => exact skipOnKey_haltsAsListed false (.sknp x) h
  case ldVxK x => exact keyWaitPass_haltsAsListed h
  case ldF x =>
    by_cases digit : (s.reg x).toNat ≤ 15
    · cases (execLdF_valid digit).symm.trans h
      exact .of_sameRun rfl
    · cases (execLdF_invalid (Nat.lt_of_not_le digit)).symm.trans h
      exact .of_raise (.ldF x (Nat.lt_of_not_le digit))
  case drw x y n =>
    cases check : boundsFault s.dataAddress n.toNat with
    | none =>
      cases (execDrw_ok check).symm.trans h
      exact .of_sameRun rfl
    | some a =>
      cases (execDrw_fault check).symm.trans h
      obtain ⟨nonempty, out, rfl⟩ := boundsFault_eq_some.mp check
      exact .of_raise (.access n.toNat out (.inl ⟨x, y, n, rfl, rfl, nonempty⟩))
  case ldB x => exact storeAtIndex_haltsAsListed (fun out => .access _ out (.inr (.inl ⟨x, rfl, bcdDigits_length _⟩))) h
  case ldIVx x =>
    exact storeAtIndex_haltsAsListed (fun out => .access _ out (.inr (.inr ⟨x, .inl rfl, regsUpTo_length s x⟩))) h
  case ldVxI x =>
    cases check : boundsFault s.dataAddress (x.val + 1) with
    | none =>
      cases (execLdVxI_ok check).symm.trans h
      exact .of_sameRun (by simp)
    | some a =>
      cases (execLdVxI_fault check).symm.trans h
      obtain ⟨-, out, rfl⟩ := boundsFault_eq_some.mp check
      exact .of_raise (.access _ out (.inr (.inr ⟨x, .inr rfl, rfl⟩)))
  case seImm | sneImm | seReg | sneReg => cases h; exact .of_sameRun (State.skipIf_run ..)
  all_goals cases h; exact .of_sameRun rfl

end

/-- Settles O14: the lines of the table are those of the statement. -/
theorem everyFatalConditionHasItsListedCause : Obligations.EveryFatalConditionHasItsListedCause := by
  intro i s t c running h halted
  cases exec_haltsAsListed h c halted running with
  | call nnn full => exact .inl ⟨rfl, ⟨nnn, rfl⟩, full⟩
  | ret empty => exact .inr (.inl ⟨rfl, rfl, empty⟩)
  | skp x invalid => exact .inr (.inr (.inl ⟨x, .inl rfl, rfl, invalid⟩))
  | sknp x invalid => exact .inr (.inr (.inl ⟨x, .inr rfl, rfl, invalid⟩))
  | ldVxK x k polled invalid => exact .inr (.inr (.inr (.inl ⟨x, k, rfl, polled, rfl, invalid⟩)))
  | ldF x invalid => exact .inr (.inr (.inr (.inr (.inl ⟨x, rfl, rfl, invalid⟩))))
  | access len out accesses => exact .inr (.inr (.inr (.inr (.inr ⟨len, rfl, out, accesses⟩))))

end Sys2Proof.Machine

/-! # The timers, and who moves again (60_exceptions.md R184, R191 to R195) -/

namespace Sys2Proof.Machine

/-! ## Ticks -/

/-- A tick takes one off, not below 0 (60_exceptions.md R192). -/
theorem tickValue_toNat (b : TimerByte) : (tickValue b).toNat = b.toNat - 1 := by
  by_cases zero : b = 0
  · simp [tickValue, zero]
  · have positive : (1 : TimerByte).toNat ≤ b.toNat :=
      Nat.one_le_iff_ne_zero.mpr fun value => zero (BitVec.eq_of_toNat_eq value)
    rw [tickValue, if_neg zero, BitVec.toNat_sub_of_le positive]
    rfl

/-- Settles O53: `tickValue` is the subtraction of numbers, and each tick writes its own timer alone. -/
theorem tickDecrementsDownToZero : Obligations.TickDecrementsDownToZero :=
  fun s => ⟨⟨_, rfl, tickValue_toNat s.dt, rfl⟩, ⟨_, rfl, tickValue_toNat s.st, rfl⟩⟩

/-- `t` is `s` but for the two timers and the schedule. -/
def OnlyTimersAndScheduleChanged (s t : State) : Prop := ((t.setDt s.dt).setSt s.st).setSchedule s.schedule = s

theorem OnlyTimersAndScheduleChanged.trans {s t u : State} (first : OnlyTimersAndScheduleChanged s t)
    (second : OnlyTimersAndScheduleChanged t u) : OnlyTimersAndScheduleChanged s u := by
  calc ((u.setDt s.dt).setSt s.st).setSchedule s.schedule
    _ = (((((u.setDt t.dt).setSt t.st).setSchedule t.schedule).setDt s.dt).setSt s.st).setSchedule s.schedule := rfl
    _ = ((t.setDt s.dt).setSt s.st).setSchedule s.schedule := by rw [second]
    _ = s := first

/-- A listed tick takes one off its own timer. -/
theorem step_listed_tick {s : State} {a : Config.AgentStep} {l : List Config.AgentStep} (listed : s.schedule = a :: l)
    (tick : a = .tickDelay ∨ a = .tickSound) :
    ∃ t, step s = .next t ∧ t.schedule = l ∧ t.dt.toNat = s.dt.toNat - [a].count .tickDelay ∧
      t.st.toNat = s.st.toNat - [a].count .tickSound ∧ OnlyTimersAndScheduleChanged s t := by
  obtain ⟨moves, rest⟩ := mover_cons listed
  rw [step_eq, moves, rest]
  rcases tick with rfl | rfl
  · exact ⟨_, rfl, rfl, tickValue_toNat s.dt, rfl, by cases s; rfl⟩
  · exact ⟨_, rfl, rfl, rfl, tickValue_toNat s.st, by cases s; rfl⟩

/-- Settles O54: tick by tick, each taking one off its own timer. -/
theorem ticksRunEachTimerDownOnItsOwn : Obligations.TicksRunEachTimerDownOnItsOwn := by
  intro ticks
  induction ticks with
  | nil => exact fun _ s _ _ => ⟨s, rfl, rfl, rfl, rfl⟩
  | cons a ticks ih =>
    intro rest s areTicks listed
    obtain ⟨tick, areTicks⟩ := List.forall_mem_cons.mp areTicks
    obtain ⟨u, first, listed', dt, st, frame⟩ := step_listed_tick listed tick
    obtain ⟨t, run, dt', st', frame'⟩ := ih rest u areTicks listed'
    refine ⟨t, (run_succ first _).trans run, ?_, ?_, frame.trans frame'⟩
    · rw [dt', dt, Nat.sub_sub, ← List.count_append, List.singleton_append]
    · rw [st', st, Nat.sub_sub, ← List.count_append, List.singleton_append]

/-! ## Reaching a state by steps -/

/-- Some number of steps leads from `s` to `t`. -/
def Reaches (s t : State) : Prop := ∃ n, Sys2Proof.core.run n s = .next t

theorem Reaches.refl (s : State) : Reaches s s := ⟨0, rfl⟩

theorem Reaches.head {s t u : State} (first : step s = .next t) (rest : Reaches t u) : Reaches s u := by
  obtain ⟨n, run⟩ := rest
  exact ⟨n + 1, (run_succ first n).trans run⟩

/-- Induction from the end of a run: what holds there, and of a state where it holds of the next, holds at the start. -/
theorem Reaches.head_induction {u : State} {P : State → Prop} (last : P u)
    (before : ∀ s t, step s = .next t → Reaches t u → P t → P s) {s : State} (h : Reaches s u) : P s := by
  obtain ⟨n, run⟩ := h
  induction n generalizing s with
  | zero => cases run; exact last
  | succ n ih =>
    obtain ⟨t, first⟩ := step_next s
    rw [run_succ first] at run
    exact before s t first ⟨n, run⟩ (ih run)

theorem Reaches.trans {s t u : State} (first : Reaches s t) (rest : Reaches t u) : Reaches s u :=
  first.head_induction (P := fun s => Reaches s u) rest fun _ _ next _ reaches => .head next reaches

/-! ## Every step that is due comes -/

/-- Nobody but the choice of the mover writes the schedule or counts a round. -/
theorem step_schedule {s t : State} (h : step s = .next t) :
    t.schedule = s.afterChoice.schedule ∧ t.turn = s.afterChoice.turn := by
  rw [step_eq] at h
  cases moves : s.mover with
  | engine =>
    rw [moves] at h
    obtain ⟨-, -, -, sameSchedule, sameTurn⟩ := engineStep_inputs h
    exact ⟨sameSchedule, sameTurn⟩
  | tickDelay => rw [moves] at h; cases h; exact ⟨rfl, rfl⟩
  | tickSound => rw [moves] at h; cases h; exact ⟨rfl, rfl⟩
  | surface e => rw [moves] at h; cases h; cases e <;> exact ⟨rfl, rfl⟩

/-- Every step among those that come next is reached. -/
theorem reaches_of_mem_upcoming {s : State} {a : Config.AgentStep} (comes : a ∈ s.upcoming) :
    ∃ t, Reaches s t ∧ t.mover = a := by
  induction steps : s.upcoming generalizing s with
  | nil => exact absurd steps (upcoming_ne_nil s)
  | cons b l ih =>
    obtain ⟨moves, listed⟩ : s.mover = b ∧ s.afterChoice.schedule = l := by
      rw [upcoming_eq] at steps
      exact List.cons.inj steps
    rw [steps] at comes
    rcases List.mem_cons.mp comes with rfl | later
    · exact ⟨s, .refl s, moves⟩
    · obtain ⟨u, first⟩ := step_next s
      obtain ⟨sameSchedule, -⟩ := step_schedule first
      have steps' : u.upcoming = l := by
        obtain ⟨c, l', rfl⟩ := List.exists_cons_of_ne_nil (List.ne_nil_of_mem later)
        rw [State.upcoming, sameSchedule.trans listed]
      obtain ⟨t, reaches, moves'⟩ := ih (steps' ▸ later) steps'
      exact ⟨t, .head first reaches, moves'⟩

/-- A schedule runs out, and no round is drawn before it has. -/
theorem reaches_schedule_nil (s : State) : ∃ t, Reaches s t ∧ t.schedule = [] ∧ t.turn = s.turn := by
  induction listed : s.schedule generalizing s with
  | nil => exact ⟨s, .refl s, listed, rfl⟩
  | cons a l ih =>
    obtain ⟨u, first⟩ := step_next s
    obtain ⟨sameSchedule, sameTurn⟩ := step_schedule first
    obtain ⟨-, rest⟩ := mover_cons listed
    obtain ⟨t, reaches, exhausted, turn⟩ := ih u (by rw [sameSchedule, rest, State.setSchedule_schedule])
    exact ⟨t, .head first reaches, exhausted, by rw [turn, sameTurn, rest, State.setSchedule_turn]⟩

/-- The ends of the rounds come one after another. -/
theorem reaches_turn_add (s : State) (k : Nat) : ∃ t, Reaches s t ∧ t.schedule = [] ∧ t.turn = s.turn + k := by
  induction k generalizing s with
  | zero => exact reaches_schedule_nil s
  | succ k ih =>
    obtain ⟨u, reaches, exhausted, turn⟩ := reaches_schedule_nil s
    obtain ⟨v, first⟩ := step_next u
    obtain ⟨-, sameTurn⟩ := step_schedule first
    obtain ⟨-, drawn⟩ := round_of_schedule_nil exhausted
    obtain ⟨t, reaches', exhausted', turn'⟩ := ih v
    refine ⟨t, reaches.trans (.head first reaches'), exhausted', ?_⟩
    rw [turn', sameTurn, drawn, State.setSchedule_turn, State.setTurn_turn, turn]
    omega

/-- What is due at the rounds of one remainder of `turn` by 3 moves again, whatever the free steps are (log 30). -/
theorem reaches_due {a : Config.AgentStep} {r : Nat} (small : r < 3) (isDue : ∀ t : State, t.turn % 3 = r → t.due = a)
    (s : State) : ∃ t, Reaches s t ∧ t.mover = a := by
  obtain ⟨u, reaches, exhausted, turn⟩ := reaches_turn_add s (r + 3 - s.turn % 3)
  have comes : a ∈ u.upcoming := by
    rw [← isDue u (by omega)]
    simp [State.upcoming, exhausted, State.round]
  obtain ⟨t, reaches', moves⟩ := reaches_of_mem_upcoming comes
  exact ⟨t, reaches.trans reaches', moves⟩

theorem reaches_engine (s : State) : ∃ t, Reaches s t ∧ t.mover = .engine :=
  reaches_due (r := 0) (by decide) (fun t turn => by simp [State.due, turn]) s

theorem reaches_tickDelay (s : State) : ∃ t, Reaches s t ∧ t.mover = .tickDelay :=
  reaches_due (r := 1) (by decide) (fun t turn => by simp [State.due, turn]) s

theorem reaches_tickSound (s : State) : ∃ t, Reaches s t ∧ t.mover = .tickSound :=
  reaches_due (r := 2) (by decide) (fun t turn => by simp [State.due, turn]) s

theorem movesAgain_of_reaches {s : State} {a : Config.AgentStep} (h : ∃ t, Reaches s t ∧ t.mover = a) :
    s.movesAgain a := by
  obtain ⟨t, ⟨n, run⟩, moves⟩ := h
  exact ⟨n, t, run, moves⟩

/-- The two laws of R184 hold from every state on. -/
theorem state_weaklyFair (s : State) : s.weaklyFair := fun _ t _ =>
  ⟨movesAgain_of_reaches (reaches_tickDelay t), movesAgain_of_reaches (reaches_tickSound t),
    fun _ => movesAgain_of_reaches (reaches_engine t)⟩

/-! ## A timer runs out -/

/-- An engine about to fetch beyond memory halts. -/
theorem step_pastMemory {s : State} (ready : s.aboutToFetch) (out : memSize ≤ s.pc.toNat + 1) :
    ∃ r, step s = .next (s.afterChoice.setRun (.halted r)) := by
  by_cases inMem : s.pc.toNat < memSize
  · exact ⟨_, (step_fetches ready inMem).trans (fetchDecodeExecute_pastMemory (by simpa))⟩
  · obtain ⟨moves, running, idle, surfaceRuns⟩ := ready
    obtain ⟨-, halts⟩ := haltChecksComeFirstSurfaceThenPc s moves running idle
    exact ⟨_, halts surfaceRuns (Nat.le_of_not_lt inMem)⟩

/-- Only an instruction that is fetched raises a timer: its store. -/
theorem step_timers {s t : State} (h : step s = .next t) :
    (t.dt.toNat ≤ s.dt.toNat ∨ ∃ x, s.aboutToRun (.ldDtVx x)) ∧
    (t.st.toNat ≤ s.st.toNat ∨ ∃ x, s.aboutToRun (.ldStVx x)) := by
  obtain ⟨dt, st⟩ := onlyAStoreRaisesATimer s t h
  by_cases inMem : s.pc.toNat + 1 < memSize
  · exact ⟨dt.imp_right fun ⟨ready, x, decoded, _⟩ => ⟨x, ready, inMem, decoded⟩,
      st.imp_right fun ⟨ready, x, decoded, _⟩ => ⟨x, ready, inMem, decoded⟩⟩
  · have same (ready : s.aboutToFetch) : t.dt = s.dt ∧ t.st = s.st := by
      obtain ⟨r, halts⟩ := step_pastMemory ready (Nat.le_of_not_lt inMem)
      cases halts.symm.trans h
      simp
    exact ⟨.inl (dt.elim id fun ⟨ready, _⟩ => by rw [(same ready).1]),
      .inl (st.elim id fun ⟨ready, _⟩ => by rw [(same ready).2])⟩

/-- A timer that only its own process counts down, again and again, and that rises only where `Stores` holds. -/
structure CountsDown (timer : State → TimerByte) (tick : Config.AgentStep) (Stores : State → Prop) : Prop where
  ticks : ∀ s t, s.mover = tick → step s = .next t → timer t = tickValue (timer s)
  raised_by_store : ∀ s t, step s = .next t → (timer t).toNat ≤ (timer s).toNat ∨ Stores s
  ticks_again : ∀ s, ∃ t, Reaches s t ∧ t.mover = tick

theorem delay_countsDown : CountsDown State.dt .tickDelay fun s => ∃ x, s.aboutToRun (.ldDtVx x) where
  ticks s t moves h := by
    rw [step_eq, moves] at h
    cases h
    simp
  raised_by_store _ _ h := (step_timers h).1
  ticks_again := reaches_tickDelay

theorem sound_countsDown : CountsDown State.st .tickSound fun s => ∃ x, s.aboutToRun (.ldStVx x) where
  ticks s t moves h := by
    rw [step_eq, moves] at h
    cases h
    simp
  raised_by_store _ _ h := (step_timers h).2
  ticks_again := reaches_tickSound

section
variable {timer : State → TimerByte} {tick : Config.AgentStep} {Stores : State → Prop}

/-- Along a run the timer does not rise, unless a store comes. -/
theorem CountsDown.le_or_stores (counts : CountsDown timer tick Stores) {s u : State} (h : Reaches s u) :
    (timer u).toNat ≤ (timer s).toNat ∨ ∃ v, Reaches s v ∧ Stores v := by
  refine h.head_induction (P := fun s => (timer u).toNat ≤ (timer s).toNat ∨ ∃ v, Reaches s v ∧ Stores v)
    (.inl le_rfl) fun s t next _ rest => ?_
  rcases counts.raised_by_store s t next with le | stores
  · rcases rest with le' | ⟨v, reaches, stores⟩
    · exact .inl (le'.trans le)
    · exact .inr ⟨v, .head next reaches, stores⟩
  · exact .inr ⟨s, .refl s, stores⟩

/-- Tick by tick the timer reaches 0, unless a store comes. -/
theorem CountsDown.reaches_zero_or_store (counts : CountsDown timer tick Stores) (s : State) :
    ∃ t, Reaches s t ∧ (timer t = 0 ∨ Stores t) := by
  induction value : (timer s).toNat using Nat.strong_induction_on generalizing s with
  | _ n ih =>
    obtain ⟨u, reaches, moves⟩ := counts.ticks_again s
    obtain ⟨v, next⟩ := step_next u
    have ticked : (timer v).toNat = (timer u).toNat - 1 := by
      rw [counts.ticks u v moves next, tickValue_toNat]
    by_cases zero : (timer u).toNat = 0
    · exact ⟨u, reaches, .inl (BitVec.eq_of_toNat_eq zero)⟩
    rcases counts.le_or_stores reaches with le | ⟨w, reaches', stores⟩
    · obtain ⟨t, reaches', ends⟩ := ih _ (by omega) v rfl
      exact ⟨t, reaches.trans (.head next reaches'), ends⟩
    · exact ⟨w, reaches', .inr stores⟩

end

/-- A reached state is one after some number of steps. -/
theorem exists_run_of_reaches {s : State} {P : State → Prop} (h : ∃ t, Reaches s t ∧ P t) :
    ∃ n t, Sys2Proof.core.run n s = .next t ∧ P t := by
  obtain ⟨t, ⟨n, run⟩, holds⟩ := h
  exact ⟨n, t, run, holds⟩

/-- Settles O60: the agents come due in turn, and a timer is counted down by its ticks. -/
theorem everyAgentMovesAgainAndTimersRunOut : Obligations.EveryAgentMovesAgainAndTimersRunOut :=
  fun s => ⟨state_weaklyFair s, exists_run_of_reaches (delay_countsDown.reaches_zero_or_store s),
    exists_run_of_reaches (sound_countsDown.reaches_zero_or_store s)⟩

end Sys2Proof.Machine

/-! # What nothing reads: `ST` and the pending frame (60_exceptions.md R195, R199) -/

namespace Sys2Proof.Machine

/-- Two outcomes that agree but for `ST` and the pending frame. -/
def SameOutcomeButUnread (r r' : Result) : Prop := onNext State.hideUnread r = onNext State.hideUnread r'

/-- States that agree but for the unread fields are outcomes that agree so. -/
theorem SameOutcomeButUnread.next {t u : State} (same : t.hideUnread = u.hideUnread) :
    SameOutcomeButUnread (.next t) (.next u) :=
  congrArg Host.Outcome.next same

section
variable (s : State)

theorem raise_unread (c : Condition) : SameOutcomeButUnread (raise c s.hideUnread) (raise c s) := rfl

theorem skipIf_unread (taken : Bool) : SameOutcomeButUnread (.next (s.hideUnread.skipIf taken)) (.next (s.skipIf taken)) := by
  cases taken <;> exact .next rfl

theorem skipOnKey_unread (x : Reg) (wanted : Bool) :
    SameOutcomeButUnread (skipOnKey x wanted s.hideUnread) (skipOnKey x wanted s) := by
  by_cases valid : (s.reg x).toNat < 16
  · rw [skipOnKey_valid valid, skipOnKey_valid (s := s.hideUnread) valid]
    exact skipIf_unread s _
  · have invalid := Nat.le_of_not_lt valid
    rw [skipOnKey_invalid invalid, skipOnKey_invalid (s := s.hideUnread) invalid]
    exact raise_unread s _

theorem storeAtIndex_unread (bytes : List Byte) :
    SameOutcomeButUnread (storeAtIndex bytes s.hideUnread) (storeAtIndex bytes s) := by
  cases check : boundsFault s.dataAddress bytes.length with
  | some a =>
    rw [storeAtIndex_fault check, storeAtIndex_fault (s := s.hideUnread) check]
    exact raise_unread s _
  | none =>
    rw [storeAtIndex_ok check, storeAtIndex_ok (s := s.hideUnread) check]
    exact .next rfl

theorem keyWaitPass_unread (x : Reg) : SameOutcomeButUnread (keyWaitPass x s.hideUnread) (keyWaitPass x s) := by
  rcases keyWaitPass_cases x s with ⟨stopped, e⟩ | ⟨runs, noKey, e⟩ | ⟨k, runs, key, invalid, e⟩ | ⟨k, runs, key, valid, e⟩
  · rw [e, keyWaitPass_stopped (s := s.hideUnread) stopped]; exact .next rfl
  · rw [e, keyWaitPass_noKey (s := s.hideUnread) runs noKey]; exact .next rfl
  · rw [e, keyWaitPass_invalidKey (s := s.hideUnread) runs key invalid]; exact .next rfl
  · rw [e, keyWaitPass_key (s := s.hideUnread) runs key valid]; exact .next rfl

theorem execLdF_unread (x : Reg) : SameOutcomeButUnread (execLdF x s.hideUnread) (execLdF x s) := by
  by_cases digit : (s.reg x).toNat ≤ 15
  · rw [execLdF_valid digit, execLdF_valid (s := s.hideUnread) digit]; exact .next rfl
  · have invalid := Nat.lt_of_not_le digit
    rw [execLdF_invalid invalid, execLdF_invalid (s := s.hideUnread) invalid]; exact raise_unread s _

theorem execDrw_unread (x y : Reg) (n : Nibble) : SameOutcomeButUnread (execDrw x y n s.hideUnread) (execDrw x y n s) := by
  cases check : boundsFault s.dataAddress n.toNat with
  | some a => rw [execDrw_fault check, execDrw_fault (s := s.hideUnread) check]; exact raise_unread s _
  | none => rw [execDrw_ok check, execDrw_ok (s := s.hideUnread) check]; exact .next rfl

theorem execLdVxI_unread (x : Reg) : SameOutcomeButUnread (execLdVxI x s.hideUnread) (execLdVxI x s) := by
  cases check : boundsFault s.dataAddress (x.val + 1) with
  | some a => rw [execLdVxI_fault check, execLdVxI_fault (s := s.hideUnread) check]; exact raise_unread s _
  | none => rw [execLdVxI_ok check, execLdVxI_ok (s := s.hideUnread) check]; exact .next rfl

theorem execRet_unread : SameOutcomeButUnread (execRet s.hideUnread) (execRet s) := by
  cases stack : s.stack with
  | nil => rw [execRet_empty stack, execRet_empty (s := s.hideUnread) stack]; exact raise_unread s _
  | cons a rest => rw [execRet_cons stack, execRet_cons (s := s.hideUnread) stack]; exact .next rfl

theorem execCall_unread (nnn : Addr12) : SameOutcomeButUnread (execCall nnn s.hideUnread) (execCall nnn s) := by
  by_cases full : stackDepth ≤ s.sp
  · rw [execCall_full full, execCall_full (s := s.hideUnread) full]; exact raise_unread s _
  · have room := Nat.lt_of_not_le full
    rw [execCall_room room, execCall_room (s := s.hideUnread) room]; exact .next rfl

theorem exec_unread (i : Instr) : SameOutcomeButUnread (exec i s.hideUnread) (exec i s) := by
  cases i
  case ret => exact execRet_unread s
  case call nnn => exact execCall_unread s nnn
  case seImm | sneImm | seReg | sneReg => exact skipIf_unread s _
  case skp x => exact skipOnKey_unread s x true
  case sknp x => exact skipOnKey_unread s x false
  case drw x y n => exact execDrw_unread s x y n
  case ldVxK x => exact keyWaitPass_unread s x
  case ldF x => exact execLdF_unread s x
  case ldB x => exact storeAtIndex_unread s _
  case ldIVx x => exact storeAtIndex_unread s _
  case ldVxI x => exact execLdVxI_unread s x
  all_goals exact .next rfl

theorem fetchDecodeExecute_unread : SameOutcomeButUnread s.hideUnread.fetchDecodeExecute s.fetchDecodeExecute := by
  rcases fetchDecodeExecute_cases s with ⟨out, e⟩ | ⟨inMem, rejected, e⟩ | ⟨i, inMem, decoded, e⟩
  · rw [e, fetchDecodeExecute_pastMemory (s := s.hideUnread) out]
    exact raise_unread s _
  · rw [e, fetchDecodeExecute_illegal (s := s.hideUnread) inMem rejected]
    exact raise_unread s _
  · rw [e, fetchDecodeExecute_runs (s := s.hideUnread) inMem decoded]
    exact exec_unread s i

theorem engineStep_unread : SameOutcomeButUnread (engineStep s.hideUnread) (engineStep s) := by
  rcases engineStep_cases s with ⟨⟨r, halted⟩, e⟩ | ⟨x, running, waits, e⟩ | ⟨running, idle, closed, e⟩ |
    ⟨running, idle, surfaceRuns, out, e⟩ | ⟨running, idle, surfaceRuns, inMem, e⟩
  · rw [e, engineStep_halted (s := s.hideUnread) halted]
    exact .next rfl
  · rw [e, engineStep_waiting (s := s.hideUnread) running waits]
    exact keyWaitPass_unread s x
  · rw [e, engineStep_surfaceClosed (s := s.hideUnread) running idle closed]
    exact .next rfl
  · rw [e, engineStep_pcPastEnd (s := s.hideUnread) running idle surfaceRuns out]
    exact .next rfl
  · rw [e, engineStep_ready (s := s.hideUnread) running idle surfaceRuns inMem]
    exact fetchDecodeExecute_unread s

theorem agentStep_unread (a : Config.AgentStep) : SameOutcomeButUnread (agentStep a s.hideUnread) (agentStep a s) := by
  cases a with
  | engine => exact engineStep_unread s
  | tickDelay => exact .next rfl
  | tickSound => exact .next rfl
  | surface e => cases e <;> exact .next rfl

theorem hideUnread_afterChoice : s.hideUnread.afterChoice = s.afterChoice.hideUnread := by
  cases listed : s.schedule with
  | nil =>
    rw [(round_of_schedule_nil listed).2, (round_of_schedule_nil (s := s.hideUnread) listed).2]
    rfl
  | cons a l =>
    rw [(mover_cons listed).2, (mover_cons (s := s.hideUnread) listed).2]
    rfl

theorem step_unread : SameOutcomeButUnread (step s.hideUnread) (step s) := by
  rw [step_eq, hideUnread_afterChoice]
  exact agentStep_unread s.afterChoice s.mover

end

/-- Settles O59: both states step like the one state that both are with the unread fields hidden. -/
theorem soundTimerAndPendingFrameAreNeverRead : Obligations.SoundTimerAndPendingFrameAreNeverRead := by
  intro s s' same
  have unread := step_unread s
  rw [same] at unread
  exact unread.symm.trans (step_unread s')

end Sys2Proof.Machine

/-! # Reset, the load of a cartridge and the totality of the step (70_reset_and_hazards.md) -/

namespace Sys2Proof.Machine

/-- Settles O11: an engine step always has an effect of one instruction, and the other agents only write their own fields. -/
theorem everyStepHasANextState : Obligations.EveryStepHasANextState := step_next

/-! ## The state after construction -/

theorem glyphs_length : glyphs.length = nGlyphs * glyphBytes := rfl

theorem resetByte_eq (a : Nat) : resetByte a = glyphs.getD a 0 := if_neg (Nat.not_lt_zero a)

/-- Memory after construction lists nothing: it reads as the glyph table at address 0 (20_memory.md R60). -/
theorem State.reset_read (a : Nat) : Memory.read State.reset.mem a = glyphs.getD a 0 := resetByte_eq a

theorem State.reset_read_pastGlyphs {a : Nat} (past : nGlyphs * glyphBytes ≤ a) : Memory.read State.reset.mem a = 0 := by
  rw [State.reset_read, List.getD_eq_default _ _ (glyphs_length.trans_le past)]

theorem State.reset_reg (x : Reg) : State.reset.reg x = 0 := Vector.getElem_replicate x.isLt

theorem State.reset_inv : State.reset.Inv where
  memWf := Memory.wf_nil
  memInRange _ listed := absurd listed List.not_mem_nil
  stackAtMost := Nat.zero_le _
  stackInRange _ live := absurd live List.not_mem_nil
  pcAtMost := by decide
  waiting _ waits := nomatch waits

/-- Settles O18: memory lists nothing, the stack is empty, no key wait is pending and `PC` is 0x200. -/
theorem resetMeetsTheInvariant : Obligations.ResetMeetsTheInvariant := State.reset_inv

/-- Settles O20, field by field. -/
theorem resetStateIsAsListed : Obligations.ResetStateIsAsListed :=
  ⟨State.reset_reg, rfl, rfl, rfl, rfl, rfl, rfl, rfl, fun a _ => State.reset_read a,
    fun _ past => State.reset_read_pastGlyphs past, blankFrame_pixel, rfl⟩

/-! ## The load -/

theorem loadCartridge_fits {bytes : List Byte} (fits : bytes.length ≤ maxCartridge) (s : State) :
    loadCartridge (some bytes) s = .next (s.setMem (Memory.storeBytes s.mem progBase bytes)) :=
  if_neg (Nat.not_lt.mpr fits)

theorem loadCartridge_oversized {bytes : List Byte} (tooLong : maxCartridge < bytes.length) (s : State) :
    loadCartridge (some bytes) s = .fault (.loadFailed .oversized) :=
  if_pos tooLong

/-- A cartridge that fits ends inside the address space (20_memory.md R61). -/
theorem progBase_add_length_le {bytes : List Byte} (fits : bytes.length ≤ maxCartridge) :
    progBase + bytes.length ≤ memSize := by
  rw [maxCartridge] at fits
  have below : progBase ≤ memSize := by decide
  omega

/-- A load that fits keeps the invariant of an engine outside a key wait. -/
theorem State.Inv.load {s : State} (inv : s.Inv) (idle : s.keyWait = none) {bytes : List Byte}
    (fits : bytes.length ≤ maxCartridge) : (s.setMem (Memory.storeBytes s.mem progBase bytes)).Inv :=
  inv.store (progBase_add_length_le fits) rfl rfl inv.pcAtMost idle

/-- Settles O19: the load is a store at 0x200 when the cartridge fits, and a load error when not. -/
theorem loadCopiesTheCartridgeOrFails : Obligations.LoadCopiesTheCartridgeOrFails := by
  refine ⟨fun bytes fits => ⟨_, loadCartridge_fits fits State.reset, ?copied, ?outside, rfl, State.reset_inv.load rfl fits⟩,
    fun _ tooLong => loadCartridge_oversized tooLong State.reset, rfl⟩
  case copied => exact fun k inside => Memory.read_storeBytes_in _ _ _ _ inside
  case outside => exact fun a out => Memory.read_storeBytes_out _ _ _ _ out

end Sys2Proof.Machine
